-- ==== Sys2Proof/Word.lean ====
section
/-! DEFINITION. The word types of the HTB (00_scope.md R8, R12): every value is unsigned, bit 0 is the least significant. -/

namespace Sys2Proof

/-- A host-bus data word, a register or a command word (BUS_DW = 32, R8). -/
abbrev Word := BitVec 32

/-- One symbol (SYM_W = 8, R8): an unsigned value 0 .. 255, 0x00 an ordinary symbol. -/
abbrev Symbol := BitVec 8

/-- A length field, an error position, a frequency count or a node weight (LEN_W = CNT_W = 16, R8). -/
abbrev Half := BitVec 16

/-- A node index (IDX_W = 9, R8). -/
abbrev NodeIdx := BitVec 9

/-- A byte offset in the host-bus window (BUS_AW = 16, R8). -/
abbrev Offset := BitVec 16

end Sys2Proof
end

