-- ==== Sys2Proof/Config.lean ====
section
/-! DEFINITION. What is fixed for this hardware: the parameters of 00_scope.md R8, the constants of the identity
register, and the values the spec leaves open (UNSPEC of R17, HTB_BASE, HTB_IRQ_LINE), which have no body. -/

namespace Sys2Proof.Config

/-- Number of symbol values, 2^SYM_W (R8). -/
abbrev NSYM : Nat := 256
/-- Capacity of TEXT in symbols (R8). -/
abbrev TEXT_MAX : Nat := 4096
/-- Capacity of OUT in symbols (R8). -/
abbrev OUT_MAX : Nat := 4096
/-- Capacity of SHAPE in bits (R8). -/
abbrev SHAPE_MAX : Nat := 511
/-- Capacity of LEAVES in symbols (R8). -/
abbrev LEAVES_MAX : Nat := 256
/-- Capacity of BITS in bits (R8). -/
abbrev BITS_MAX : Nat := 32768
/-- Number of entries of the node arena (R8). -/
abbrev NODE_MAX : Nat := 511

/-- The constant the ID register reads (10_state.md R33). -/
abbrev ID_VALUE : Word := 0x48554631#32

/-- Where a free value is drawn: the buffer whose unwritten element is read, or the bus for a word read while
BUSY = 1 (20_memory.md R94). -/
inductive DrawSite where
  | text | out | shape | leaves | bits | freq | bus
deriving DecidableEq, Repr

/-- UNSPEC (R17): the value drawn for element `element` of `site` in the draw event `event`. It has no body, so a
statement that holds holds for every value. The event is State's counter `draws`, which every host read and every
command completion advances. Log entry 3. -/
opaque free (site : DrawSite) (event element : Nat) : Word

/-- HTB_BASE, where the platform places the window in the host's address space: left OPEN (20_memory.md R103).
Log entry 13. -/
opaque HTB_BASE : Nat

/-- HTB_IRQ_LINE, which processor interrupt input the IRQ output drives: left OPEN (60_exceptions.md R273).
Log entry 13. -/
opaque HTB_IRQ_LINE : Nat

/-- The host's physical address of a window offset (R103). -/
def hostAddress (off : Offset) : Nat := HTB_BASE + off.toNat

end Sys2Proof.Config
end

