-- ==== Sys2Proof/Syntax.lean ====
section
/-! DEFINITION. The syntax of the HTB's two programming primitives: the command set (30_encoding.md R121, one constructor
per row of the opcode table) and the host bus transactions (R129), with the places a transaction can address. -/

namespace Sys2Proof

/-- The commands (R121). `strict` is bit 8 of the word (R124): legal for every command, it matters to UNFLATTEN, DECODE
and DECOMPRESS only. Operands are implicit (R125). -/
inductive Instr where
  | build (strict : Bool)
  | flatten (strict : Bool)
  | unflatten (strict : Bool)
  | encode (strict : Bool)
  | decode (strict : Bool)
  | compress (strict : Bool)
  | decompress (strict : Bool)
  | clear (strict : Bool)
deriving DecidableEq, Repr

/-- A transaction on the host-bus target port (10_state.md R64): `size` is the access size in bytes, `wdata` is
ignored by a read. -/
structure BusReq where
  write : Bool
  off : Offset
  size : Nat
  wdata : Word
deriving DecidableEq, Repr

/-- The response field of a transaction (00_scope.md R15). -/
inductive RespCode where
  | okay
  | error
deriving DecidableEq, Repr

/-- What the port answers (30_encoding.md R129): a read carries data, a write a response only. Log entry 7. -/
inductive BusResp where
  | read (rdata : Word) (resp : RespCode)
  | write (resp : RespCode)
deriving DecidableEq, Repr

/-- The host-visible registers, in offset order (10_state.md R32). -/
inductive Reg where
  | id | cmd | status | irqEn | textLen | shapeLen | leavesLen | bitsLen | outLen | treeInfo | errPos | lastCmd
deriving DecidableEq, Repr

/-- What a mapped word of the window holds (20_memory.md R80): a register, or word `k` of a buffer window (words A and B
of arena entry `i` for the NODE window, R88). -/
inductive Region where
  | reg (r : Reg)
  | text (k : Nat)
  | out (k : Nat)
  | shape (k : Nat)
  | leaves (k : Nat)
  | bits (k : Nat)
  | freq (s : Nat)
  | nodeA (i : Nat)
  | nodeB (i : Nat)
deriving DecidableEq, Repr

/-- Why a transaction is answered ERROR whatever the state (60_exceptions.md R262). -/
inductive BusError where
  | wrongSize
  | misaligned
  | unmapped
deriving DecidableEq, Repr

/-- Why a command word is ILLEGAL (30_encoding.md R122, R123). -/
inductive IllegalWord where
  | reservedBits
  | reservedOp
deriving DecidableEq, Repr

end Sys2Proof
end

