-- ==== Sys2Proof/Decode.lean ====
section
/-! DEFINITION. The decoder of command words, total on all 2^32 words (30_encoding.md R127), its encoder (R120, R121), and
the decoder of bus transactions (the address map of 20_memory.md R80 and the checks R82 to R84). -/

namespace Sys2Proof

/-- RSVD, bits [31:9] of a command word (R120). -/
def rsvdField (w : Word) : BitVec 23 := w.extractLsb' 9 23

/-- STRICT, bit [8] of a command word (R120). -/
def strictField (w : Word) : Bool := w.getLsbD 8

/-- OP, bits [7:0] of a command word (R120). -/
def opField (w : Word) : BitVec 8 := w.extractLsb' 0 8

/-- The command of an OP value, none for a reserved one (R121, R123). -/
def opTable (op : BitVec 8) (strict : Bool) : Option Instr :=
  match op.toNat with
  | 0x01 => some (.build strict)
  | 0x02 => some (.flatten strict)
  | 0x03 => some (.unflatten strict)
  | 0x04 => some (.encode strict)
  | 0x05 => some (.decode strict)
  | 0x06 => some (.compress strict)
  | 0x07 => some (.decompress strict)
  | 0x08 => some (.clear strict)
  | _ => none

/-- `decode_cmd` (R127): reserved bits first, then the operation code. -/
def decode (w : Word) : Except IllegalWord Instr :=
  if rsvdField w = 0#23 then
    match opTable (opField w) (strictField w) with
    | some i => .ok i
    | none => .error .reservedOp
  else .error .reservedBits

/-- The OP value of a command (R121). -/
def Instr.op : Instr → BitVec 8
  | .build _ => 0x01#8
  | .flatten _ => 0x02#8
  | .unflatten _ => 0x03#8
  | .encode _ => 0x04#8
  | .decode _ => 0x05#8
  | .compress _ => 0x06#8
  | .decompress _ => 0x07#8
  | .clear _ => 0x08#8

/-- The STRICT bit of a command (R124). -/
def Instr.strict : Instr → Bool
  | .build b => b
  | .flatten b => b
  | .unflatten b => b
  | .encode b => b
  | .decode b => b
  | .compress b => b
  | .decompress b => b
  | .clear b => b

/-- The command word (R120): RSVD zero, then STRICT, then OP. -/
def encode (i : Instr) : Word := 0#23 ++ BitVec.ofBool i.strict ++ i.op

/-- The command the decoder reads from the opcode table's numbering of a word: a command is one 32-bit word (R128), and
bits above `nbits` are 0. -/
def decodeTableWord (nbits w : Nat) : Option Instr :=
  let v := w % 2 ^ nbits
  if v < 2 ^ 32 then (decode (BitVec.ofNat 32 v)).toOption else none

/-- The register at word `n` of the register block (10_state.md R32). -/
def regAt (n : Nat) : Option Reg :=
  match n with
  | 0 => some .id
  | 1 => some .cmd
  | 2 => some .status
  | 3 => some .irqEn
  | 4 => some .textLen
  | 5 => some .shapeLen
  | 6 => some .leavesLen
  | 7 => some .bitsLen
  | 8 => some .outLen
  | 9 => some .treeInfo
  | 10 => some .errPos
  | 11 => some .lastCmd
  | _ => none

/-- The byte offset of a register (10_state.md R32). -/
def Reg.offset (r : Reg) : Nat :=
  match r with
  | .id => 0x0000
  | .cmd => 0x0004
  | .status => 0x0008
  | .irqEn => 0x000C
  | .textLen => 0x0010
  | .shapeLen => 0x0014
  | .leavesLen => 0x0018
  | .bitsLen => 0x001C
  | .outLen => 0x0020
  | .treeInfo => 0x0024
  | .errPos => 0x0028
  | .lastCmd => 0x002C

/-- A word of the NODE window (20_memory.md R88): entry i is words 2i (A) and 2i + 1 (B). -/
def nodeWord (n : Nat) : Region := if n % 2 = 0 then .nodeA (n / 2) else .nodeB (n / 2)

/-- The address map (R80): what the word at byte offset `a` is, none where the map says unmapped. -/
def regionAt (a : Nat) : Option Region :=
  if a < 0x0030 then (regAt (a / 4)).map .reg
  else if a < 0x1000 then none
  else if a < 0x2000 then some (.text ((a - 0x1000) / 4))
  else if a < 0x3000 then some (.out ((a - 0x2000) / 4))
  else if a < 0x3040 then some (.shape ((a - 0x3000) / 4))
  else if a < 0x3100 then none
  else if a < 0x3200 then some (.leaves ((a - 0x3100) / 4))
  else if a < 0x4000 then none
  else if a < 0x5000 then some (.bits ((a - 0x4000) / 4))
  else if a < 0x5400 then some (.freq ((a - 0x5000) / 4))
  else if a < 0x6000 then none
  else if a < 0x6FF8 then some (nodeWord ((a - 0x6000) / 4))
  else none

/-- The only access size is one 32-bit word (R83). -/
def BusReq.sizeOk (r : BusReq) : Bool := r.size == 4

/-- Accesses are aligned to 4 bytes (R84). -/
def BusReq.aligned (r : BusReq) : Bool := r.off.toNat % 4 == 0

/-- The offset is mapped (R82). -/
def BusReq.mapped (r : BusReq) : Bool := (regionAt r.off.toNat).isSome

/-- What a transaction addresses, or why it is answered ERROR (R82 to R84). The three reasons have one effect, so their
order cannot be observed. -/
def BusReq.target (r : BusReq) : Except BusError Region :=
  if r.sizeOk then
    if r.aligned then
      match regionAt r.off.toNat with
      | some g => .ok g
      | none => .error .unmapped
    else .error .misaligned
  else .error .wrongSize

/-- The registers whose reads are defined while BUSY = 1 (20_memory.md R94). -/
def Reg.readableWhileBusy (r : Reg) : Bool :=
  match r with
  | .id => true
  | .cmd => true
  | .status => true
  | .irqEn => true
  | .textLen => false
  | .shapeLen => false
  | .leavesLen => false
  | .bitsLen => false
  | .outLen => false
  | .treeInfo => false
  | .errPos => false
  | .lastCmd => true

/-- The words whose reads are defined while BUSY = 1 (20_memory.md R94): no window word. -/
def Region.readableWhileBusy (g : Region) : Bool :=
  match g with
  | .reg r => r.readableWhileBusy
  | .text _ => false
  | .out _ => false
  | .shape _ => false
  | .leaves _ => false
  | .bits _ => false
  | .freq _ => false
  | .nodeA _ => false
  | .nodeB _ => false

/-- The words whose writes are performed while BUSY = 1 (20_memory.md R93): STATUS and IRQ_EN. -/
def Region.writableWhileBusy (g : Region) : Bool := decide (g = .reg .status) || decide (g = .reg .irqEn)

end Sys2Proof
end

