-- ==== Sys2Proof/WellFormed.lean ====
section
/-! DEFINITION. Well-formedness of the two programming primitives. -/

namespace Sys2Proof

/-- Every command is well formed: STRICT is legal on all eight (30_encoding.md R124), operands are implicit (R125), and
the reserved bits are no part of the syntax (a word with RSVD nonzero decodes to no command, R122). -/
def Instr.wellFormed (i : Instr) : Bool :=
  match i with
  | .build _ => true
  | .flatten _ => true
  | .unflatten _ => true
  | .encode _ => true
  | .decode _ => true
  | .compress _ => true
  | .decompress _ => true
  | .clear _ => true

/-- A transaction the port may answer OKAY: one word, aligned, mapped (20_memory.md R82 to R84). -/
def BusReq.wellFormed (r : BusReq) : Bool := r.sizeOk && r.aligned && r.mapped

end Sys2Proof
end

