-- ==== Sys2Proof/Machine/State.lean ====
section
/-! DEFINITION. The state of the HTB (10_state.md), plain data: registers, the tree slot, the buffers, the ports, and the
model's two own fields (who moves next, and how many free values were drawn). -/

namespace Sys2Proof.Machine

/-- The result codes of 60_exceptions.md R260. Codes 13 to 15 are reserved and never written, so they have no name. -/
inductive ErrCode where
  | ok
  | illegalCmd
  | lenRange
  | noTree
  | alphabet
  | shapeUnderrun
  | leavesUnderrun
  | trailingData
  | unmappedSymbol
  | bitsOverflow
  | leafRootDecode
  | outOverflow
  | partialCode
deriving DecidableEq, Repr

/-- One entry of the node arena (10_state.md R45): SYM is meaningful iff LEAF = 1, ZERO and ONE iff LEAF = 0. -/
structure Node where
  leaf : Bool
  sym : Symbol
  zero : NodeIdx
  one : NodeIdx
  weight : Half
deriving DecidableEq, Repr

/-- The tree slot while TREE_VALID = 1 (R44 to R47): ROOT, and the arena entries 0 .. NODE_COUNT - 1 in index order.
Entries at and beyond NODE_COUNT are UNSPEC and read 0 (20_memory.md R88), so they are not held. Log entry 2. -/
structure TreeSlot where
  root : NodeIdx
  nodes : List Node
deriving DecidableEq, Repr

/-- An element buffer: the written elements as (index, value) pairs, indices strictly rising; an element that is not
listed is unwritten, that is UNSPEC (00_scope.md R17, 70_reset_and_hazards.md R292). Log entry 12. -/
abbrev Buf (α : Type) := List (Nat × α)

/-- The buffers (10_state.md R51 to R56). A symbol buffer is a list of Host.Cell. -/
structure Memory where
  text : Buf Symbol
  out : Buf Symbol
  shape : Buf Bool
  leaves : Buf Symbol
  bits : Buf Bool
  freq : Buf Half
deriving DecidableEq, Repr

/-- Whose move the next step is. Time passing without an event is `idle`. Log entry 6. -/
inductive Turn where
  | host
  | engine
  | assertReset
  | releaseReset
  | idle
deriving DecidableEq, Repr

/-- The machine. The comment of each field names the rule of 10_state.md it holds. -/
structure State where
  /-- PENDING (R31, R60), empty when no command is in flight; BUSY is "not empty" (log entry 1). -/
  pending : Option Word
  /-- STATUS.DONE (R35, R36). -/
  done : Bool
  /-- STATUS.ERRCODE (R35); ERR is derived from it (R37). -/
  errCode : ErrCode
  /-- IRQ_EN.DONE_IE (R38). -/
  doneIe : Bool
  /-- TEXT_LEN.LEN (R39). -/
  textLen : Half
  /-- SHAPE_LEN.LEN (R40). -/
  shapeLen : Half
  /-- LEAVES_LEN.LEN (R41). -/
  leavesLen : Half
  /-- BITS_LEN.LEN (R42). -/
  bitsLen : Half
  /-- OUT_LEN.LEN (R43). -/
  outLen : Half
  /-- ERR_POS.POS (R49). -/
  errPos : Half
  /-- LAST_CMD (R50). -/
  lastCmd : Word
  /-- The tree slot (R45 to R48); TREE_VALID is "not none" (log entry 2). -/
  tree : Option TreeSlot
  /-- TEXT, OUT, SHAPE, LEAVES, BITS, FREQ (R51 to R56). -/
  mem : Memory
  /-- The reset input (R64). -/
  rst : Bool
  /-- The transactions the host presents on its port, the next one first (R64, 20_memory.md R95). -/
  requests : List BusReq
  /-- The latest response on the host port (R64); log entry 7. -/
  response : Option BusResp
  /-- Which agent moves next (the model's own; log entry 6). -/
  turns : List Turn
  /-- How many draws of free values have been made (the model's own; log entry 3). -/
  draws : Nat
deriving DecidableEq, Repr

/-- Why the machine stops. -/
inductive Fault where
  /-- Raised by a command that walks the held tree (FLATTEN, ENCODE, DECODE and the stages of COMPRESS and DECOMPRESS)
  when the slot breaks the invariant 10_state.md R47. SAFE: the spec gives such a slot no meaning and no run from reset
  reaches one (log entry 9). -/
  | treeSlotBroken
deriving DecidableEq, Repr

/-- Why a command has no meaning. -/
inductive Refusal where
  /-- Raised by a dispatch arm whose command has no meaning yet; no arm does. SAFE: nothing can be proved of it. -/
  | notModelled (mnemonic : String)
deriving DecidableEq, Repr

/-- Every element of every buffer is UNSPEC after reset (R62, 70_reset_and_hazards.md R292). -/
def Memory.unwritten : Memory :=
  { text := [], out := [], shape := [], leaves := [], bits := [], freq := [] }

/-- The machine right after reset (R62, R291): every register at the value the spec states, no tree, buffers unwritten,
the reset input released; ports and model fields as log entries 3, 6 and 7 name. -/
def State.reset : State :=
  { pending := none
    done := false
    errCode := .ok
    doneIe := false
    textLen := 0#16
    shapeLen := 0#16
    leavesLen := 0#16
    bitsLen := 0#16
    outLen := 0#16
    errPos := 0#16
    lastCmd := 0#32
    tree := none
    mem := Memory.unwritten
    rst := false
    requests := []
    response := none
    turns := []
    draws := 0 }

end Sys2Proof.Machine
end

