-- ==== Sys2Proof/Machine/Flags.lean ====
section
/-! DEFINITION. The flags (10_state.md R61), those that are derived (BUSY, ERR, TREE_VALID, IRQ), and the register words
the host reads them in. -/

namespace Sys2Proof.Machine

/-- The 4-bit code of a result (60_exceptions.md R260). -/
def ErrCode.bits : ErrCode → BitVec 4
  | .ok => 0#4
  | .illegalCmd => 1#4
  | .lenRange => 2#4
  | .noTree => 3#4
  | .alphabet => 4#4
  | .shapeUnderrun => 5#4
  | .leavesUnderrun => 6#4
  | .trailingData => 7#4
  | .unmappedSymbol => 8#4
  | .bitsOverflow => 9#4
  | .leafRootDecode => 10#4
  | .outOverflow => 11#4
  | .partialCode => 12#4

/-- STATUS.BUSY: a command is in flight exactly when BUSY = 1 (R60). -/
def State.busy (s : State) : Bool := s.pending.isSome

/-- STATUS.ERR = (ERRCODE != 0), at every moment (R37). -/
def State.err (s : State) : Bool := s.errCode.bits != 0#4

/-- STATUS.TREE_VALID: the tree slot holds a tree (R35, R46). -/
def State.treeValid (s : State) : Bool := s.tree.isSome

/-- The interrupt output, a level: DONE AND DONE_IE at all times (R63, 60_exceptions.md R273). -/
def State.irq (s : State) : Bool := s.done && s.doneIe

/-- The processor's interrupt inputs as the platform wires them (R273): IRQ drives the line HTB_IRQ_LINE. Log entry 13. -/
def State.irqOnLine (s : State) (line : Nat) : Bool := decide (line = Config.HTB_IRQ_LINE) && s.irq

/-- NODE_COUNT (R44): how many arena entries the tree occupies. -/
def TreeSlot.nodeCount (t : TreeSlot) : Nat := t.nodes.length

/-- The ID register (R33). -/
def idWord : Word := Config.ID_VALUE

/-- The STATUS register (R35): [0] BUSY, [1] DONE, [2] ERR, [3] TREE_VALID, [11:8] ERRCODE, the rest 0. -/
def State.statusWord (s : State) : Word :=
  0#20 ++ s.errCode.bits ++ 0#4 ++ BitVec.ofBool s.treeValid ++ BitVec.ofBool s.err ++ BitVec.ofBool s.done
    ++ BitVec.ofBool s.busy

/-- The IRQ_EN register (R38): [0] DONE_IE. -/
def State.irqEnWord (s : State) : Word := 0#31 ++ BitVec.ofBool s.doneIe

/-- A register whose only field is a 16-bit one at [15:0] (R39 to R43, R49). -/
def halfWord (v : Half) : Word := 0#16 ++ v

/-- The TREE_INFO register (R44): [8:0] ROOT, [25:16] NODE_COUNT, and 0 when there is no tree. -/
def State.treeInfoWord (s : State) : Word :=
  match s.tree with
  | none => 0#32
  | some t => 0#6 ++ BitVec.ofNat 10 t.nodeCount ++ 0#7 ++ t.root

end Sys2Proof.Machine
end

