-- ==== Sys2Proof/Machine/Ops.lean ====
section
/-! DEFINITION. The named operations over buffers, the tree slot and the completion fields. Taking an error is one shared
operation, `State.complete`: the HTB has no trap, an error ends the command (60_exceptions.md R267, R271), and nothing is
saved or restored (R272). -/

namespace Sys2Proof.Machine

/-! ### Element buffers -/

/-- Read an element: none where it is unwritten (UNSPEC, 00_scope.md R17). -/
def Buf.get {α : Type} : Buf α → Nat → Option α
  | [], _ => none
  | (j, x) :: b, i => if i = j then some x else Buf.get b i

/-- Write one element, keeping the indices rising. -/
def Buf.set {α : Type} : Buf α → Nat → α → Buf α
  | [], i, x => [(i, x)]
  | (j, y) :: b, i, x =>
    if i < j then (i, x) :: (j, y) :: b
    else if i = j then (i, x) :: b
    else (j, y) :: Buf.set b i x

/-- Write the elements `xs` at `i`, `i + 1`, …; an index at or beyond the capacity is not storage (20_memory.md R86). -/
def Buf.setMany {α : Type} (cap : Nat) : Buf α → Nat → List α → Buf α
  | b, _, [] => b
  | b, i, x :: xs => Buf.setMany cap (if i < cap then Buf.set b i x else b) (i + 1) xs

/-- The buffer whose written elements are exactly `xs`, from index `i` on. -/
def Buf.ofList {α : Type} (i : Nat) : List α → Buf α
  | [] => []
  | x :: xs => (i, x) :: Buf.ofList (i + 1) xs

/-- What a command does to its output buffer: elements 0 .. |xs| - 1 become `xs`, elements at and beyond |xs| keep their
contents (D29; 41_tree_codec.md R182, 70_reset_and_hazards.md R301). -/
def Buf.overwrite {α : Type} (b : Buf α) (xs : List α) : Buf α :=
  Buf.ofList 0 xs ++ b.filter (fun c => decide (xs.length ≤ c.1))

/-- The canonical form: indices strictly rising from at least `lo`, all below the capacity. Every value may be listed,
since an unlisted element reads as no fixed value. -/
def Buf.wfFrom {α : Type} (cap : Nat) : Nat → Buf α → Bool
  | _, [] => true
  | lo, (j, _) :: b => decide (lo ≤ j) && decide (j < cap) && Buf.wfFrom cap (j + 1) b

/-- The canonical form of a buffer of capacity `cap`. -/
def Buf.wf {α : Type} (cap : Nat) (b : Buf α) : Bool := Buf.wfFrom cap 0 b

/-- The canonical form of all buffers, each within its capacity (10_state.md R51 to R56). -/
def Memory.wf (m : Memory) : Bool :=
  Buf.wf Config.TEXT_MAX m.text && Buf.wf Config.OUT_MAX m.out && Buf.wf Config.SHAPE_MAX m.shape
    && Buf.wf Config.LEAVES_MAX m.leaves && Buf.wf Config.BITS_MAX m.bits && Buf.wf Config.NSYM m.freq

/-! ### The tree slot -/

/-- `release()` (10_state.md R48): TREE_VALID <- 0. The contents of the slot become unobservable and UNSPEC, so nothing
of them is kept (log entry 2). -/
def State.release (s : State) : State := { s with tree := none }

/-! ### Acceptance and completion (60_exceptions.md R267) -/

/-- Acceptance of the word `w`, in a single step: PENDING, LAST_CMD <- w, BUSY <- 1, DONE <- 0, ERRCODE <- 0 (R267). -/
def State.accept (s : State) (w : Word) : State :=
  { s with pending := some w, lastCmd := w, done := false, errCode := .ok }

/-- Completion, in a single step: ERRCODE <- the result code, ERR_POS <- the position, BUSY <- 0, DONE <- 1 (R267,
R271). A success is the code OK at position 0 (R260, R261). The draw event of the command ends with it (log entry 3). -/
def State.complete (s : State) (code : ErrCode) (pos : Nat) : State :=
  { s with pending := none, done := true, errCode := code, errPos := BitVec.ofNat 16 pos, draws := s.draws + 1 }

/-! ### How a command runs -/

/-- How an operation phase ends early: `raise Error(CODE, pos)` (00_scope.md R16), or the held tree breaks R47 (log
entry 9). -/
inductive Stop where
  | raised (code : ErrCode) (pos : Nat)
  | brokenTree
deriving DecidableEq, Repr

/-- The end of an operation phase or of a stage: the state it leaves, and why it stopped early, if it did. -/
structure OpEnd where
  state : State
  stop : Option Stop

/-- The next stage, skipped when the earlier one stopped (43_top_level.md R240, R244). -/
def OpEnd.andThen (e : OpEnd) (next : State → OpEnd) : OpEnd :=
  match e.stop with
  | none => next e.state
  | some _ => e

/-- The release that ends COMPRESS and DECOMPRESS, on success and on a stage error alike (43_top_level.md R242). -/
def OpEnd.thenRelease (e : OpEnd) : OpEnd := { e with state := e.state.release }

/-- Completion of a command whose operation phase ended (60_exceptions.md R267). -/
def OpEnd.finish (e : OpEnd) : Host.Outcome State Fault Refusal :=
  match e.stop with
  | none => .next (e.state.complete .ok 0)
  | some (.raised code pos) => .next (e.state.complete code pos)
  | some .brokenTree => .fault .treeSlotBroken

/-- A pre-check: the code and position it fails with, none when it passes. -/
abbrev Check := Option (ErrCode × Nat)

/-- LEN_RANGE (60_exceptions.md R266): a length register above its buffer's capacity, reported by the register's byte
offset (R261). -/
def lenCheck (len : Half) (cap offset : Nat) : Check :=
  if len.toNat ≤ cap then none else some (.lenRange, offset)

/-- NO_TREE (R266): TREE_VALID = 0, reported at position 0 (R261). -/
def treeCheck (s : State) : Check := if s.treeValid then none else some (.noTree, 0)

/-- Checks in order, the first that fails is reported (R264). -/
def firstFailure : List Check → Check
  | [] => none
  | none :: cs => firstFailure cs
  | some e :: _ => some e

/-- A command: the pre-checks against the state at acceptance, changing nothing but the completion fields when one fails
(R266, R268), then the operation phase. -/
def runCommand (checks : List Check) (op : State → OpEnd) (s : State) : Host.Outcome State Fault Refusal :=
  match firstFailure checks with
  | some (code, pos) => .next (s.complete code pos)
  | none => (op s).finish

/-! ### Reset -/

/-- Reset asserted (70_reset_and_hazards.md R290 to R293): every register and buffer as after reset, the command in
flight abandoned; the transactions the host presents stay unanswered. Log entry 8. -/
def State.assertReset (s : State) : State :=
  { State.reset with rst := true, requests := s.requests, turns := s.turns, draws := s.draws }

/-- Reset released (R290): the engine is idle and the registers hold their reset values. -/
def State.releaseReset (s : State) : State := { s with rst := false }

end Sys2Proof.Machine
end

