-- ==== Sys2Proof/Machine/Operands.lean ====
section
/-! DEFINITION. The implicit operands of the commands (30_encoding.md R125): the input sequences they read from the buffers
below the length registers (R126: lengths are taken whole, unsigned). An unwritten element below its length is UNSPEC, and
the command computes with a draw (70_reset_and_hazards.md R292, R295): the value of `Config.free` for the current draw
event and the element. A command has one draw event, so an element it reads twice has one value (log entry 4), and the
element stays unwritten (log entry 5). -/

namespace Sys2Proof.Machine

/-- A free symbol. -/
def freeSymbol (site : Config.DrawSite) (event element : Nat) : Symbol := (Config.free site event element).setWidth 8

/-- A free bit. -/
def freeBit (site : Config.DrawSite) (event element : Nat) : Bool := (Config.free site event element).getLsbD 0

/-- A free count. -/
def freeCount (site : Config.DrawSite) (event element : Nat) : Half := (Config.free site event element).setWidth 16

/-- The value an element read gives: what was written, else a draw (00_scope.md R17). -/
def Buf.read {α : Type} (b : Buf α) (draw : Nat → α) (i : Nat) : α := (Buf.get b i).getD (draw i)

/-- Elements i, i + 1, …, i + n - 1. -/
def Buf.readMany {α : Type} (b : Buf α) (draw : Nat → α) : Nat → Nat → List α
  | _, 0 => []
  | i, n + 1 => Buf.read b draw i :: Buf.readMany b draw (i + 1) n

/-- TEXT[0 .. TEXT_LEN - 1] (10_state.md R51). -/
def State.textSeq (s : State) : List Symbol :=
  Buf.readMany s.mem.text (freeSymbol .text s.draws) 0 s.textLen.toNat

/-- SHAPE[0 .. SHAPE_LEN - 1] (R53). -/
def State.shapeSeq (s : State) : List Bool :=
  Buf.readMany s.mem.shape (freeBit .shape s.draws) 0 s.shapeLen.toNat

/-- LEAVES[0 .. LEAVES_LEN - 1] (R54). -/
def State.leavesSeq (s : State) : List Symbol :=
  Buf.readMany s.mem.leaves (freeSymbol .leaves s.draws) 0 s.leavesLen.toNat

/-- BITS[0 .. BITS_LEN - 1] (R55). -/
def State.bitsSeq (s : State) : List Bool :=
  Buf.readMany s.mem.bits (freeBit .bits s.draws) 0 s.bitsLen.toNat

/-- The operand checks of 60_exceptions.md R266, each with the byte offset of its register (R261). -/
def State.checkTextLen (s : State) : Check := lenCheck s.textLen Config.TEXT_MAX 0x0010
def State.checkShapeLen (s : State) : Check := lenCheck s.shapeLen Config.SHAPE_MAX 0x0014
def State.checkLeavesLen (s : State) : Check := lenCheck s.leavesLen Config.LEAVES_MAX 0x0018
def State.checkBitsLen (s : State) : Check := lenCheck s.bitsLen Config.BITS_MAX 0x001C

end Sys2Proof.Machine
end

