-- ==== Sys2Proof/Machine/Tree.lean ====
section
/-! DEFINITION. Abstract trees (00_scope.md R19, R20) and the tree an arena denotes (10_state.md R46, R47). The recursions
over an arena carry fuel, since a slot that breaks R47 could lead back to itself; NODE_MAX is enough for every tree
(00_scope.md R11: depth at most 255; log entry 11). -/

namespace Sys2Proof.Machine

/-- An abstract tree (R19): every internal node has exactly two children. -/
inductive Tree where
  | leaf (sym : Symbol)
  | node (zero one : Tree)
deriving DecidableEq, Repr

/-- `TreeEq` (R20): same shape, same leaf symbols in the same positions. -/
def TreeEq : Tree → Tree → Bool
  | .leaf a, .leaf b => decide (a = b)
  | .node z1 o1, .node z2 o2 => TreeEq z1 z2 && TreeEq o1 o2
  | .leaf _, .node _ _ => false
  | .node _ _, .leaf _ => false

/-- The abstract tree of arena entry `i` (10_state.md R46), none where the entries do not form one. -/
def treeAt (nodes : List Node) : Nat → Nat → Option Tree
  | 0, _ => none
  | fuel + 1, i =>
    match nodes[i]? with
    | none => none
    | some nd =>
      if nd.leaf then some (.leaf nd.sym)
      else
        match treeAt nodes fuel nd.zero.toNat with
        | none => none
        | some z =>
          match treeAt nodes fuel nd.one.toNat with
          | none => none
          | some o => some (.node z o)

/-- The tree the slot holds, `Tree(ROOT)` (R46). -/
def TreeSlot.abstract (t : TreeSlot) : Option Tree := treeAt t.nodes Config.NODE_MAX t.root.toNat

/-- The tree the HTB holds; none when TREE_VALID = 0 (R46), the "nullTree" of R20. -/
def State.heldTree (s : State) : Option Tree :=
  match s.tree with
  | none => none
  | some t => t.abstract

/-- The arena indices the tree of entry `i` occupies, in pre-order. -/
def visitAt (nodes : List Node) : Nat → Nat → Option (List Nat)
  | 0, _ => none
  | fuel + 1, i =>
    match nodes[i]? with
    | none => none
    | some nd =>
      if nd.leaf then some [i]
      else
        match visitAt nodes fuel nd.zero.toNat with
        | none => none
        | some vz =>
          match visitAt nodes fuel nd.one.toNat with
          | none => none
          | some vo => some (i :: (vz ++ vo))

/-- The tree-slot invariant (R47): at most NODE_MAX entries, and from ROOT every index 0 .. NODE_COUNT - 1 is reached
exactly once and no other index is. The bounds on NODE_COUNT from below, on ROOT and on the children, and ZERO ≠ ONE,
follow. -/
def TreeSlot.wf (t : TreeSlot) : Bool :=
  match visitAt t.nodes Config.NODE_MAX t.root.toNat with
  | none => false
  | some v =>
    decide (t.nodeCount ≤ Config.NODE_MAX) && decide (v.length = t.nodeCount)
      && (List.range t.nodeCount).all (fun i => v.count i == 1)

/-! ### What the rules say of abstract trees

The sequences and codes of a tree, by recursion on the tree: the terms in which statements about the commands are made. No
command calls them; the commands walk the arena. -/

/-- The shape sequence of a tree (10_state.md R53; 41_tree_codec.md R181). -/
def Tree.shape : Tree → List Bool
  | .leaf _ => [false]
  | .node z o => true :: (z.shape ++ o.shape)

/-- The leaf sequence of a tree (10_state.md R54; 41_tree_codec.md R181). -/
def Tree.leaves : Tree → List Symbol
  | .leaf s => [s]
  | .node z o => z.leaves ++ o.leaves

/-- The depth of a tree, 0 for a leaf (00_scope.md R11). -/
def Tree.depth : Tree → Nat
  | .leaf _ => 0
  | .node z o => max z.depth o.depth + 1

/-- The code of a symbol (42_message_codec.md R211 to R213): the path of the last leaf, in pre-order, that holds it. -/
def Tree.code : Tree → Symbol → Option (List Bool)
  | .leaf a, s => if a = s then some [] else none
  | .node z o, s =>
    match o.code s with
    | some p => some (true :: p)
    | none => (z.code s).map (fun p => false :: p)

/-- The subtree a bit sequence leads to from the root (R218), none where it runs past a leaf. -/
def Tree.sub : Tree → List Bool → Option Tree
  | t, [] => some t
  | .leaf _, _ :: _ => none
  | .node z o, b :: bs => if b then o.sub bs else z.sub bs

/-- The root is internal. -/
def Tree.isNode : Tree → Bool
  | .leaf _ => false
  | .node _ _ => true

end Sys2Proof.Machine
end

