-- ==== Sys2Proof/Machine/TreeBuilder.lean ====
section
/-! DEFINITION. The Tree Builder: BUILD (40_tree_builder.md). Weights, sequence numbers and indices are exact numbers inside
the command and are narrowed where they are stored; none of them can wrap (R158; log entry 11). -/

namespace Sys2Proof.Machine

/-- FREQ[s] after `count_frequencies` (R151): the number of indices of the text that hold s. -/
def frequency (text : List Symbol) (s : Symbol) : Half := BitVec.ofNat 16 (text.count s)

/-- The symbols in ascending order. -/
def allSymbols : List Symbol := (List.range Config.NSYM).map (BitVec.ofNat 8)

/-- `syms` (R150): the symbols present, ascending. -/
def presentSymbols (text : List Symbol) : List Symbol :=
  allSymbols.filter (fun s => decide (0#16 < frequency text s))

/-- An entry of the priority queue (10_state.md R57). -/
structure PQEntry where
  weight : Nat
  seq : Nat
  node : Nat
deriving DecidableEq, Repr

/-- The priority order (R155): the lower weight first, among equal weights the larger sequence number. -/
def PQEntry.precedes (e f : PQEntry) : Bool :=
  decide (e.weight < f.weight) || (decide (e.weight = f.weight) && decide (f.seq < e.seq))

/-- `PQ.insert`: the queue is held in priority order, so `PQ.popmin` takes its head. -/
def pqInsert (e : PQEntry) : List PQEntry → List PQEntry
  | [] => [e]
  | f :: q => if e.precedes f then e :: f :: q else f :: pqInsert e q

/-- The leaf of a symbol (R153). -/
def leafNode (text : List Symbol) (s : Symbol) : Node :=
  { leaf := true, sym := s, zero := 0#9, one := 0#9, weight := frequency text s }

/-- The leaves enter the queue in ascending symbol order, the one at index k with seq = L - 1 - k (R154). -/
def enqueueLeaves (text : List Symbol) (total : Nat) : Nat → List Symbol → List PQEntry → List PQEntry
  | _, [], q => q
  | k, s :: ss, q =>
    enqueueLeaves text total (k + 1) ss
      (pqInsert { weight := (frequency text s).toNat, seq := total - 1 - k, node := k } q)

/-- The internal node a merge creates (R156): the first dequeued is the zero-child, the second the one-child. -/
def mergeNode (a b : PQEntry) : Node :=
  { leaf := false, sym := 0#8, zero := BitVec.ofNat 9 a.node, one := BitVec.ofNat 9 b.node
    weight := BitVec.ofNat 16 (a.weight + b.weight) }

/-- The merge loop (R155 to R157), until one entry remains: at most as many merges as `fuel`, which is the number of
entries at the start. A merged node takes the next arena index, which is also its sequence number (R153, R154). -/
def mergeLoop : Nat → List Node → List PQEntry → List Node × List PQEntry
  | fuel + 1, nodes, a :: b :: q =>
    mergeLoop fuel (nodes ++ [mergeNode a b])
      (pqInsert { weight := a.weight + b.weight, seq := nodes.length, node := nodes.length } q)
  | _, nodes, q => (nodes, q)

/-- The tree slot BUILD makes (R150): leaves, merges, and the one remaining entry's node as ROOT. -/
def huffmanSlot (text : List Symbol) : TreeSlot :=
  let syms := presentSymbols text
  let merged :=
    mergeLoop syms.length (syms.map (leafNode text)) (enqueueLeaves text syms.length 0 syms [])
  { root := BitVec.ofNat 9 ((merged.2.map PQEntry.node).headD 0), nodes := merged.1 }

/-- The operation phase of BUILD (R150): release, count, the alphabet check (R152), build, commit (R159). -/
def buildOp (s : State) : OpEnd :=
  let text := s.textSeq
  let counted :=
    { s.release with mem := { s.mem with freq := Buf.ofList 0 (allSymbols.map (frequency text)) } }
  if (presentSymbols text).length < 2 then
    { state := counted, stop := some (.raised .alphabet (presentSymbols text).length) }
  else { state := { counted with tree := some (huffmanSlot text) }, stop := none }

/-- BUILD (R150). STRICT has no effect (30_encoding.md R124). -/
def execBuild (_strict : Bool) (s : State) : Host.Outcome State Fault Refusal :=
  runCommand [s.checkTextLen] buildOp s

end Sys2Proof.Machine
end

