-- ==== Sys2Proof/Machine/TreeCodec.lean ====
section
/-! DEFINITION. The Tree Codec: FLATTEN and UNFLATTEN (41_tree_codec.md). -/

namespace Sys2Proof.Machine

/-- `flat(i)` (R181): the shape bits and the leaf symbols of entry `i` in pre-order, none where the slot breaks R47. -/
def flatAt (nodes : List Node) : Nat → Nat → Option (List Bool × List Symbol)
  | 0, _ => none
  | fuel + 1, i =>
    match nodes[i]? with
    | none => none
    | some nd =>
      if nd.leaf then some ([false], [nd.sym])
      else
        match flatAt nodes fuel nd.zero.toNat with
        | none => none
        | some (s0, l0) =>
          match flatAt nodes fuel nd.one.toNat with
          | none => none
          | some (s1, l1) => some (true :: (s0 ++ s1), l0 ++ l1)

/-- `flat(ROOT)`. -/
def TreeSlot.flat (t : TreeSlot) : Option (List Bool × List Symbol) :=
  flatAt t.nodes Config.NODE_MAX t.root.toNat

/-- The operation phase of FLATTEN (R180, R182): the tree slot is read and not changed (R183). -/
def flattenOp (s : State) : OpEnd :=
  match s.tree with
  | none => { state := s, stop := some .brokenTree }
  | some t =>
    match t.flat with
    | none => { state := s, stop := some .brokenTree }
    | some (shape, leaves) =>
      { state :=
          { s with
            mem := { s.mem with shape := Buf.overwrite s.mem.shape shape, leaves := Buf.overwrite s.mem.leaves leaves }
            shapeLen := BitVec.ofNat 16 shape.length
            leavesLen := BitVec.ofNat 16 leaves.length }
        stop := none }

/-- FLATTEN (R180). STRICT has no effect (30_encoding.md R124). -/
def execFlatten (_strict : Bool) (s : State) : Host.Outcome State Fault Refusal :=
  runCommand [treeCheck s] flattenOp s

/-- The shared cursor of `build()` (R185): `sp` shape bits and `lp` leaf symbols are consumed, `shape` and `leaves` are
what is left of the two sequences, `n` is the next free arena index. -/
structure Cursor where
  sp : Nat
  lp : Nat
  n : Nat
  shape : List Bool
  leaves : List Symbol
deriving DecidableEq, Repr

/-- What one call of `build()` answers (R185): the index it returns, the entries it allocated in index order (a call
allocates consecutive indices from the cursor's `n`), and the cursor it leaves. -/
structure Built where
  index : Nat
  nodes : List Node
  rest : Cursor
deriving DecidableEq, Repr

/-- The node of a consumed shape bit 0 (R185, R190: weight 0). -/
def codecLeaf (s : Symbol) : Node := { leaf := true, sym := s, zero := 0#9, one := 0#9, weight := 0#16 }

/-- The node of a consumed shape bit 1 (R185, R190: weight 0). -/
def codecNode (z o : Nat) : Node :=
  { leaf := false, sym := 0#8, zero := BitVec.ofNat 9 z, one := BitVec.ofNat 9 o, weight := 0#16 }

/-- `build()` (R185): shape underrun (R187), pre-order allocation (R190), leaf underrun (R188). Each call consumes a shape
bit before it calls itself, so fuel above the number of shape bits never runs out. -/
def buildAt : Nat → Cursor → Except Stop Built
  | 0, c => .error (.raised .shapeUnderrun c.sp)
  | fuel + 1, c =>
    match c.shape with
    | [] => .error (.raised .shapeUnderrun c.sp)
    | false :: shape =>
      match c.leaves with
      | [] => .error (.raised .leavesUnderrun c.lp)
      | sym :: leaves =>
        .ok { index := c.n, nodes := [codecLeaf sym]
              rest := { sp := c.sp + 1, lp := c.lp + 1, n := c.n + 1, shape := shape, leaves := leaves } }
    | true :: shape =>
      match buildAt fuel { c with sp := c.sp + 1, n := c.n + 1, shape := shape } with
      | .error e => .error e
      | .ok z =>
        match buildAt fuel z.rest with
        | .error e => .error e
        | .ok o => .ok { index := c.n, nodes := codecNode z.index o.index :: (z.nodes ++ o.nodes), rest := o.rest }

/-- The whole build of UNFLATTEN (R185), from cursors at 0, with the trailing-data check of the strict mode (R189). -/
def unflattenSeqs (strict : Bool) (shape : List Bool) (leaves : List Symbol) : Except Stop TreeSlot :=
  match buildAt (shape.length + 1) { sp := 0, lp := 0, n := 0, shape := shape, leaves := leaves } with
  | .error e => .error e
  | .ok r =>
    if strict && !(r.rest.shape.isEmpty && r.rest.leaves.isEmpty) then .error (.raised .trailingData r.rest.sp)
    else .ok { root := BitVec.ofNat 9 r.index, nodes := r.nodes }

/-- The operation phase of UNFLATTEN (R185): release first, the slot stays released on an error (60_exceptions.md
R270). -/
def unflattenOp (strict : Bool) (s : State) : OpEnd :=
  match unflattenSeqs strict s.shapeSeq s.leavesSeq with
  | .error e => { state := s.release, stop := some e }
  | .ok t => { state := { s.release with tree := some t }, stop := none }

/-- UNFLATTEN (R185). -/
def execUnflatten (strict : Bool) (s : State) : Host.Outcome State Fault Refusal :=
  runCommand [s.checkShapeLen, s.checkLeavesLen] (unflattenOp strict) s

end Sys2Proof.Machine
end

