-- ==== Sys2Proof/Machine/MessageCodec.lean ====
section
/-! DEFINITION. The Message Codec: ENCODE and DECODE (42_message_codec.md). -/

namespace Sys2Proof.Machine

/-- `visit(i, p)` of `build_code_map` (R211): the leaves of entry `i` in pre-order, each with its path from the root (R212:
first the branch at the root), none where the slot breaks 10_state.md R47. -/
def pathsAt (nodes : List Node) : Nat → Nat → List Bool → Option (List (Symbol × List Bool))
  | 0, _, _ => none
  | fuel + 1, i, p =>
    match nodes[i]? with
    | none => none
    | some nd =>
      if nd.leaf then some [(nd.sym, p)]
      else
        match pathsAt nodes fuel nd.zero.toNat (p ++ [false]) with
        | none => none
        | some c0 =>
          match pathsAt nodes fuel nd.one.toNat (p ++ [true]) with
          | none => none
          | some c1 => some (c0 ++ c1)

/-- The visits of `build_code_map(ROOT)`, in order. -/
def TreeSlot.paths (t : TreeSlot) : Option (List (Symbol × List Bool)) :=
  pathsAt t.nodes Config.NODE_MAX t.root.toNat []

/-- CODE[s] (R211, R213): each visit overwrites the entry, so the last visit of a leaf holding s decides; none where
VALID = 0. -/
def codeOf (visits : List (Symbol × List Bool)) (s : Symbol) : Option (List Bool) :=
  (visits.reverse.find? (fun v => decide (v.1 = s))).map Prod.snd

/-- The loop of ENCODE (R210) from text index `i` with `n` bits emitted: the bits it emits, or the first error (R214,
R215, in this order). The bit count is exact. -/
def encodeFrom (code : Symbol → Option (List Bool)) : List Symbol → Nat → Nat → Except Stop (List Bool)
  | [], _, _ => .ok []
  | s :: text, i, n =>
    match code s with
    | none => .error (.raised .unmappedSymbol i)
    | some path =>
      if Config.BITS_MAX < n + path.length then .error (.raised .bitsOverflow i)
      else
        match encodeFrom code text (i + 1) (n + path.length) with
        | .error e => .error e
        | .ok bits => .ok (path ++ bits)

/-- The operation phase of ENCODE (R210). An error makes every element of BITS UNSPEC and keeps BITS_LEN (60_exceptions.md
R269); the tree slot is unchanged (R270). -/
def encodeOp (s : State) : OpEnd :=
  match s.tree with
  | none => { state := s, stop := some .brokenTree }
  | some t =>
    match t.paths with
    | none => { state := s, stop := some .brokenTree }
    | some visits =>
      match encodeFrom (codeOf visits) s.textSeq 0 0 with
      | .error e => { state := { s with mem := { s.mem with bits := [] } }, stop := some e }
      | .ok bits =>
        { state :=
            { s with
              mem := { s.mem with bits := Buf.overwrite s.mem.bits bits }
              bitsLen := BitVec.ofNat 16 bits.length }
          stop := none }

/-- ENCODE (R210). STRICT has no effect (30_encoding.md R124). -/
def execEncode (_strict : Bool) (s : State) : Host.Outcome State Fault Refusal :=
  runCommand [s.checkTextLen, treeCheck s] encodeOp s

/-- The child of a node a bit leads to (R218, R219). -/
def Node.child (nd : Node) (bit : Bool) : Nat := if bit then nd.one.toNat else nd.zero.toNat

/-- The loop of DECODE (R218) at bit index `i`, at node `cur`, with `m` symbols emitted and the current code begun at bit
`start`: the symbols it emits, or the first error (R221, R223, R222). -/
def decodeFrom (nodes : List Node) (root : Nat) (strict : Bool) :
    List Bool → (i cur m start : Nat) → Except Stop (List Symbol)
  | [], _, cur, _, start =>
    if strict && !(cur == root) then .error (.raised .partialCode start) else .ok []
  | bit :: bits, i, cur, m, start =>
    match nodes[cur]? with
    | none => .error .brokenTree
    | some nd =>
      if nd.leaf then .error (.raised .leafRootDecode i)
      else
        match nodes[nd.child bit]? with
        | none => .error .brokenTree
        | some nx =>
          if nx.leaf then
            if Config.OUT_MAX ≤ m then .error (.raised .outOverflow i)
            else
              match decodeFrom nodes root strict bits (i + 1) root (m + 1) (i + 1) with
              | .error e => .error e
              | .ok out => .ok (nx.sym :: out)
          else decodeFrom nodes root strict bits (i + 1) (nd.child bit) m start

/-- DECODE's walk of a bit sequence, from ROOT. -/
def TreeSlot.decodeBits (t : TreeSlot) (strict : Bool) (bits : List Bool) : Except Stop (List Symbol) :=
  decodeFrom t.nodes t.root.toNat strict bits 0 t.root.toNat 0 0

/-- The operation phase of DECODE (R218). An error makes every element of OUT UNSPEC and keeps OUT_LEN (60_exceptions.md
R269); the tree slot is unchanged (R270). -/
def decodeOp (strict : Bool) (s : State) : OpEnd :=
  match s.tree with
  | none => { state := s, stop := some .brokenTree }
  | some t =>
    match t.decodeBits strict s.bitsSeq with
    | .error e => { state := { s with mem := { s.mem with out := [] } }, stop := some e }
    | .ok out =>
      { state :=
          { s with mem := { s.mem with out := Buf.overwrite s.mem.out out }, outLen := BitVec.ofNat 16 out.length }
        stop := none }

/-- DECODE (R218). -/
def execDecode (strict : Bool) (s : State) : Host.Outcome State Fault Refusal :=
  runCommand [s.checkBitsLen, treeCheck s] (decodeOp strict) s

end Sys2Proof.Machine
end

