-- ==== Sys2Proof/Machine/TopLevel.lean ====
section
/-! DEFINITION. The top-level sequencer: COMPRESS, DECOMPRESS and CLEAR (43_top_level.md). A stage is the operation phase
of another command, without its pre-checks and without a completion of its own. -/

namespace Sys2Proof.Machine

/-- The operation phase of COMPRESS (R240): the stages in order, each committing its outputs (R241), on the tree BUILD_op
made (R249), and the release that ends it in every case (R242). -/
def compressOp (s : State) : OpEnd := (((buildOp s).andThen flattenOp).andThen encodeOp).thenRelease

/-- COMPRESS (R240). STRICT has no effect (30_encoding.md R124). -/
def execCompress (_strict : Bool) (s : State) : Host.Outcome State Fault Refusal :=
  runCommand [s.checkTextLen] compressOp s

/-- The operation phase of DECOMPRESS (R244, R245). -/
def decompressOp (strict : Bool) (s : State) : OpEnd := ((unflattenOp strict s).andThen (decodeOp strict)).thenRelease

/-- DECOMPRESS (R244). -/
def execDecompress (strict : Bool) (s : State) : Host.Outcome State Fault Refusal :=
  runCommand [s.checkShapeLen, s.checkLeavesLen, s.checkBitsLen] (decompressOp strict) s

/-- The operation phase of CLEAR (R248). -/
def clearOp (s : State) : OpEnd := { state := s.release, stop := none }

/-- CLEAR (R248). STRICT has no effect (30_encoding.md R124). -/
def execClear (_strict : Bool) (s : State) : Host.Outcome State Fault Refusal := runCommand [] clearOp s

end Sys2Proof.Machine
end

