-- ==== Sys2Proof/Machine/Dispatch.lean ====
section
/-! DEFINITION. The dispatch: one arm per command. -/

namespace Sys2Proof.Machine

def exec (i : Instr) (s : State) : Host.Outcome State Fault Refusal :=
  match i with
  | .build strict => Sys2Proof.Machine.execBuild strict s
  | .flatten strict => Sys2Proof.Machine.execFlatten strict s
  | .unflatten strict => Sys2Proof.Machine.execUnflatten strict s
  | .encode strict => Sys2Proof.Machine.execEncode strict s
  | .decode strict => Sys2Proof.Machine.execDecode strict s
  | .compress strict => Sys2Proof.Machine.execCompress strict s
  | .decompress strict => Sys2Proof.Machine.execDecompress strict s
  | .clear strict => Sys2Proof.Machine.execClear strict s

end Sys2Proof.Machine
end

