-- ==== Sys2Proof/Machine/HostBus.lean ====
section
/-! DEFINITION. The host port (20_memory.md): reading and writing registers and window words, while idle and while a command
is in flight. -/

namespace Sys2Proof.Machine

/-- A word whose parts are `xs`, the first at the least significant end, each `width` bits wide. -/
def packParts (width : Nat) : List Nat → Nat
  | [] => 0
  | x :: xs => x + 2 ^ width * packParts width xs

/-- The word of four symbols, little-endian (R85). -/
def packSymbols (xs : List Symbol) : Word := BitVec.ofNat 32 (packParts 8 (xs.map BitVec.toNat))

/-- The word of 32 bits, least significant first (R86). -/
def packBits (xs : List Bool) : Word := BitVec.ofNat 32 (packParts 1 (xs.map Bool.toNat))

/-- The four symbols of a word (R85). -/
def wordSymbols (v : Word) : List Symbol :=
  [v.extractLsb' 0 8, v.extractLsb' 8 8, v.extractLsb' 16 8, v.extractLsb' 24 8]

/-- The 32 bits of a word (R86). -/
def wordBits (v : Word) : List Bool := (List.range 32).map (fun j => v.getLsbD j)

/-- A bit window's element: an index at or beyond the capacity is not storage and reads 0 (R86). -/
def readBitElement (cap : Nat) (b : Buf Bool) (draw : Nat → Bool) (i : Nat) : Bool :=
  decide (i < cap) && Buf.read b draw i

/-- Word `k` of a symbol window: elements 4k .. 4k + 3 (R85). Unwritten elements read as draws (R90). -/
def symbolWindowWord (b : Buf Symbol) (draw : Nat → Symbol) (k : Nat) : Word :=
  packSymbols (Buf.readMany b draw (4 * k) 4)

/-- Word `k` of a bit window: elements 32k .. 32k + 31 (R86). Unwritten elements read as draws (R90). -/
def bitWindowWord (cap : Nat) (b : Buf Bool) (draw : Nat → Bool) (k : Nat) : Word :=
  packBits ((List.range 32).map (fun j => readBitElement cap b draw (32 * k + j)))

/-- Word A of an arena entry (R88): [8:0] ZERO, [17:9] ONE, [25:18] SYM, [30] LEAF, [31] = 1; ZERO and ONE read 0 for a
leaf, SYM reads 0 for an internal node. -/
def Node.wordA (nd : Node) : Word :=
  1#1 ++ BitVec.ofBool nd.leaf ++ 0#4 ++ (if nd.leaf then nd.sym else 0#8) ++ (if nd.leaf then 0#9 else nd.one)
    ++ (if nd.leaf then 0#9 else nd.zero)

/-- Word B of an arena entry (R88): WEIGHT. -/
def Node.wordB (nd : Node) : Word := halfWord nd.weight

/-- A word of the NODE window (R88): 0 when there is no tree or the entry is at or beyond NODE_COUNT. -/
def State.nodeWindowWord (s : State) (word : Node → Word) (i : Nat) : Word :=
  match s.tree with
  | none => 0#32
  | some t =>
    match t.nodes[i]? with
    | none => 0#32
    | some nd => word nd

/-- What a register reads (R89, 10_state.md R33 to R50). -/
def State.readReg (s : State) (r : Reg) : Word :=
  match r with
  | .id => idWord
  | .cmd => 0#32
  | .status => s.statusWord
  | .irqEn => s.irqEnWord
  | .textLen => halfWord s.textLen
  | .shapeLen => halfWord s.shapeLen
  | .leavesLen => halfWord s.leavesLen
  | .bitsLen => halfWord s.bitsLen
  | .outLen => halfWord s.outLen
  | .treeInfo => s.treeInfoWord
  | .errPos => halfWord s.errPos
  | .lastCmd => s.lastCmd

/-- What a mapped word reads while BUSY = 0 (R85 to R90). -/
def State.readIdle (s : State) (g : Region) : Word :=
  match g with
  | .reg r => s.readReg r
  | .text k => symbolWindowWord s.mem.text (freeSymbol .text s.draws) k
  | .out k => symbolWindowWord s.mem.out (freeSymbol .out s.draws) k
  | .shape k => bitWindowWord Config.SHAPE_MAX s.mem.shape (freeBit .shape s.draws) k
  | .leaves k => symbolWindowWord s.mem.leaves (freeSymbol .leaves s.draws) k
  | .bits k => bitWindowWord Config.BITS_MAX s.mem.bits (freeBit .bits s.draws) k
  | .freq i => halfWord (Buf.read s.mem.freq (freeCount .freq s.draws) i)
  | .nodeA i => s.nodeWindowWord Node.wordA i
  | .nodeB i => s.nodeWindowWord Node.wordB i

/-- What a mapped word reads: while BUSY = 1 a word outside the list of R94 is UNSPEC. -/
def State.readWord (s : State) (g : Region) : Word :=
  if s.busy && !g.readableWhileBusy then Config.free .bus s.draws 0 else s.readIdle g

/-- What a performed write does to a register (R89): reserved bits and read-only registers ignore it, STATUS clears DONE
by a 1 in bit 1 (10_state.md R36), CMD accepts a command (60_exceptions.md R267). -/
def State.writeReg (s : State) (r : Reg) (v : Word) : State :=
  match r with
  | .id => s
  | .cmd => s.accept v
  | .status => if v.getLsbD 1 then { s with done := false } else s
  | .irqEn => { s with doneIe := v.getLsbD 0 }
  | .textLen => { s with textLen := v.extractLsb' 0 16 }
  | .shapeLen => { s with shapeLen := v.extractLsb' 0 16 }
  | .leavesLen => { s with leavesLen := v.extractLsb' 0 16 }
  | .bitsLen => { s with bitsLen := v.extractLsb' 0 16 }
  | .outLen => s
  | .treeInfo => s
  | .errPos => s
  | .lastCmd => s

/-- What a performed write does to a mapped word (R89, R90): a window write sets every element the word holds, the
read-only windows ignore it. -/
def State.writeWord (s : State) (g : Region) (v : Word) : State :=
  match g with
  | .reg r => s.writeReg r v
  | .text k => { s with mem := { s.mem with text := Buf.setMany Config.TEXT_MAX s.mem.text (4 * k) (wordSymbols v) } }
  | .out _ => s
  | .shape k => { s with mem := { s.mem with shape := Buf.setMany Config.SHAPE_MAX s.mem.shape (32 * k) (wordBits v) } }
  | .leaves k =>
    { s with mem := { s.mem with leaves := Buf.setMany Config.LEAVES_MAX s.mem.leaves (4 * k) (wordSymbols v) } }
  | .bits k => { s with mem := { s.mem with bits := Buf.setMany Config.BITS_MAX s.mem.bits (32 * k) (wordBits v) } }
  | .freq _ => s
  | .nodeA _ => s
  | .nodeB _ => s

/-- A read of a mapped word: OKAY, no side effect (R92); it is a draw event (log entry 3). -/
def State.performRead (s : State) (g : Region) : State :=
  { s with response := some (.read (s.readWord g) .okay), draws := s.draws + 1 }

/-- A write of a mapped word: refused with ERROR while BUSY = 1 unless it is to STATUS or IRQ_EN (R93), else performed. -/
def State.performWrite (s : State) (g : Region) (v : Word) : State :=
  if s.busy && !g.writableWhileBusy then { s with response := some (.write .error) }
  else { s.writeWord g v with response := some (.write .okay) }

/-- The ERROR response of a transaction that is unmapped, of the wrong size or misaligned (R82 to R84): read data 0, no
state change. -/
def State.respondError (s : State) (r : BusReq) : State :=
  { s with response := some (if r.write then .write .error else .read 0#32 .error) }

/-- One host transaction, with its response (R95). -/
def State.access (s : State) (r : BusReq) : State :=
  match r.target with
  | .error _ => s.respondError r
  | .ok g => if r.write then s.performWrite g r.wdata else s.performRead g

end Sys2Proof.Machine
end

