-- ==== Sys2Proof/Machine/Agents.lean ====
section
/-! DEFINITION. The moves of the agents (00_scope.md R4): the engine completing the command in flight, the host having one
transaction performed, the reset input. Log entry 6. -/

namespace Sys2Proof.Machine

/-- The engine runs the command in flight to its completion, as one function of the state (20_memory.md R96): an illegal
word completes with ILLEGAL_CMD at position 0 and changes nothing else (30_encoding.md R122, R123). -/
def runPending (w : Word) (s : State) : Host.Outcome State Fault Refusal :=
  match Sys2Proof.decode w with
  | .error _ => .next (s.complete .illegalCmd 0)
  | .ok i => exec i s

/-- The engine's move: nothing while reset is asserted or no command is in flight. -/
def engineTurn (s : State) : Host.Outcome State Fault Refusal :=
  if s.rst then .next s
  else
    match s.pending with
    | none => .next s
    | some w => runPending w s

/-- The host's move: the transaction it presents is performed; while reset is asserted it gets no response and waits
(70_reset_and_hazards.md R290). -/
def hostTurn (s : State) : State :=
  if s.rst then s
  else
    match s.requests with
    | [] => s
    | r :: rest => { s with requests := rest }.access r

/-- One move. -/
def takeTurn (t : Turn) (s : State) : Host.Outcome State Fault Refusal :=
  match t with
  | .host => .next (hostTurn s)
  | .engine => engineTurn s
  | .assertReset => .next s.assertReset
  | .releaseReset => .next s.releaseReset
  | .idle => .next s

/-- Who moves when `turns` says nothing: the engine while a command is in flight, so that a command completes and does so
before the next access (60_exceptions.md R275, 70_reset_and_hazards.md R302), else the host. -/
def defaultTurn (s : State) : Turn := if s.busy then .engine else .host

/-- The next move and the state it is taken in. -/
def nextTurn (s : State) : Turn × State :=
  match s.turns with
  | [] => (defaultTurn s, s)
  | t :: rest => (t, { s with turns := rest })

end Sys2Proof.Machine
end

