-- ==== Sys2Proof/Machine/Step.lean ====
section
/-! DEFINITION. One step of the machine, and where it takes its next command from. -/

namespace Sys2Proof.Machine

/-- One step: the next agent moves. The HTB has no program counter and fetches nothing (10_state.md R31): the command an
engine move runs is the word in PENDING. -/
def step (s : State) : Host.Outcome State Fault Refusal := takeTurn (nextTurn s).1 (nextTurn s).2

/-- `s` with the command word accepted (60_exceptions.md R267) and the engine to move next, reset released. This stands
for the host's write to CMD (log entry 10). -/
def State.withFetchWord (s : State) (nbits w : Nat) : State :=
  { s.accept (BitVec.ofNat 32 (w % 2 ^ nbits)) with rst := false, turns := .engine :: s.turns }

end Sys2Proof.Machine
end

