-- ==== Sys2Proof/Machine/HostSyntax.lean ====
section
/-! DEFINITION. The host assembly syntax (30_encoding.md R130 to R132): what each line of a host program presents on the
host port. It has no effect on the hardware (D34). -/

namespace Sys2Proof.Machine

/-- The windows an operand `NAME+k` can name (R130; 20_memory.md R80). -/
inductive Window where
  | text | out | shape | leaves | bits | freq | node
deriving DecidableEq, Repr

/-- The base offset of a window (20_memory.md R80). -/
def Window.base (w : Window) : Nat :=
  match w with
  | .text => 0x1000
  | .out => 0x2000
  | .shape => 0x3000
  | .leaves => 0x3100
  | .bits => 0x4000
  | .freq => 0x5000
  | .node => 0x6000

/-- An operand (R130): a register name, `NAME+k`, or a raw byte offset. -/
inductive HostOperand where
  | reg (r : Reg)
  | word (w : Window) (k : Nat)
  | raw (off : Nat)
deriving DecidableEq, Repr

/-- The byte offset of an operand (R130). -/
def HostOperand.offset (x : HostOperand) : Nat :=
  match x with
  | .reg r => r.offset
  | .word w k => w.base + 4 * k
  | .raw off => off

/-- A line of a host program (R130, R131). -/
inductive HostOp where
  | wr (x : HostOperand) (v : Word)
  | rd (x : HostOperand)
  | cmd (i : Instr)
  | wait
  | ack
  | ldText (chars : List Symbol)
  | ldLeaves (chars : List Symbol)
  | ldShape (bits : List Bool)
  | ldBits (bits : List Bool)
deriving DecidableEq, Repr

/-- `MemWrite(off, 4, v)` (00_scope.md R15). -/
def memWrite (off : Nat) (v : Word) : BusReq :=
  { write := true, off := BitVec.ofNat 16 off, size := 4, wdata := v }

/-- `MemRead(off, 4)` (00_scope.md R15). -/
def memRead (off : Nat) : BusReq := { write := false, off := BitVec.ofNat 16 off, size := 4, wdata := 0#32 }

/-- The window writes of a symbol sequence from word `k` on, four a word, padded with 0x00 (R131). -/
def loadSymbols (w : Window) : Nat → List Symbol → List BusReq
  | _, [] => []
  | k, a :: b :: c :: d :: xs => memWrite (w.base + 4 * k) (packSymbols [a, b, c, d]) :: loadSymbols w (k + 1) xs
  | k, xs => [memWrite (w.base + 4 * k) (packSymbols xs)]

/-- The window writes of a bit sequence from word `k` on, 32 a word, padded with 0 (R131); `n` is the number of words. -/
def loadBits (w : Window) : (n k : Nat) → List Bool → List BusReq
  | 0, _, _ => []
  | n + 1, k, xs => memWrite (w.base + 4 * k) (packBits (xs.take 32)) :: loadBits w n (k + 1) (xs.drop 32)

/-- The length write that ends a load (R131). -/
def loadLen (r : Reg) (n : Nat) : BusReq := memWrite r.offset (BitVec.ofNat 32 n)

/-- The transactions a line presents (R130, R131). `WAIT` is one poll of STATUS; the host repeats it while bit 0 reads 1
(log entry 14). -/
def HostOp.expand (o : HostOp) : List BusReq :=
  match o with
  | .wr x v => [memWrite x.offset v]
  | .rd x => [memRead x.offset]
  | .cmd i => [memWrite Reg.cmd.offset (Sys2Proof.encode i)]
  | .wait => [memRead Reg.status.offset]
  | .ack => [memWrite Reg.status.offset 0x2#32]
  | .ldText chars => loadSymbols .text 0 chars ++ [loadLen .textLen chars.length]
  | .ldLeaves chars => loadSymbols .leaves 0 chars ++ [loadLen .leavesLen chars.length]
  | .ldShape bits => loadBits .shape ((bits.length + 31) / 32) 0 bits ++ [loadLen .shapeLen bits.length]
  | .ldBits bits => loadBits .bits ((bits.length + 31) / 32) 0 bits ++ [loadLen .bitsLen bits.length]

/-- The transactions of a host program, in order. -/
def expandProgram (p : List HostOp) : List BusReq := p.flatMap HostOp.expand

/-- The spelling of a command in the syntax (R132). -/
def mnemonic (i : Instr) : String :=
  (match i with
    | .build _ => "BUILD"
    | .flatten _ => "FLATTEN"
    | .unflatten _ => "UNFLATTEN"
    | .encode _ => "ENCODE"
    | .decode _ => "DECODE"
    | .compress _ => "COMPRESS"
    | .decompress _ => "DECOMPRESS"
    | .clear _ => "CLEAR") ++ (if i.strict then ".S" else "")

end Sys2Proof.Machine
end

