-- ==== Sys2Proof/Safety.lean ====
section
/-! DEFINITION. What a good state is: the invariants the spec gives the machine, as one decidable predicate. -/

namespace Sys2Proof.Machine

/-- The registers and buffers, without the ports and the model's own fields. -/
def State.core (s : State) : State :=
  { s with rst := false, requests := [], response := none, turns := [], draws := 0 }

/-- While a command is in flight DONE and ERRCODE are 0 and LAST_CMD is the word in PENDING (60_exceptions.md R267,
R271; 10_state.md R50). -/
def State.flightOk (s : State) : Bool :=
  match s.pending with
  | none => true
  | some w => !s.done && decide (s.errCode = .ok) && decide (s.lastCmd = w)

/-- The held tree satisfies 10_state.md R47. -/
def State.slotOk (s : State) : Bool :=
  match s.tree with
  | none => true
  | some t => t.wf

/-- While reset is asserted every register and buffer is as after reset (70_reset_and_hazards.md R290). -/
def State.resetOk (s : State) : Bool := !s.rst || decide (s.core = State.reset)

/-- The invariant: buffers in canonical form within their capacities, the tree-slot invariant R47, OUT_LEN within
OUT_MAX (only DECODE and DECOMPRESS write it, R43, R223), the flags of a command in flight, and the reset values while
reset is asserted. -/
def State.inv (s : State) : Bool :=
  s.mem.wf && s.slotOk && decide (s.outLen.toNat ≤ Config.OUT_MAX) && s.flightOk && s.resetOk

/-- The invariant as a proposition. -/
abbrev State.Inv (s : State) : Prop := s.inv = true

/-- A step goes on: it ends in no fault and no refusal. -/
def goesOn (s : State) : Prop := ∃ t, step s = .next t

end Sys2Proof.Machine
end

