-- ==== Sys2Proof/Certificates/Slice0/Obligations.lean ====
section
/-! DEFINITION. The statements about the HTB, from the numbered rules of spec/. Each docstring names the rule it formalises.

How they are written. An outcome is stated as an equation `… = .next t`, and `t = { s with f := t.f, … }` is the frame: every
field that is not listed is as in `s`. `draws`, the model's own counter (log entry 3), is left free in every frame. -/

open Sys2Proof Sys2Proof.Machine

namespace Sys2Proof.Machine

/-! ### Terms of the statements -/

/-- The next move performs the transaction `r` that the host presents: reset is released and it is the host's turn. -/
def HostNext (s : State) (r : BusReq) : Prop :=
  s.rst = false ∧ s.requests.head? = some r ∧ (nextTurn s).1 = .host

/-- `s` with that transaction and that turn taken. -/
def State.popped (s : State) : State := { s with requests := s.requests.tail, turns := s.turns.tail }

/-- The offsets of 20_memory.md R80 that are unmapped. -/
def OffsetUnmapped (a : Nat) : Prop :=
  (0x0030 ≤ a ∧ a ≤ 0x0FFF) ∨ (0x3040 ≤ a ∧ a ≤ 0x30FF) ∨ (0x3200 ≤ a ∧ a ≤ 0x3FFF) ∨ (0x5400 ≤ a ∧ a ≤ 0x5FFF) ∨
    0x6FF8 ≤ a

/-- A command word that R122 or R123 of 30_encoding.md calls illegal: a bit of [31:9] is set, or OP is 0x00 or 0x09 to
0xFF. -/
def IllegalCommand (w : Word) : Prop := 512 ≤ w.toNat ∨ w.toNat % 256 = 0 ∨ 9 ≤ w.toNat % 256

/-- The pre-checks of 60_exceptions.md R264 and R266: the code and the position of the first that fails. -/
def preCheckOf (i : Instr) (s : State) : Option (ErrCode × Nat) :=
  match i with
  | .build _ => if 4096 < s.textLen.toNat then some (.lenRange, 0x0010) else none
  | .flatten _ => if s.tree = none then some (.noTree, 0) else none
  | .unflatten _ =>
    if 511 < s.shapeLen.toNat then some (.lenRange, 0x0014)
    else if 256 < s.leavesLen.toNat then some (.lenRange, 0x0018)
    else none
  | .encode _ =>
    if 4096 < s.textLen.toNat then some (.lenRange, 0x0010)
    else if s.tree = none then some (.noTree, 0)
    else none
  | .decode _ =>
    if 32768 < s.bitsLen.toNat then some (.lenRange, 0x001C)
    else if s.tree = none then some (.noTree, 0)
    else none
  | .compress _ => if 4096 < s.textLen.toNat then some (.lenRange, 0x0010) else none
  | .decompress _ =>
    if 511 < s.shapeLen.toNat then some (.lenRange, 0x0014)
    else if 256 < s.leavesLen.toNat then some (.lenRange, 0x0018)
    else if 32768 < s.bitsLen.toNat then some (.lenRange, 0x001C)
    else none
  | .clear _ => none

/-- The number of distinct symbols of the text (40_tree_builder.md R152). -/
def State.alphabet (s : State) : Nat := s.textSeq.toFinset.card

/-- FREQ holds the counts of the text `text` (40_tree_builder.md R151), exactly, for all 256 symbols. -/
def HoldsCounts (freq : Buf Half) (text : List Symbol) : Prop :=
  ∀ x : Symbol, ∃ c : Half, Buf.get freq x.toNat = some c ∧ c.toNat = text.count x

/-- The buffer after a command wrote the sequence `xs` to it: elements [0, |xs|) are `xs`, the others as before (D29). -/
def Wrote {α : Type} (before after : Buf α) (xs : List α) : Prop :=
  ∀ i, Buf.get after i = if i < xs.length then xs[i]? else Buf.get before i

/-- Every element is unwritten, that is UNSPEC. -/
def AllUnspec {α : Type} (b : Buf α) : Prop := ∀ i, Buf.get b i = none

/-- The elements 0 .. n - 1 are written. -/
def WrittenBelow {α : Type} (b : Buf α) (n : Nat) : Prop := ∀ i, i < n → (Buf.get b i).isSome

/-- The next step answers the read that the host presents OKAY, with a word that satisfies `p`, and changes nothing else. -/
def AnswersRead (s : State) (p : Word → Prop) : Prop :=
  ∃ t d, step s = .next t ∧ t = { s.popped with response := some (.read d .okay), draws := t.draws } ∧ p d

/-- Word `k` of a symbol window shows the written ones of the elements it holds, element 4k + j in byte j (20_memory.md
R85). -/
def ShowsSymbols (b : Buf Symbol) (k : Nat) (d : Word) : Prop :=
  ∀ j x, j < 4 → Buf.get b (4 * k + j) = some x → d.extractLsb' (8 * j) 8 = x

/-- Word `k` of a bit window shows the written ones of the elements it holds, element 32k + j in bit j, and 0 where the index
is at or beyond the capacity (20_memory.md R86). -/
def ShowsBits (cap : Nat) (b : Buf Bool) (k : Nat) (d : Word) : Prop :=
  ∀ j, j < 32 →
    (∀ x, 32 * k + j < cap → Buf.get b (32 * k + j) = some x → d.getLsbD j = x) ∧
      (cap ≤ 32 * k + j → d.getLsbD j = false)

/-- The bits of a text under a code: the codes of its symbols one after the other (42_message_codec.md R212). -/
def bitsOfText (t : Tree) (text : List Symbol) : List Bool := text.flatMap (fun s => (t.code s).getD [])

/-- Every symbol of the text has a code (42_message_codec.md R214). -/
def AllMapped (t : Tree) (text : List Symbol) : Prop := ∀ s ∈ text, (t.code s).isSome

/-- `ws` lists symbols with bit sequences, each of which leads from the root to a leaf that holds the symbol. -/
def SpelledBy (t : Tree) (ws : List (Symbol × List Bool)) : Prop := ∀ w ∈ ws, t.sub w.2 = some (.leaf w.1)

/-- The bit sequences of `ws`, one after the other. -/
def joinBits (ws : List (Symbol × List Bool)) : List Bool := (ws.map Prod.snd).flatten

/-- The bits `p` end on the way to a leaf (or there are none): they lead to an internal node. -/
def EndsMidPath (t : Tree) (p : List Bool) : Prop := ∃ z o, t.sub p = some (.node z o)

/-- The held tree: the slot satisfies 10_state.md R47 and denotes `t` (R46). -/
def Holds (s : State) (t : Tree) : Prop := ∃ slot, s.tree = some slot ∧ slot.wf = true ∧ slot.abstract = some t

/-- Arena entry `j` has entry `i` as a child. -/
def ChildOf (nodes : List Node) (j i : Nat) : Prop :=
  ∃ nd, nodes[j]? = some nd ∧ nd.leaf = false ∧ (nd.zero.toNat = i ∨ nd.one.toNat = i)

/-- Entry `i` is in the queue when entry `n` is made: it exists and is no child yet (40_tree_builder.md R156). -/
def LiveAt (nodes : List Node) (n i : Nat) : Prop := i < n ∧ ∀ j, j < n → ¬ ChildOf nodes j i

/-- The weight of an entry. -/
def weightOf (nodes : List Node) (i : Nat) : Nat := (nodes[i]?.map (fun nd => nd.weight.toNat)).getD 0

/-- The sequence number of an entry (40_tree_builder.md R154): L - 1 - k for the leaf at k < L, n for the merge at n. -/
def seqOf (total i : Nat) : Nat := if i < total then total - 1 - i else i

/-- The priority order of 40_tree_builder.md R155 on entries. -/
def Beats (nodes : List Node) (total i j : Nat) : Prop :=
  weightOf nodes i < weightOf nodes j ∨ (weightOf nodes i = weightOf nodes j ∧ seqOf total j < seqOf total i)

end Sys2Proof.Machine

/-! ### Reset -/

/-- 10_state.md R62 and 70_reset_and_hazards.md R291: what every register reads after reset, every buffer element
unwritten, no tree, nothing pending, IRQ = 0. -/
def Obligations.ResetValues : Prop :=
  State.reset.readReg .id = 0x48554631#32 ∧ State.reset.readReg .status = 0#32 ∧ State.reset.readReg .irqEn = 0#32 ∧
    State.reset.readReg .textLen = 0#32 ∧ State.reset.readReg .shapeLen = 0#32 ∧
    State.reset.readReg .leavesLen = 0#32 ∧ State.reset.readReg .bitsLen = 0#32 ∧ State.reset.readReg .outLen = 0#32 ∧
    State.reset.readReg .treeInfo = 0#32 ∧ State.reset.readReg .errPos = 0#32 ∧ State.reset.readReg .lastCmd = 0#32 ∧
    State.reset.pending = none ∧ State.reset.done = false ∧ State.reset.errCode = .ok ∧ State.reset.treeValid = false ∧
    State.reset.tree = none ∧ State.reset.irq = false ∧
    AllUnspec State.reset.mem.text ∧ AllUnspec State.reset.mem.out ∧ AllUnspec State.reset.mem.shape ∧
    AllUnspec State.reset.mem.leaves ∧ AllUnspec State.reset.mem.bits ∧ AllUnspec State.reset.mem.freq

/-- The invariant of Safety.lean holds after reset. -/
def Obligations.ResetMeetsInvariant : Prop := State.reset.Inv

/-- 70_reset_and_hazards.md R290 and R293: from every state, whatever command is in flight, asserting and releasing reset leaves
DONE = 0, no interrupt, BUSY = 0 and every register and buffer as after reset; an access presented meanwhile gets no
response and changes nothing. That the registers, buffers and IRQ have the reset values from the assertion on, before the
release, is the model's choice (log entry 8): R290 says what they hold when reset is released. (`State.core` is the state
without the ports and the model's own fields.) -/
def Obligations.ResetAbandonsTheCommand : Prop :=
  ∀ (s : State) (rest : List Turn), s.turns = .assertReset :: .host :: .releaseReset :: rest →
    ∃ a b c, step s = .next a ∧ a.rst = true ∧ a.done = false ∧ a.irq = false ∧ a.busy = false ∧
      a.core = State.reset ∧ step a = .next b ∧ b.core = a.core ∧ b.rst = true ∧ b.requests = a.requests ∧
      b.response = a.response ∧ step b = .next c ∧ c.rst = false ∧ c.busy = false ∧ c.core = State.reset

/-! ### Encoding -/

/-- 30_encoding.md R120, R121, R127, R128: every well-formed command's word decodes to the command, with either value of
STRICT, and a word that decodes to a command is that command's one word. -/
def Obligations.DecodeAndEncodeAgree : Prop :=
  (∀ i : Instr, i.wellFormed = true → Sys2Proof.decode (Sys2Proof.encode i) = .ok i) ∧
    ∀ (w : Word) (i : Instr), Sys2Proof.decode w = .ok i → w = Sys2Proof.encode i

/-- 30_encoding.md R122, R123, R127: the decoder refuses exactly the words with a reserved bit set, and then those with a
reserved OP. -/
def Obligations.DecoderRefusesTheReservedWords : Prop :=
  ∀ w : Word, (Sys2Proof.decode w = .error .reservedBits ↔ 512 ≤ w.toNat) ∧
    (Sys2Proof.decode w = .error .reservedOp ↔ w.toNat < 512 ∧ (w.toNat % 256 = 0 ∨ 9 ≤ w.toNat % 256))

/-- 30_encoding.md R132: the command words in hexadecimal, and their spelling. -/
def Obligations.CommandWords : Prop :=
  ∀ x ∈ ([(0x00000001#32, Instr.build false, "BUILD"), (0x00000002#32, Instr.flatten false, "FLATTEN"),
      (0x00000003#32, Instr.unflatten false, "UNFLATTEN"), (0x00000103#32, Instr.unflatten true, "UNFLATTEN.S"),
      (0x00000004#32, Instr.encode false, "ENCODE"), (0x00000005#32, Instr.decode false, "DECODE"),
      (0x00000105#32, Instr.decode true, "DECODE.S"), (0x00000006#32, Instr.compress false, "COMPRESS"),
      (0x00000007#32, Instr.decompress false, "DECOMPRESS"), (0x00000107#32, Instr.decompress true, "DECOMPRESS.S"),
      (0x00000008#32, Instr.clear false, "CLEAR")] : List (Word × Instr × String)),
    Sys2Proof.decode x.1 = .ok x.2.1 ∧ mnemonic x.2.1 = x.2.2

/-! ### Acceptance, completion and the step -/

/-- 10_state.md R31, 20_memory.md R96: an engine move is exec of the command that PENDING's word decodes to, and takes the
engine's turn. That the engine moves next where `turns` is empty (the first clause) is the model's choice (log entry 6), one
of the orders that 60_exceptions.md R275 and 70_reset_and_hazards.md R302 allow. -/
def Obligations.StepRunsTheCommandInFlight : Prop :=
  ∀ (s : State) (w : Word) (i : Instr), s.rst = false → s.pending = some w → Sys2Proof.decode w = .ok i →
    (s.turns = [] → step s = exec i s) ∧
    ∀ rest, s.turns = .engine :: rest → step s = exec i { s with turns := rest }

/-- 60_exceptions.md R267 (acceptance), 10_state.md R34, R50: a write of v to CMD with BUSY = 0 is accepted, in that single
step PENDING, LAST_CMD <- v, BUSY <- 1, DONE <- 0, ERRCODE <- 0 and so IRQ <- 0; ERR_POS and everything else are kept. -/
def Obligations.AcceptanceOfACommand : Prop :=
  ∀ (s : State) (v : Word), HostNext s (memWrite 0x0004 v) → s.pending = none →
    ∃ t, step s = .next t ∧ t.busy = true ∧ t.irq = false ∧ t.err = false ∧
      t = { s.popped with pending := some v, lastCmd := v, done := false, errCode := .ok, response := some (.write .okay) }

/-- 60_exceptions.md R267 (completion), R271, R261: whatever the command, when it completes BUSY = 0 and DONE = 1, and a
success reports position 0; LAST_CMD keeps the word, and ports and IRQ_EN are not touched. -/
def Obligations.CompletionOfACommand : Prop :=
  ∀ (i : Instr) (s t : State), exec i s = .next t →
    t.busy = false ∧ t.done = true ∧ (t.errCode = .ok → t.errPos = 0#16) ∧ t.lastCmd = s.lastCmd ∧ t.doneIe = s.doneIe ∧
      t.rst = s.rst ∧ t.requests = s.requests ∧ t.response = s.response ∧ t.turns = s.turns

/-- 30_encoding.md R122, R123: an illegal word is accepted like any command, BUSY goes to 1; it stays in flight over whatever
host and idle moves come between; and any later engine move completes it with ILLEGAL_CMD at position 0, changing no other
state. (Stated of one move at a time, for every order of the moves, which log entry 6 holds in `turns`.) -/
def Obligations.IllegalWordCompletes : Prop :=
  ∀ w : Word, IllegalCommand w →
    (∀ s : State, HostNext s (memWrite 0x0004 w) → s.busy = false →
      ∃ t, step s = .next t ∧ t.busy = true ∧
        t = { s.popped with pending := some w, lastCmd := w, done := false, errCode := .ok
                            response := some (.write .okay) }) ∧
    (∀ (s : State) (m : Turn) (rest : List Turn), s.rst = false → s.pending = some w → s.turns = m :: rest →
      m = .host ∨ m = .idle →
        ∃ t, step s = .next t ∧
          t = { s with done := t.done, doneIe := t.doneIe, requests := t.requests, response := t.response, turns := rest
                       draws := t.draws }) ∧
    ∀ (s : State) (rest : List Turn), s.rst = false → s.pending = some w → s.turns = .engine :: rest →
      ∃ t, step s = .next t ∧
        t = { s with pending := none, done := true, errCode := .illegalCmd, errPos := 0#16, turns := rest
                     draws := t.draws }

/-- 60_exceptions.md R264, R266, R268: a command that fails a pre-check, and an illegal word, complete with the code and
position of the first check that fails and change nothing but the completion fields. -/
def Obligations.PreCheckFailureChangesNothingElse : Prop :=
  (∀ (i : Instr) (s : State) (c : ErrCode) (p : Nat), preCheckOf i s = some (c, p) →
    ∃ t, exec i s = .next t ∧
      t = { s with pending := none, done := true, errCode := c, errPos := BitVec.ofNat 16 p, draws := t.draws }) ∧
    ∀ (w : Word) (s : State), IllegalCommand w →
      ∃ t, runPending w s = .next t ∧
        t = { s with pending := none, done := true, errCode := .illegalCmd, errPos := 0#16, draws := t.draws }

/-- 30_encoding.md R125 (the table's "writes" column), 10_state.md R39, R51: what each command may write beside the
completion fields. So no command writes TEXT, TEXT_LEN, IRQ_EN or LAST_CMD. This frame holds on success and on error. -/
def Obligations.CommandFrames : Prop :=
  (∀ b s t, exec (.build b) s = .next t →
    t = { s with pending := none, done := true, errCode := t.errCode, errPos := t.errPos, draws := t.draws
                 tree := t.tree, mem := { s.mem with freq := t.mem.freq } }) ∧
  (∀ b s t, exec (.flatten b) s = .next t →
    t = { s with pending := none, done := true, errCode := t.errCode, errPos := t.errPos, draws := t.draws
                 shapeLen := t.shapeLen, leavesLen := t.leavesLen
                 mem := { s.mem with shape := t.mem.shape, leaves := t.mem.leaves } }) ∧
  (∀ b s t, exec (.unflatten b) s = .next t →
    t = { s with pending := none, done := true, errCode := t.errCode, errPos := t.errPos, draws := t.draws
                 tree := t.tree }) ∧
  (∀ b s t, exec (.encode b) s = .next t →
    t = { s with pending := none, done := true, errCode := t.errCode, errPos := t.errPos, draws := t.draws
                 bitsLen := t.bitsLen, mem := { s.mem with bits := t.mem.bits } }) ∧
  (∀ b s t, exec (.decode b) s = .next t →
    t = { s with pending := none, done := true, errCode := t.errCode, errPos := t.errPos, draws := t.draws
                 outLen := t.outLen, mem := { s.mem with out := t.mem.out } }) ∧
  (∀ b s t, exec (.compress b) s = .next t →
    t = { s with pending := none, done := true, errCode := t.errCode, errPos := t.errPos, draws := t.draws
                 tree := t.tree, shapeLen := t.shapeLen, leavesLen := t.leavesLen, bitsLen := t.bitsLen
                 mem := { s.mem with freq := t.mem.freq, shape := t.mem.shape, leaves := t.mem.leaves
                                     bits := t.mem.bits } }) ∧
  (∀ b s t, exec (.decompress b) s = .next t →
    t = { s with pending := none, done := true, errCode := t.errCode, errPos := t.errPos, draws := t.draws
                 tree := t.tree, outLen := t.outLen, mem := { s.mem with out := t.mem.out } }) ∧
  (∀ b s t, exec (.clear b) s = .next t →
    t = { s with pending := none, done := true, errCode := t.errCode, errPos := t.errPos, draws := t.draws
                 tree := t.tree })

/-- 30_encoding.md R124: STRICT has no effect on BUILD, FLATTEN, ENCODE, COMPRESS and CLEAR; for the other three the two
modes differ only where the strict one reports TRAILING_DATA or PARTIAL_CODE. (Two runs from one state draw the same values
for unwritten elements: log entry 3.) -/
def Obligations.StrictMattersOnlyToTheTwoChecks : Prop :=
  (∀ s, exec (.build true) s = exec (.build false) s) ∧ (∀ s, exec (.flatten true) s = exec (.flatten false) s) ∧
    (∀ s, exec (.encode true) s = exec (.encode false) s) ∧
    (∀ s, exec (.compress true) s = exec (.compress false) s) ∧ (∀ s, exec (.clear true) s = exec (.clear false) s) ∧
    (∀ s t, exec (.unflatten true) s = .next t → t.errCode ≠ .trailingData → exec (.unflatten false) s = .next t) ∧
    (∀ s t, exec (.decode true) s = .next t → t.errCode ≠ .partialCode → exec (.decode false) s = .next t) ∧
    ∀ s t, exec (.decompress true) s = .next t → t.errCode ≠ .trailingData → t.errCode ≠ .partialCode →
      exec (.decompress false) s = .next t

/-- 60_exceptions.md R270: the tree slot after an operation-phase failure (an error whose pre-checks passed). FLATTEN and
CLEAR have no such failure (60_exceptions.md R265). -/
def Obligations.TreeSlotAfterAnError : Prop :=
  ∀ (i : Instr) (s t : State), exec i s = .next t → preCheckOf i s = none →
    match i with
    | .build _ =>
      t.errCode ≠ .ok → t.treeValid = false ∧ t.errCode = .alphabet ∧ HoldsCounts t.mem.freq s.textSeq
    | .unflatten _ => t.errCode ≠ .ok → t.treeValid = false
    | .compress _ =>
      t.errCode ≠ .ok → t.treeValid = false ∧ (t.errCode = .alphabet → HoldsCounts t.mem.freq s.textSeq)
    | .decompress _ => t.errCode ≠ .ok → t.treeValid = false
    | .encode _ => t.errCode ≠ .ok → t.tree = s.tree
    | .decode _ => t.errCode ≠ .ok → t.tree = s.tree
    | .flatten _ => t.errCode = .ok
    | .clear _ => t.errCode = .ok

/-- 10_state.md R47 ("Only BUILD and UNFLATTEN set TREE_VALID <- 1"), R61: a step that leaves a tree where there was none
is the completion of one of the two. -/
def Obligations.OnlyBuildAndUnflattenMakeATree : Prop :=
  ∀ s t : State, step s = .next t → s.treeValid = false → t.treeValid = true →
    s.busy = true ∧ ∃ b, s.pending = some (Sys2Proof.encode (.build b)) ∨ s.pending = some (Sys2Proof.encode (.unflatten b))

/-! ### Operands -/

/-- 10_state.md R51, R53 to R55, 30_encoding.md R126: the input sequences have the lengths of the length registers, and
their elements are the written ones; where an element is unwritten the value is free (00_scope.md R17). -/
def Obligations.OperandsAreTheWrittenElements : Prop :=
  ∀ s : State,
    s.textSeq.length = s.textLen.toNat ∧ s.shapeSeq.length = s.shapeLen.toNat ∧
    s.leavesSeq.length = s.leavesLen.toNat ∧ s.bitsSeq.length = s.bitsLen.toNat ∧
    (∀ i x, i < s.textLen.toNat → Buf.get s.mem.text i = some x → s.textSeq[i]? = some x) ∧
    (∀ i x, i < s.shapeLen.toNat → Buf.get s.mem.shape i = some x → s.shapeSeq[i]? = some x) ∧
    (∀ i x, i < s.leavesLen.toNat → Buf.get s.mem.leaves i = some x → s.leavesSeq[i]? = some x) ∧
    (∀ i x, i < s.bitsLen.toNat → Buf.get s.mem.bits i = some x → s.bitsSeq[i]? = some x)

/-! ### BUILD -/

/-- 40_tree_builder.md R151: FREQ after BUILD holds, for every one of the 256 symbols, the number of indices of the text
that hold it. -/
def Obligations.BuildCountsTheText : Prop :=
  ∀ (b : Bool) (s : State), s.textLen.toNat ≤ 4096 →
    ∃ t, exec (.build b) s = .next t ∧ HoldsCounts t.mem.freq s.textSeq

/-- 40_tree_builder.md R152: fewer than two distinct symbols raise ALPHABET with ERR_POS = L, FREQ keeps the counts and the
tree slot stays released; nothing else changes. -/
def Obligations.BuildRejectsASmallAlphabet : Prop :=
  ∀ (b : Bool) (s : State), s.textLen.toNat ≤ 4096 → s.alphabet < 2 →
    ∃ t, exec (.build b) s = .next t ∧ HoldsCounts t.mem.freq s.textSeq ∧ t.treeValid = false ∧
      t = { s with pending := none, done := true, errCode := .alphabet, errPos := BitVec.ofNat 16 s.alphabet
                   draws := t.draws, tree := none, mem := { s.mem with freq := t.mem.freq } }

/-- 40_tree_builder.md R159, R160: BUILD of a text with at least two distinct symbols completes; ROOT = 2L - 2,
NODE_COUNT = 2L - 1, the slot satisfies R47, and the tree has one leaf for each distinct symbol, an internal root and depth
at most L - 1 ≤ 255. -/
def Obligations.BuildMakesATree : Prop :=
  ∀ (b : Bool) (s : State), s.textLen.toNat ≤ 4096 → 2 ≤ s.alphabet →
    ∃ t slot tr, exec (.build b) s = .next t ∧ t.tree = some slot ∧ slot.root.toNat = 2 * s.alphabet - 2 ∧
      slot.nodeCount = 2 * s.alphabet - 1 ∧ slot.wf = true ∧ slot.abstract = some tr ∧
      (∀ x, x ∈ tr.leaves ↔ x ∈ s.textSeq) ∧ tr.leaves.Nodup ∧ tr.leaves.length = s.alphabet ∧
      tr.shape.count true = s.alphabet - 1 ∧ tr.isNode = true ∧ tr.depth ≤ s.alphabet - 1 ∧ s.alphabet - 1 ≤ 255 ∧
      HoldsCounts t.mem.freq s.textSeq ∧
      t = { s with pending := none, done := true, errCode := .ok, errPos := 0#16, draws := t.draws
                   tree := some slot, mem := { s.mem with freq := t.mem.freq } }

/-- 40_tree_builder.md R150, R153: the leaves occupy indices 0 .. L - 1 in ascending symbol order, each with its frequency, and
the entries from L on are internal. The fields that an entry does not use (10_state.md R45) are 0, as R150's pseudocode
allocates them (log entry 2). -/
def Obligations.BuildAllocatesTheLeavesFirst : Prop :=
  ∀ (b : Bool) (s t : State) (slot : TreeSlot), s.textLen.toNat ≤ 4096 → 2 ≤ s.alphabet → exec (.build b) s = .next t →
    t.tree = some slot →
      (slot.nodes.take s.alphabet).Pairwise (fun x y => x.sym < y.sym) ∧
      (∀ nd ∈ slot.nodes.take s.alphabet, nd.leaf = true ∧ nd.sym ∈ s.textSeq ∧ nd.zero = 0#9 ∧ nd.one = 0#9 ∧
        nd.weight.toNat = s.textSeq.count nd.sym) ∧
      ∀ nd ∈ slot.nodes.drop s.alphabet, nd.leaf = false ∧ nd.sym = 0#8

/-- 40_tree_builder.md R154 to R156: every merge takes the two entries that are least in the priority order among those in
the queue, the first as zero-child and the second as one-child, and its weight is their sum. -/
def Obligations.BuildMergesTheTwoLeast : Prop :=
  ∀ (b : Bool) (s t : State) (slot : TreeSlot) (n : Nat), s.textLen.toNat ≤ 4096 → 2 ≤ s.alphabet →
    exec (.build b) s = .next t → t.tree = some slot → s.alphabet ≤ n → n < slot.nodeCount →
      ∃ nd, slot.nodes[n]? = some nd ∧ nd.leaf = false ∧
        LiveAt slot.nodes n nd.zero.toNat ∧ LiveAt slot.nodes n nd.one.toNat ∧ nd.zero ≠ nd.one ∧
        (∀ i, LiveAt slot.nodes n i → i ≠ nd.zero.toNat → Beats slot.nodes s.alphabet nd.zero.toNat i) ∧
        (∀ i, LiveAt slot.nodes n i → i ≠ nd.zero.toNat → i ≠ nd.one.toNat →
          Beats slot.nodes s.alphabet nd.one.toNat i) ∧
        nd.weight.toNat = weightOf slot.nodes nd.zero.toNat + weightOf slot.nodes nd.one.toNat

/-- 40_tree_builder.md R161: the tree is a function of the multiset of (symbol, frequency) pairs alone. -/
def Obligations.BuildDependsOnTheCountsOnly : Prop :=
  ∀ (b b' : Bool) (s s' t t' : State), s.textLen.toNat ≤ 4096 → s'.textLen.toNat ≤ 4096 →
    (∀ x, s.textSeq.count x = s'.textSeq.count x) → exec (.build b) s = .next t → exec (.build b') s' = .next t' →
      t.tree = t'.tree ∧ t.errCode = t'.errCode ∧ t.errPos = t'.errPos

/-! ### FLATTEN and UNFLATTEN -/

/-- 41_tree_codec.md R180 to R183: FLATTEN of a held tree completes; exactly SHAPE[0, |shape|) and LEAVES[0, |leaves|) are
written, with the tree's two pre-order sequences, the length registers are set, and the tree slot is unchanged. -/
def Obligations.FlattenWritesTheTree : Prop :=
  ∀ (b : Bool) (s : State) (tr : Tree), Holds s tr →
    ∃ t, exec (.flatten b) s = .next t ∧ Wrote s.mem.shape t.mem.shape tr.shape ∧
      Wrote s.mem.leaves t.mem.leaves tr.leaves ∧ t.shapeLen.toNat = tr.shape.length ∧
      t.leavesLen.toNat = tr.leaves.length ∧
      t = { s with pending := none, done := true, errCode := .ok, errPos := 0#16, draws := t.draws
                   shapeLen := t.shapeLen, leavesLen := t.leavesLen
                   mem := { s.mem with shape := t.mem.shape, leaves := t.mem.leaves } }

/-- 41_tree_codec.md R184: |shape| = 2 |leaves| - 1, with |leaves| - 1 ones and |leaves| zeros. -/
def Obligations.FlattenShapeLength : Prop :=
  ∀ (b : Bool) (s t : State) (tr : Tree), Holds s tr → exec (.flatten b) s = .next t →
    t.shapeLen.toNat = 2 * t.leavesLen.toNat - 1 ∧ t.shapeSeq.count true = t.leavesLen.toNat - 1 ∧
      t.shapeSeq.count false = t.leavesLen.toNat

/-- 41_tree_codec.md R185, R186, R190, R192: UNFLATTEN of sequences that begin with a tree's two sequences completes and
holds that tree (a single leaf and repeated symbols included), allocated in pre-order (the zero-child of entry i is entry
i + 1, the one-child follows the zero-child's subtree), with ROOT = 0, NODE_COUNT the shape bits consumed and every weight
0; in the strict mode when nothing is left over. -/
def Obligations.UnflattenRebuildsTheTree : Prop :=
  ∀ (strict : Bool) (s : State) (tr : Tree) (moreShape : List Bool) (moreLeaves : List Symbol),
    s.shapeLen.toNat ≤ 511 → s.leavesLen.toNat ≤ 256 → s.shapeSeq = tr.shape ++ moreShape →
    s.leavesSeq = tr.leaves ++ moreLeaves → (strict = true → moreShape = [] ∧ moreLeaves = []) →
      ∃ t slot, exec (.unflatten strict) s = .next t ∧ t.tree = some slot ∧ slot.wf = true ∧ slot.abstract = some tr ∧
        slot.root = 0#9 ∧ slot.nodeCount = tr.shape.length ∧ (∀ nd ∈ slot.nodes, nd.weight = 0#16) ∧
        (∀ i nd, slot.nodes[i]? = some nd → nd.leaf = false →
          nd.zero.toNat = i + 1 ∧ ∃ z, treeAt slot.nodes 511 (i + 1) = some z ∧ nd.one.toNat = i + 1 + z.shape.length) ∧
        t = { s with pending := none, done := true, errCode := .ok, errPos := 0#16, draws := t.draws
                     tree := some slot }

/-- 41_tree_codec.md R187, R188: running out of shape bits raises SHAPE_UNDERRUN at SHAPE_LEN, running out of leaf symbols
LEAVES_UNDERRUN at LEAVES_LEN, in both modes, and the tree slot stays released. A shape that begins with no tree's shape
runs out of bits, unless it has more 0 bits than there are leaf symbols; one that begins with a tree's runs out of leaf
symbols when the tree has more leaves. -/
def Obligations.UnflattenUnderruns : Prop :=
  ∀ (strict : Bool) (s : State), s.shapeLen.toNat ≤ 511 → s.leavesLen.toNat ≤ 256 →
    ((∀ (tr : Tree) (r : List Bool), s.shapeSeq ≠ tr.shape ++ r) → s.shapeSeq.count false ≤ s.leavesSeq.length →
      ∃ t, exec (.unflatten strict) s = .next t ∧
        t = { s with pending := none, done := true, errCode := .shapeUnderrun, errPos := s.shapeLen, draws := t.draws
                     tree := none }) ∧
    (((∃ (tr : Tree) (r : List Bool), s.shapeSeq = tr.shape ++ r ∧ s.leavesSeq.length < tr.leaves.length) ∨
        ((∀ (tr : Tree) (r : List Bool), s.shapeSeq ≠ tr.shape ++ r) ∧
          s.leavesSeq.length < s.shapeSeq.count false)) →
      ∃ t, exec (.unflatten strict) s = .next t ∧
        t = { s with pending := none, done := true, errCode := .leavesUnderrun, errPos := s.leavesLen, draws := t.draws
                     tree := none })

/-- 41_tree_codec.md R189: with input left over, STRICT = 0 ignores it and succeeds, STRICT = 1 raises TRAILING_DATA with
ERR_POS the number of shape bits consumed, and the slot stays released. -/
def Obligations.UnflattenTrailingData : Prop :=
  ∀ (s : State) (tr : Tree) (moreShape : List Bool) (moreLeaves : List Symbol), s.shapeLen.toNat ≤ 511 →
    s.leavesLen.toNat ≤ 256 → s.shapeSeq = tr.shape ++ moreShape → s.leavesSeq = tr.leaves ++ moreLeaves →
    ¬ (moreShape = [] ∧ moreLeaves = []) →
      (∃ t, exec (.unflatten false) s = .next t ∧ t.errCode = .ok ∧ Holds t tr) ∧
      ∃ t, exec (.unflatten true) s = .next t ∧
        t = { s with pending := none, done := true, errCode := .trailingData
                     errPos := BitVec.ofNat 16 tr.shape.length, draws := t.draws, tree := none }

/-- 41_tree_codec.md R193: FLATTEN then UNFLATTEN, in either mode, succeeds and holds a TreeEq tree; and after a successful
UNFLATTEN, FLATTEN gives back the sp shape bits and the lp leaf symbols it consumed: sp is NODE_COUNT of the tree it made
(R190), lp the number of that tree's leaf entries. -/
def Obligations.FlattenUnflattenRoundTrip : Prop :=
  (∀ (b strict : Bool) (s : State) (tr : Tree), Holds s tr →
    ∃ t u tr', exec (.flatten b) s = .next t ∧ exec (.unflatten strict) t = .next u ∧ u.errCode = .ok ∧ Holds u tr' ∧
      TreeEq tr' tr = true) ∧
    ∀ (b strict : Bool) (s t : State), exec (.unflatten strict) s = .next t → t.errCode = .ok →
      ∃ u slot, exec (.flatten b) t = .next u ∧ u.errCode = .ok ∧ t.tree = some slot ∧
        u.shapeLen.toNat = slot.nodeCount ∧ u.leavesLen.toNat = slot.nodes.countP Node.leaf ∧
        u.shapeLen.toNat ≤ s.shapeLen.toNat ∧ u.leavesLen.toNat ≤ s.leavesLen.toNat ∧
        u.shapeSeq = s.shapeSeq.take u.shapeLen.toNat ∧ u.leavesSeq = s.leavesSeq.take u.leavesLen.toNat

/-- 00_scope.md R20: TreeEq is the equality of shape and leaf symbols; a tree compared to itself is equal, and the absent
tree is no tree. -/
def Obligations.TreeEqComparesShapeAndLeaves : Prop :=
  (∀ a b : Tree, TreeEq a b = true ↔ a.shape = b.shape ∧ a.leaves = b.leaves) ∧ (∀ a : Tree, TreeEq a a = true) ∧
    ∀ s : State, s.treeValid = false → s.heldTree = none

/-! ### ENCODE and DECODE -/

/-- 42_message_codec.md R210 to R213, R216: ENCODE of a text all of whose symbols are mapped, and whose bits fit, completes;
exactly BITS[0, BITS_LEN) is written, with the codes of the symbols in message order. -/
def Obligations.EncodeWritesTheCodes : Prop :=
  ∀ (b : Bool) (s : State) (tr : Tree), Holds s tr → s.textLen.toNat ≤ 4096 → AllMapped tr s.textSeq →
    (bitsOfText tr s.textSeq).length ≤ 32768 →
      ∃ t, exec (.encode b) s = .next t ∧ Wrote s.mem.bits t.mem.bits (bitsOfText tr s.textSeq) ∧
        t.bitsLen.toNat = (bitsOfText tr s.textSeq).length ∧
        t = { s with pending := none, done := true, errCode := .ok, errPos := 0#16, draws := t.draws
                     bitsLen := t.bitsLen, mem := { s.mem with bits := t.mem.bits } }

/-- 42_message_codec.md R214, R215, 60_exceptions.md R269: the first text symbol without a code raises UNMAPPED_SYMBOL, the
first whose code does not fit BITS_OVERFLOW, at its text index; every element of BITS becomes UNSPEC, BITS_LEN and the tree
slot are kept. -/
def Obligations.EncodeErrors : Prop :=
  ∀ (b : Bool) (s : State) (tr : Tree) (pre rest : List Symbol) (x : Symbol), Holds s tr → s.textLen.toNat ≤ 4096 →
    s.textSeq = pre ++ x :: rest → AllMapped tr pre → (bitsOfText tr pre).length ≤ 32768 →
      (tr.code x = none →
        ∃ t, exec (.encode b) s = .next t ∧ AllUnspec t.mem.bits ∧
          t = { s with pending := none, done := true, errCode := .unmappedSymbol, errPos := BitVec.ofNat 16 pre.length
                       draws := t.draws, mem := { s.mem with bits := t.mem.bits } }) ∧
      ∀ p, tr.code x = some p → 32768 < (bitsOfText tr pre).length + p.length →
        ∃ t, exec (.encode b) s = .next t ∧ AllUnspec t.mem.bits ∧
          t = { s with pending := none, done := true, errCode := .bitsOverflow, errPos := BitVec.ofNat 16 pre.length
                       draws := t.draws, mem := { s.mem with bits := t.mem.bits } }

/-- 42_message_codec.md R217: in the code map ENCODE builds from a held tree, no code is a beginning of the code of another
symbol. (Repeated leaf symbols need not be excluded.) -/
def Obligations.CodesArePrefixFree : Prop :=
  ∀ (s : State) (slot : TreeSlot) (visits : List (Symbol × List Bool)) (x y : Symbol) (p q : List Bool),
    s.tree = some slot → slot.wf = true → slot.paths = some visits → codeOf visits x = some p → codeOf visits y = some q →
      x ≠ y → ¬ p <+: q

/-- 42_message_codec.md R218 to R220, R222: with an internal root, bits that are codes one after the other, followed in the
permissive mode by the beginning of a code (in the strict mode by nothing), decode to the symbols in bit order; exactly
OUT[0, OUT_LEN) is written and the partial code is dropped. -/
def Obligations.DecodeWritesTheSymbols : Prop :=
  ∀ (strict : Bool) (s : State) (tr : Tree) (ws : List (Symbol × List Bool)) (p : List Bool), Holds s tr →
    s.bitsLen.toNat ≤ 32768 → s.bitsSeq = joinBits ws ++ p → SpelledBy tr ws → EndsMidPath tr p → ws.length ≤ 4096 →
    (strict = true → p = []) →
      ∃ t, exec (.decode strict) s = .next t ∧ Wrote s.mem.out t.mem.out (ws.map Prod.fst) ∧
        t.outLen.toNat = ws.length ∧
        t = { s with pending := none, done := true, errCode := .ok, errPos := 0#16, draws := t.draws
                     outLen := t.outLen, mem := { s.mem with out := t.mem.out } }

/-- 42_message_codec.md R221 to R223, 60_exceptions.md R269: a bit at a leaf root raises LEAF_ROOT_DECODE at 0, the symbol
that does not fit OUT_OVERFLOW at the bit that completes it, and in the strict mode an incomplete final code PARTIAL_CODE at
its first bit; every element of OUT becomes UNSPEC, OUT_LEN and the tree slot are kept. -/
def Obligations.DecodeErrors : Prop :=
  ∀ (strict : Bool) (s : State) (tr : Tree), Holds s tr → s.bitsLen.toNat ≤ 32768 →
    (tr.isNode = false → s.bitsSeq ≠ [] →
      ∃ t, exec (.decode strict) s = .next t ∧ AllUnspec t.mem.out ∧
        t = { s with pending := none, done := true, errCode := .leafRootDecode, errPos := 0#16, draws := t.draws
                     mem := { s.mem with out := t.mem.out } }) ∧
    (∀ ws w rest, tr.isNode = true → s.bitsSeq = joinBits ws ++ w.2 ++ rest → SpelledBy tr (ws ++ [w]) →
        ws.length = 4096 →
      ∃ t, exec (.decode strict) s = .next t ∧ AllUnspec t.mem.out ∧
        t = { s with pending := none, done := true, errCode := .outOverflow
                     errPos := BitVec.ofNat 16 ((joinBits ws).length + w.2.length - 1), draws := t.draws
                     mem := { s.mem with out := t.mem.out } }) ∧
    ∀ ws p, strict = true → p ≠ [] → s.bitsSeq = joinBits ws ++ p → SpelledBy tr ws → EndsMidPath tr p →
        ws.length ≤ 4096 →
      ∃ t, exec (.decode strict) s = .next t ∧ AllUnspec t.mem.out ∧
        t = { s with pending := none, done := true, errCode := .partialCode
                     errPos := BitVec.ofNat 16 (joinBits ws).length, draws := t.draws
                     mem := { s.mem with out := t.mem.out } }

/-- 42_message_codec.md R218 to R220, R222, R223: what DECODE does with every bit sequence, for a held tree with an internal
root. The bits are codes one after the other followed by bits that end on the way to a leaf (or by none), and DECODE answers
accordingly: OUT_OVERFLOW at the last bit of the 4097th code when there are more than OUT_MAX codes; else, in the strict
mode, PARTIAL_CODE at the first bit after the codes when bits are left over; else the symbols. -/
def Obligations.EveryBitSequenceIsCodesAndARest : Prop :=
  ∀ (strict : Bool) (s : State) (tr : Tree), Holds s tr → tr.isNode = true → s.bitsLen.toNat ≤ 32768 →
    ∃ ws p t, s.bitsSeq = joinBits ws ++ p ∧ SpelledBy tr ws ∧ EndsMidPath tr p ∧ exec (.decode strict) s = .next t ∧
      if 4096 < ws.length then
        AllUnspec t.mem.out ∧
          t = { s with pending := none, done := true, errCode := .outOverflow
                       errPos := BitVec.ofNat 16 ((joinBits (ws.take 4097)).length - 1), draws := t.draws
                       mem := { s.mem with out := t.mem.out } }
      else if strict = true ∧ p ≠ [] then
        AllUnspec t.mem.out ∧
          t = { s with pending := none, done := true, errCode := .partialCode
                       errPos := BitVec.ofNat 16 (joinBits ws).length, draws := t.draws
                       mem := { s.mem with out := t.mem.out } }
      else
        Wrote s.mem.out t.mem.out (ws.map Prod.fst) ∧ t.outLen.toNat = ws.length ∧
          t = { s with pending := none, done := true, errCode := .ok, errPos := 0#16, draws := t.draws
                       outLen := t.outLen, mem := { s.mem with out := t.mem.out } }

/-- 42_message_codec.md R224: with BITS_LEN = 0 DECODE succeeds with OUT_LEN = 0, whatever the tree's shape and whatever
STRICT is, and OUT is unchanged. -/
def Obligations.DecodeOfNothing : Prop :=
  ∀ (strict : Bool) (s : State) (tr : Tree), Holds s tr → s.bitsLen = 0#16 →
    ∃ t, exec (.decode strict) s = .next t ∧
      (∀ i, Buf.get t.mem.out i = Buf.get s.mem.out i) ∧
      t = { s with pending := none, done := true, errCode := .ok, errPos := 0#16, draws := t.draws, outLen := 0#16
                   mem := { s.mem with out := t.mem.out } }

/-- 42_message_codec.md R225, R216: after an ENCODE that succeeds with an internal root, of a text of at most OUT_MAX
symbols all of which are mapped, a DECODE in either mode of the resulting BITS gives back the text; and a single-leaf tree
encodes every text of its symbol to no bits, which decode to no symbols. -/
def Obligations.DecodeInvertsEncode : Prop :=
  (∀ (b strict : Bool) (s t : State) (tr : Tree), Holds s tr → tr.isNode = true → AllMapped tr s.textSeq →
    s.textLen.toNat ≤ 4096 → exec (.encode b) s = .next t → t.errCode = .ok →
      ∃ u, exec (.decode strict) t = .next u ∧ u.errCode = .ok ∧ u.outLen.toNat = s.textSeq.length ∧
        ∀ i, i < s.textSeq.length → Buf.get u.mem.out i = s.textSeq[i]?) ∧
    ∀ (b strict : Bool) (s : State) (x : Symbol), Holds s (.leaf x) → (∀ y ∈ s.textSeq, y = x) →
      s.textLen.toNat ≤ 4096 →
        ∃ t u, exec (.encode b) s = .next t ∧ t.errCode = .ok ∧ t.bitsLen = 0#16 ∧ exec (.decode strict) t = .next u ∧
          u.errCode = .ok ∧ u.outLen = 0#16

/-! ### COMPRESS, DECOMPRESS, CLEAR -/

/-- 43_top_level.md R240, R242, R243: COMPRESS succeeds for every text of length at most TEXT_MAX with at least two distinct
symbols; FREQ, SHAPE, LEAVES and BITS hold the counts, the built tree's sequences and the text's codes, and TREE_VALID = 0
at the end. COMPRESS never raises BITS_OVERFLOW, in any state. (Where the text has unwritten elements it rests on log
entry 4, one draw for each element and command, and, for the BUILD run beside it, on log entry 3.) -/
def Obligations.CompressSucceeds : Prop :=
  (∀ (b : Bool) (s : State), s.textLen.toNat ≤ 4096 → 2 ≤ s.alphabet →
    ∃ t tr, exec (.compress b) s = .next t ∧ (∃ t', exec (.build b) s = .next t' ∧ Holds t' tr) ∧
      HoldsCounts t.mem.freq s.textSeq ∧ AllMapped tr s.textSeq ∧
      Wrote s.mem.shape t.mem.shape tr.shape ∧ t.shapeLen.toNat = tr.shape.length ∧
      Wrote s.mem.leaves t.mem.leaves tr.leaves ∧ t.leavesLen.toNat = tr.leaves.length ∧
      Wrote s.mem.bits t.mem.bits (bitsOfText tr s.textSeq) ∧ t.bitsLen.toNat = (bitsOfText tr s.textSeq).length ∧
      (bitsOfText tr s.textSeq).length ≤ 8 * s.textLen.toNat ∧
      t = { s with pending := none, done := true, errCode := .ok, errPos := 0#16, draws := t.draws, tree := none
                   shapeLen := t.shapeLen, leavesLen := t.leavesLen, bitsLen := t.bitsLen
                   mem := { s.mem with freq := t.mem.freq, shape := t.mem.shape, leaves := t.mem.leaves
                                       bits := t.mem.bits } }) ∧
    ∀ (b : Bool) (s t : State), exec (.compress b) s = .next t → t.errCode ≠ .bitsOverflow

/-- 43_top_level.md R240, R241, R242: COMPRESS of a text with fewer than two distinct symbols completes with ALPHABET, FREQ
holds the counts, SHAPE, LEAVES, BITS and their lengths are untouched and TREE_VALID = 0. -/
def Obligations.CompressRejectsASmallAlphabet : Prop :=
  ∀ (b : Bool) (s : State), s.textLen.toNat ≤ 4096 → s.alphabet < 2 →
    ∃ t, exec (.compress b) s = .next t ∧ HoldsCounts t.mem.freq s.textSeq ∧
      t = { s with pending := none, done := true, errCode := .alphabet, errPos := BitVec.ofNat 16 s.alphabet
                   draws := t.draws, tree := none, mem := { s.mem with freq := t.mem.freq } }

/-- 43_top_level.md R240 to R242, R249: for a text whose elements are written, COMPRESS leaves what BUILD, FLATTEN, ENCODE
and CLEAR leave one after the other. (For unwritten elements each command draws anew, log entry 4.) -/
def Obligations.CompressIsBuildFlattenEncodeClear : Prop :=
  ∀ (b : Bool) (s : State), s.textLen.toNat ≤ 4096 → 2 ≤ s.alphabet → WrittenBelow s.mem.text s.textLen.toNat →
    ∃ t t1 t2 t3 t4, exec (.compress b) s = .next t ∧ exec (.build b) s = .next t1 ∧ exec (.flatten b) t1 = .next t2 ∧
      exec (.encode b) t2 = .next t3 ∧ exec (.clear b) t3 = .next t4 ∧ t = { t4 with draws := t.draws }

/-- 43_top_level.md R247: COMPRESS of the same text writes the same SHAPE, LEAVES and BITS contents and lengths, whatever
state it starts in. (For a text with unwritten elements, the text is what COMPRESS drew, one draw for each element and
command: log entry 4.) -/
def Obligations.CompressIsDeterministic : Prop :=
  ∀ (b b' : Bool) (s s' t t' : State), s.textLen.toNat ≤ 4096 → 2 ≤ s.alphabet → s.textSeq = s'.textSeq →
    exec (.compress b) s = .next t → exec (.compress b') s' = .next t' →
      t.shapeLen = t'.shapeLen ∧ t.leavesLen = t'.leavesLen ∧ t.bitsLen = t'.bitsLen ∧ t.shapeSeq = t'.shapeSeq ∧
        t.leavesSeq = t'.leavesSeq ∧ t.bitsSeq = t'.bitsSeq

/-- 43_top_level.md R244, R245: DECOMPRESS of sequences that begin with a tree's, and of bits that are its codes, completes
with the symbols in OUT and TREE_VALID = 0; in the permissive mode input left over and a partial final code are ignored. A
single-leaf tree decodes no bits to no symbols. -/
def Obligations.DecompressWritesTheSymbols : Prop :=
  ∀ (strict : Bool) (s : State) (tr : Tree) (moreShape : List Bool) (moreLeaves : List Symbol)
      (ws : List (Symbol × List Bool)) (p : List Bool),
    s.shapeLen.toNat ≤ 511 → s.leavesLen.toNat ≤ 256 → s.bitsLen.toNat ≤ 32768 → s.shapeSeq = tr.shape ++ moreShape →
    s.leavesSeq = tr.leaves ++ moreLeaves → s.bitsSeq = joinBits ws ++ p → SpelledBy tr ws → ws.length ≤ 4096 →
    (tr.isNode = true ∧ EndsMidPath tr p ∨ tr.isNode = false ∧ ws = [] ∧ p = []) →
    (strict = true → moreShape = [] ∧ moreLeaves = [] ∧ p = []) →
      ∃ t, exec (.decompress strict) s = .next t ∧ Wrote s.mem.out t.mem.out (ws.map Prod.fst) ∧
        t.outLen.toNat = ws.length ∧
        t = { s with pending := none, done := true, errCode := .ok, errPos := 0#16, draws := t.draws, tree := none
                     outLen := t.outLen, mem := { s.mem with out := t.mem.out } }

/-- 43_top_level.md R244, R245, 60_exceptions.md R269: a stage error ends DECOMPRESS with that error and TREE_VALID = 0. An
error of UNFLATTEN_op leaves OUT and OUT_LEN untouched. An error of DECODE_op, on the tree that UNFLATTEN_op made, makes
every element of OUT UNSPEC and keeps OUT_LEN: LEAF_ROOT_DECODE at 0 for a bit at a leaf root, OUT_OVERFLOW at the bit that
completes the symbol that does not fit, and in the strict mode PARTIAL_CODE at the first bit of an incomplete final code.
(The UNFLATTEN run beside it starts in the same state, so it draws the same values for unwritten elements: log entry 3.) -/
def Obligations.DecompressStopsAtAnUnflattenError : Prop :=
  (∀ (strict : Bool) (s t : State), s.bitsLen.toNat ≤ 32768 → s.shapeLen.toNat ≤ 511 → s.leavesLen.toNat ≤ 256 →
    exec (.unflatten strict) s = .next t → t.errCode ≠ .ok →
      exec (.decompress strict) s = .next t ∧ t.treeValid = false ∧ t.mem.out = s.mem.out ∧ t.outLen = s.outLen) ∧
  ∀ (strict : Bool) (s : State) (tr : Tree) (moreShape : List Bool) (moreLeaves : List Symbol),
    s.shapeLen.toNat ≤ 511 → s.leavesLen.toNat ≤ 256 → s.bitsLen.toNat ≤ 32768 → s.shapeSeq = tr.shape ++ moreShape →
    s.leavesSeq = tr.leaves ++ moreLeaves → (strict = true → moreShape = [] ∧ moreLeaves = []) →
      (tr.isNode = false → s.bitsSeq ≠ [] →
        ∃ t, exec (.decompress strict) s = .next t ∧ AllUnspec t.mem.out ∧
          t = { s with pending := none, done := true, errCode := .leafRootDecode, errPos := 0#16, draws := t.draws
                       tree := none, mem := { s.mem with out := t.mem.out } }) ∧
      (∀ ws w rest, tr.isNode = true → s.bitsSeq = joinBits ws ++ w.2 ++ rest → SpelledBy tr (ws ++ [w]) →
          ws.length = 4096 →
        ∃ t, exec (.decompress strict) s = .next t ∧ AllUnspec t.mem.out ∧
          t = { s with pending := none, done := true, errCode := .outOverflow
                       errPos := BitVec.ofNat 16 ((joinBits ws).length + w.2.length - 1), draws := t.draws
                       tree := none, mem := { s.mem with out := t.mem.out } }) ∧
      ∀ ws p, strict = true → p ≠ [] → s.bitsSeq = joinBits ws ++ p → SpelledBy tr ws → EndsMidPath tr p →
          ws.length ≤ 4096 →
        ∃ t, exec (.decompress strict) s = .next t ∧ AllUnspec t.mem.out ∧
          t = { s with pending := none, done := true, errCode := .partialCode
                       errPos := BitVec.ofNat 16 (joinBits ws).length, draws := t.draws
                       tree := none, mem := { s.mem with out := t.mem.out } }

/-- 43_top_level.md R246: COMPRESS, followed by DECOMPRESS in either mode with SHAPE, LEAVES, BITS and their lengths as
COMPRESS left them, gives back every text of at most TEXT_MAX symbols with at least two distinct symbols. (For a text with
unwritten elements, the text is what COMPRESS drew, log entry 4.) -/
def Obligations.DecompressInvertsCompress : Prop :=
  ∀ (b strict : Bool) (s t t' : State), s.textLen.toNat ≤ 4096 → 2 ≤ s.alphabet → exec (.compress b) s = .next t →
    t'.shapeLen = t.shapeLen → t'.leavesLen = t.leavesLen → t'.bitsLen = t.bitsLen → t'.mem.shape = t.mem.shape →
    t'.mem.leaves = t.mem.leaves → t'.mem.bits = t.mem.bits →
      ∃ u, exec (.decompress strict) t' = .next u ∧ u.errCode = .ok ∧ u.outLen = s.textLen ∧
        ∀ i, i < s.textSeq.length → Buf.get u.mem.out i = s.textSeq[i]?

/-- 43_top_level.md R248, 10_state.md R48: CLEAR completes in every state; TREE_VALID = 0, TREE_INFO and the NODE window
read 0, and nothing else changes. -/
def Obligations.ClearReleasesTheTree : Prop :=
  ∀ (b : Bool) (s : State), ∃ t, exec (.clear b) s = .next t ∧ t.treeValid = false ∧ t.treeInfoWord = 0#32 ∧
    (∀ i, t.readIdle (.nodeA i) = 0#32 ∧ t.readIdle (.nodeB i) = 0#32) ∧
    t = { s with pending := none, done := true, errCode := .ok, errPos := 0#16, draws := t.draws, tree := none }

/-! ### The host port -/

/-- 60_exceptions.md R262, 20_memory.md R82 to R84: an access to an unmapped offset, of a size other than 4 or misaligned,
and a write other than to STATUS or IRQ_EN while BUSY = 1, complete with response ERROR (read data 0) and change no
state. -/
def Obligations.BusErrorsChangeNothing : Prop :=
  ∀ (s : State) (r : BusReq), HostNext s r →
    (OffsetUnmapped r.off.toNat ∨ r.size ≠ 4 ∨ r.off.toNat % 4 ≠ 0 ∨
      (r.write = true ∧ s.busy = true ∧ r.off ≠ 0x0008#16 ∧ r.off ≠ 0x000C#16)) →
      step s = .next { s.popped with response := some (if r.write then .write .error else .read 0#32 .error) }

/-- 20_memory.md R93, 10_state.md R36, R38: writes to STATUS and IRQ_EN are performed in every state: bit 1 of a STATUS
write clears DONE and its other bits are ignored, bit 0 of an IRQ_EN write is DONE_IE; every other write while BUSY = 1 is
refused. -/
def Obligations.StatusAndIrqEnAreAlwaysWritable : Prop :=
  (∀ (s : State) (v : Word), HostNext s (memWrite 0x0008 v) →
    step s = .next { s.popped with done := if v.getLsbD 1 then false else s.done, response := some (.write .okay) }) ∧
  (∀ (s : State) (v : Word), HostNext s (memWrite 0x000C v) →
    step s = .next { s.popped with doneIe := v.getLsbD 0, response := some (.write .okay) }) ∧
  ∀ (s : State) (r : BusReq), HostNext s r → s.busy = true → r.write = true → r.off ≠ 0x0008#16 → r.off ≠ 0x000C#16 →
    step s = .next { s.popped with response := some (.write .error) }

/-- 20_memory.md R94: while BUSY = 1, ID, STATUS, IRQ_EN and LAST_CMD read their current values and CMD reads 0; any other
mapped word answers OKAY with a value the statement leaves free; the access errors of R82 to R84 still answer ERROR. No
state changes. -/
def Obligations.ReadsWhileBusy : Prop :=
  ∀ (s : State) (r : BusReq), HostNext s r → s.busy = true → r.write = false →
    (¬ OffsetUnmapped r.off.toNat → r.size = 4 → r.off.toNat % 4 = 0 →
      ∃ t d, step s = .next t ∧ t = { s.popped with response := some (.read d .okay), draws := t.draws } ∧
        (r.off = 0x0000#16 → d = 0x48554631#32) ∧ (r.off = 0x0004#16 → d = 0#32) ∧
        (r.off = 0x0008#16 → d = s.statusWord) ∧ (r.off = 0x000C#16 → d = s.irqEnWord) ∧
        (r.off = 0x002C#16 → d = s.lastCmd)) ∧
    ((OffsetUnmapped r.off.toNat ∨ r.size ≠ 4 ∨ r.off.toNat % 4 ≠ 0) →
      step s = .next { s.popped with response := some (.read 0#32 .error) })

/-- 20_memory.md R92: no host read has a side effect, in any state; only the response (and the model's draw counter)
changes. -/
def Obligations.ReadsHaveNoSideEffect : Prop :=
  ∀ (s : State) (r : BusReq), HostNext s r → r.write = false →
    ∃ t d c, step s = .next t ∧ t = { s.popped with response := some (.read d c), draws := t.draws }

/-- 10_state.md R35, R37, R44: the fields of STATUS and TREE_INFO, bit by bit, in every state. -/
def Obligations.StatusAndTreeInfoFields : Prop :=
  ∀ s : State,
    s.statusWord.getLsbD 0 = s.busy ∧ s.statusWord.getLsbD 1 = s.done ∧
    s.statusWord.getLsbD 2 = (s.errCode.bits != 0#4) ∧ s.statusWord.getLsbD 3 = s.treeValid ∧
    s.statusWord.extractLsb' 4 4 = 0#4 ∧ s.statusWord.extractLsb' 8 4 = s.errCode.bits ∧
    s.statusWord.extractLsb' 12 20 = 0#20 ∧ (s.treeValid = false → s.treeInfoWord = 0#32) ∧
    ∀ slot, s.tree = some slot →
      s.treeInfoWord.extractLsb' 0 9 = slot.root ∧ s.treeInfoWord.extractLsb' 9 7 = 0#7 ∧
      (s.treeInfoWord.extractLsb' 16 10).toNat = slot.nodeCount % 1024 ∧ s.treeInfoWord.extractLsb' 26 6 = 0#6

/-- 20_memory.md R89, 10_state.md R33 to R50: registers while BUSY = 0. A read returns the register's fields with reserved
bits 0; a write sets the RW fields and ignores the reserved bits; a write to a RO register is ignored and completes OKAY; a
read of CMD returns 0. -/
def Obligations.RegistersWhileIdle : Prop :=
  (∀ (s : State) (r : Reg), HostNext s (memRead r.offset) → s.busy = false →
    ∃ t d, step s = .next t ∧ t = { s.popped with response := some (.read d .okay), draws := t.draws } ∧
      match r with
      | .id => d = 0x48554631#32
      | .cmd => d = 0#32
      | .status => d = s.statusWord
      | .irqEn => d.getLsbD 0 = s.doneIe ∧ d.extractLsb' 1 31 = 0#31
      | .textLen => d.extractLsb' 0 16 = s.textLen ∧ d.extractLsb' 16 16 = 0#16
      | .shapeLen => d.extractLsb' 0 16 = s.shapeLen ∧ d.extractLsb' 16 16 = 0#16
      | .leavesLen => d.extractLsb' 0 16 = s.leavesLen ∧ d.extractLsb' 16 16 = 0#16
      | .bitsLen => d.extractLsb' 0 16 = s.bitsLen ∧ d.extractLsb' 16 16 = 0#16
      | .outLen => d.extractLsb' 0 16 = s.outLen ∧ d.extractLsb' 16 16 = 0#16
      | .treeInfo => d = s.treeInfoWord
      | .errPos => d.extractLsb' 0 16 = s.errPos ∧ d.extractLsb' 16 16 = 0#16
      | .lastCmd => d = s.lastCmd) ∧
  ∀ (s : State) (r : Reg) (v : Word), HostNext s (memWrite r.offset v) → s.busy = false →
    ∃ t, step s = .next t ∧
      match r with
      | .id => t = { s.popped with response := some (.write .okay) }
      | .cmd => t = { s.popped.accept v with response := some (.write .okay) }
      | .status =>
        t = { s.popped with done := if v.getLsbD 1 then false else s.done, response := some (.write .okay) }
      | .irqEn => t = { s.popped with doneIe := v.getLsbD 0, response := some (.write .okay) }
      | .textLen => t = { s.popped with textLen := v.extractLsb' 0 16, response := some (.write .okay) }
      | .shapeLen => t = { s.popped with shapeLen := v.extractLsb' 0 16, response := some (.write .okay) }
      | .leavesLen => t = { s.popped with leavesLen := v.extractLsb' 0 16, response := some (.write .okay) }
      | .bitsLen => t = { s.popped with bitsLen := v.extractLsb' 0 16, response := some (.write .okay) }
      | .outLen => t = { s.popped with response := some (.write .okay) }
      | .treeInfo => t = { s.popped with response := some (.write .okay) }
      | .errPos => t = { s.popped with response := some (.write .okay) }
      | .lastCmd => t = { s.popped with response := some (.write .okay) }

/-- 20_memory.md R85, R86, R90, R91: a write to a RW window word while BUSY = 0 sets exactly the elements the word holds
(element 4k + j from byte j, element 32k + j from bit j; element 511 of SHAPE is not storage), changes no other element and
no register; a write to a RO window is ignored and completes OKAY. -/
def Obligations.WindowWrites : Prop :=
  ∀ (s : State) (k : Nat) (v : Word), s.busy = false →
    (k < 1024 → HostNext s (memWrite (0x1000 + 4 * k) v) →
      ∃ t, step s = .next t ∧
        t = { s.popped with response := some (.write .okay), mem := { s.mem with text := t.mem.text } } ∧
        ∀ i, Buf.get t.mem.text i =
          if 4 * k ≤ i ∧ i < 4 * k + 4 then some (v.extractLsb' (8 * (i - 4 * k)) 8) else Buf.get s.mem.text i) ∧
    (k < 64 → HostNext s (memWrite (0x3100 + 4 * k) v) →
      ∃ t, step s = .next t ∧
        t = { s.popped with response := some (.write .okay), mem := { s.mem with leaves := t.mem.leaves } } ∧
        ∀ i, Buf.get t.mem.leaves i =
          if 4 * k ≤ i ∧ i < 4 * k + 4 then some (v.extractLsb' (8 * (i - 4 * k)) 8) else Buf.get s.mem.leaves i) ∧
    (k < 16 → HostNext s (memWrite (0x3000 + 4 * k) v) →
      ∃ t, step s = .next t ∧
        t = { s.popped with response := some (.write .okay), mem := { s.mem with shape := t.mem.shape } } ∧
        ∀ i, Buf.get t.mem.shape i =
          if 32 * k ≤ i ∧ i < 32 * k + 32 ∧ i < 511 then some (v.getLsbD (i - 32 * k)) else Buf.get s.mem.shape i) ∧
    (k < 1024 → HostNext s (memWrite (0x4000 + 4 * k) v) →
      ∃ t, step s = .next t ∧
        t = { s.popped with response := some (.write .okay), mem := { s.mem with bits := t.mem.bits } } ∧
        ∀ i, Buf.get t.mem.bits i =
          if 32 * k ≤ i ∧ i < 32 * k + 32 then some (v.getLsbD (i - 32 * k)) else Buf.get s.mem.bits i) ∧
    (k < 1024 → HostNext s (memWrite (0x2000 + 4 * k) v) →
      step s = .next { s.popped with response := some (.write .okay) }) ∧
    (k < 256 → HostNext s (memWrite (0x5000 + 4 * k) v) →
      step s = .next { s.popped with response := some (.write .okay) }) ∧
    (k < 1022 → HostNext s (memWrite (0x6000 + 4 * k) v) →
      step s = .next { s.popped with response := some (.write .okay) })

/-- 20_memory.md R85, R86, R90, R95: a read of a RW window word returns what the write before it left; SHAPE bit 511 reads
0. (`turns` is empty, so the host makes both moves: log entry 6.) -/
def Obligations.WindowReadAfterWrite : Prop :=
  ∀ (s : State) (off : Nat) (v : Word) (rest : List BusReq), s.rst = false → s.busy = false → s.turns = [] →
    off % 4 = 0 →
    (0x1000 ≤ off ∧ off < 0x2000 ∨ 0x3000 ≤ off ∧ off < 0x3040 ∨ 0x3100 ≤ off ∧ off < 0x3200 ∨
      0x4000 ≤ off ∧ off < 0x5000) →
    s.requests = memWrite off v :: memRead off :: rest →
      ∃ t u, step s = .next t ∧ step t = .next u ∧
        u.response = some (.read (if off = 0x303C then v &&& 0x7FFFFFFF#32 else v) .okay)

/-- 20_memory.md R85, R86, R90, R92: a read of a word of TEXT, OUT, LEAVES, SHAPE or BITS while BUSY = 0 answers OKAY with the
elements it holds, whoever wrote them (element 4k + j in byte j, element 32k + j in bit j, SHAPE element 511 reads 0), and
changes no state; the parts of unwritten elements are left free. -/
def Obligations.OutWindowReads : Prop :=
  ∀ (s : State) (k : Nat), s.busy = false →
    (k < 1024 → HostNext s (memRead (0x1000 + 4 * k)) → AnswersRead s (ShowsSymbols s.mem.text k)) ∧
    (k < 1024 → HostNext s (memRead (0x2000 + 4 * k)) → AnswersRead s (ShowsSymbols s.mem.out k)) ∧
    (k < 64 → HostNext s (memRead (0x3100 + 4 * k)) → AnswersRead s (ShowsSymbols s.mem.leaves k)) ∧
    (k < 16 → HostNext s (memRead (0x3000 + 4 * k)) → AnswersRead s (ShowsBits 511 s.mem.shape k)) ∧
    (k < 1024 → HostNext s (memRead (0x4000 + 4 * k)) → AnswersRead s (ShowsBits 32768 s.mem.bits k))

/-- 20_memory.md R87: the word at 0x5000 + 4x reads FREQ[x], zero-extended (an unwritten entry reads as a free value,
zero-extended). -/
def Obligations.FreqWindowReads : Prop :=
  ∀ (s : State) (x : Nat), s.busy = false → x < 256 → HostNext s (memRead (0x5000 + 4 * x)) →
    ∃ t d, step s = .next t ∧ t.response = some (.read d .okay) ∧
      (∀ c, Buf.get s.mem.freq x = some c → d = c.setWidth 32) ∧ d.extractLsb' 16 16 = 0#16

/-- 20_memory.md R88: the two words of an arena entry, with the fields a leaf or an internal node shows, and 0 for an entry
that is not allocated. -/
def Obligations.NodeWindowReads : Prop :=
  ∀ (s : State) (i : Nat), s.busy = false → i < 511 →
    (HostNext s (memRead (0x6000 + 8 * i)) →
      ∃ t d, step s = .next t ∧ t.response = some (.read d .okay) ∧
        (∀ slot nd, s.tree = some slot → slot.nodes[i]? = some nd →
          d.extractLsb' 0 9 = (if nd.leaf then 0#9 else nd.zero) ∧
          d.extractLsb' 9 9 = (if nd.leaf then 0#9 else nd.one) ∧
          d.extractLsb' 18 8 = (if nd.leaf then nd.sym else 0#8) ∧ d.extractLsb' 26 4 = 0#4 ∧
          d.getLsbD 30 = nd.leaf ∧ d.getLsbD 31 = true) ∧
        (s.tree = none → d = 0#32) ∧ ∀ slot, s.tree = some slot → slot.nodeCount ≤ i → d = 0#32) ∧
    (HostNext s (memRead (0x6004 + 8 * i)) →
      ∃ t d, step s = .next t ∧ t.response = some (.read d .okay) ∧
        (∀ slot nd, s.tree = some slot → slot.nodes[i]? = some nd → d = nd.weight.setWidth 32) ∧
        (s.tree = none → d = 0#32) ∧ ∀ slot, s.tree = some slot → slot.nodeCount ≤ i → d = 0#32)

/-! ### The interrupt -/

/-- 10_state.md R63, 60_exceptions.md R273, 70_reset_and_hazards.md R298: IRQ = DONE AND DONE_IE. A completion, success or
error, raises it when it is enabled; a STATUS write with bit 1, masking and acceptance clear it; enabling it while DONE = 1
raises it at once; and DONE stays 1 until it is cleared, the next command is accepted, or reset is asserted. That DONE and
IRQ fall when reset is asserted, and not when it is released, is the model's choice (log entry 8): the last clause rests on
it. -/
def Obligations.InterruptFollowsDone : Prop :=
  (∀ s : State, s.irq = (s.done && s.doneIe)) ∧ (∀ i s t, exec i s = .next t → t.irq = s.doneIe) ∧
    (∀ (s : State) (w : Word), IllegalCommand w → ∃ t, runPending w s = .next t ∧ t.irq = s.doneIe) ∧
    (∀ (s : State) (v : Word), HostNext s (memWrite 0x0008 v) → v.getLsbD 1 = true →
      ∃ t, step s = .next t ∧ t.irq = false) ∧
    (∀ (s : State) (v : Word), HostNext s (memWrite 0x000C v) → v.getLsbD 0 = false →
      ∃ t, step s = .next t ∧ t.irq = false ∧ t.done = s.done) ∧
    (∀ (s : State) (v : Word), HostNext s (memWrite 0x0004 v) → s.busy = false →
      ∃ t, step s = .next t ∧ t.irq = false) ∧
    (∀ (s : State) (v : Word), HostNext s (memWrite 0x000C v) → v.getLsbD 0 = true → s.done = true →
      ∃ t, step s = .next t ∧ t.irq = true) ∧
    ∀ s t : State, step s = .next t → s.done = true → t.done = false →
      t.rst = true ∨ ∃ r, HostNext s r ∧ r.write = true ∧
        (r.off = 0x0008#16 ∧ r.wdata.getLsbD 1 = true ∨ r.off = 0x0004#16 ∧ s.busy = false)

/-! ### The whole machine -/

/-- 20_memory.md R93, R99: whatever the host presents while a command is in flight, the command in flight, its inputs, the
tree slot and every result register are as before; only DONE, DONE_IE and the response can change. -/
def Obligations.HostCannotDisturbACommand : Prop :=
  ∀ (s : State) (r : BusReq), HostNext s r → s.busy = true →
    ∃ t, step s = .next t ∧
      t = { s.popped with done := t.done, doneIe := t.doneIe, response := t.response, draws := t.draws }

/-- The invariant of Safety.lean (buffers canonical and within capacity, the tree-slot invariant 10_state.md R47, OUT_LEN
within OUT_MAX, the flags of a command in flight, the reset values while reset is asserted) is kept by every step.
That last part, `State.resetOk`, is the model's choice (log entry 8): the spec says what registers and buffers hold when
reset is released. -/
def Obligations.StepKeepsTheInvariant : Prop := ∀ s t : State, s.Inv → step s = .next t → t.Inv

/-- 20_memory.md R102, 60_exceptions.md R263, R275: from every state that meets the invariant the machine goes on, with no
fault and no refusal, and an engine move completes the command in flight, as does the next move where `turns` is empty (the
default order, log entry 6, which R275 allows). -/
def Obligations.GoodStatesGoOn : Prop :=
  ∀ s : State, s.Inv →
    ∃ t, step s = .next t ∧
      (s.rst = false → s.busy = true → (s.turns = [] ∨ s.turns.head? = some .engine) → t.busy = false ∧ t.done = true)
end

