-- ==== Sys2Proof/Laws/Buf.lean ====
section
/-! SUPPORT. Element buffers: what a read gives after each write, and that every write keeps the canonical form. -/

namespace Sys2Proof.Machine

variable {α : Type}

/-! ### reads after writes -/

@[simp] theorem Buf.get_nil (i : Nat) : Buf.get ([] : Buf α) i = none := rfl

theorem Buf.get_set (b : Buf α) (i j : Nat) (x : α) :
    Buf.get (Buf.set b i x) j = if j = i then some x else Buf.get b j := by
  induction b with
  | nil => simp [Buf.set, Buf.get]
  | cons c b ih =>
    obtain ⟨k, y⟩ := c
    simp only [Buf.set]
    split
    · simp [Buf.get]
    · split
      · subst_vars
        by_cases h : j = k <;> simp [Buf.get, h]
      · simp only [Buf.get, ih]
        by_cases h : j = k
        · subst h
          have : ¬ j = i := by omega
          simp [this]
        · simp [h]

theorem Buf.get_ofList (xs : List α) (i j : Nat) :
    Buf.get (Buf.ofList i xs) j = if i ≤ j then xs[j - i]? else none := by
  induction xs generalizing i with
  | nil => simp [Buf.ofList]
  | cons x xs ih =>
    simp only [Buf.ofList, Buf.get, ih]
    by_cases h : j = i
    · subst h; simp
    · by_cases h2 : i ≤ j
      · obtain ⟨k, rfl⟩ : ∃ k, j = i + 1 + k := ⟨j - i - 1, by omega⟩
        have e1 : i + 1 + k - i = k + 1 := by omega
        have e2 : i + 1 + k - (i + 1) = k := by omega
        simp [h, h2, e1, e2]
      · simp [h, h2]
        omega

theorem Buf.get_append (a b : Buf α) (i : Nat) : Buf.get (a ++ b) i = (Buf.get a i).or (Buf.get b i) := by
  induction a with
  | nil => simp
  | cons c a ih =>
    obtain ⟨k, y⟩ := c
    simp only [List.cons_append, Buf.get]
    split <;> simp [ih]

theorem Buf.get_filter (b : Buf α) (n i : Nat) :
    Buf.get (b.filter (fun c => decide (n ≤ c.1))) i = if n ≤ i then Buf.get b i else none := by
  induction b with
  | nil => simp
  | cons c b ih =>
    obtain ⟨k, y⟩ := c
    simp only [List.filter_cons]
    by_cases hk : n ≤ k
    · simp only [hk, decide_true, if_true, Buf.get, ih]
      by_cases h : i = k
      · subst h; simp [hk]
      · simp [h]
    · simp only [hk, decide_false, Buf.get, Bool.false_eq_true, if_false, ih]
      by_cases h : i = k
      · subst h; simp [hk]
      · simp [h]

/-- The one lemma about a command's output (D29): below the new length the new sequence, from there on the old contents. -/
theorem Buf.get_overwrite (b : Buf α) (xs : List α) (i : Nat) :
    Buf.get (Buf.overwrite b xs) i = if i < xs.length then xs[i]? else Buf.get b i := by
  rw [Buf.overwrite, Buf.get_append, Buf.get_ofList, Buf.get_filter]
  by_cases h : i < xs.length
  · have : ¬ xs.length ≤ i := by omega
    simp [h]
  · have h' : xs.length ≤ i := by omega
    simp [h']

/-- The one lemma about a host window write (20_memory.md R90): the elements of the word that are storage are set, every
other element keeps its contents. -/
theorem Buf.get_setMany (cap : Nat) (b : Buf α) (i j : Nat) (xs : List α) :
    Buf.get (Buf.setMany cap b i xs) j =
      if i ≤ j ∧ j < i + xs.length ∧ j < cap then xs[j - i]? else Buf.get b j := by
  induction xs generalizing b i with
  | nil =>
    have : ¬ (i ≤ j ∧ j < i + ([] : List α).length ∧ j < cap) := by simp; omega
    rw [if_neg this]; rfl
  | cons x xs ih =>
    simp only [Buf.setMany, ih, List.length_cons]
    by_cases h : j = i
    · subst h
      have h0 : ¬ (j + 1 ≤ j ∧ j < j + 1 + xs.length ∧ j < cap) := by omega
      rw [if_neg h0]
      by_cases hc : j < cap
      · simp [hc, Buf.get_set]
      · simp [hc]
    · by_cases h1 : i + 1 ≤ j ∧ j < i + 1 + xs.length ∧ j < cap
      · have h2 : i ≤ j ∧ j < i + (xs.length + 1) ∧ j < cap := by omega
        obtain ⟨k, rfl⟩ : ∃ k, j = i + 1 + k := ⟨j - i - 1, by omega⟩
        have e1 : i + 1 + k - i = k + 1 := by omega
        have e2 : i + 1 + k - (i + 1) = k := by omega
        rw [if_pos h1, if_pos h2, e1, e2]; simp
      · have h2 : ¬ (i ≤ j ∧ j < i + (xs.length + 1) ∧ j < cap) := by omega
        rw [if_neg h1, if_neg h2]
        split
        · simp [Buf.get_set, h]
        · rfl

theorem Buf.length_readMany (b : Buf α) (draw : Nat → α) (i n : Nat) : (Buf.readMany b draw i n).length = n := by
  induction n generalizing i with
  | zero => rfl
  | succ n ih => simp [Buf.readMany, ih]

theorem Buf.getElem?_readMany (b : Buf α) (draw : Nat → α) (i n j : Nat) :
    (Buf.readMany b draw i n)[j]? = if j < n then some (Buf.read b draw (i + j)) else none := by
  induction n generalizing i j with
  | zero => simp [Buf.readMany]
  | succ n ih =>
    cases j with
    | zero => simp [Buf.readMany]
    | succ j =>
      simp only [Buf.readMany, List.getElem?_cons_succ, ih]
      have : i + 1 + j = i + (j + 1) := by omega
      simp [this]

/-- Reading back a sequence that is written, whatever would be drawn elsewhere. -/
theorem Buf.readMany_eq (b : Buf α) (draw : Nat → α) (xs : List α)
    (h : ∀ i, i < xs.length → Buf.get b i = xs[i]?) : Buf.readMany b draw 0 xs.length = xs := by
  apply List.ext_getElem?
  intro j
  rw [Buf.getElem?_readMany]
  by_cases hj : j < xs.length
  · simp [hj, Buf.read, h j hj]
  · simp [hj]

/-- A written sequence does not depend on the draws. -/
theorem Buf.readMany_written (b : Buf α) (draw draw' : Nat → α) (n : Nat)
    (h : ∀ i, i < n → (Buf.get b i).isSome) : Buf.readMany b draw 0 n = Buf.readMany b draw' 0 n := by
  apply List.ext_getElem?
  intro j
  simp only [Buf.getElem?_readMany]
  by_cases hj : j < n
  · obtain ⟨x, hx⟩ := Option.isSome_iff_exists.mp (h j hj)
    simp [hj, Buf.read, hx]
  · simp [hj]

/-! ### the canonical form -/

theorem Buf.wfFrom_mono {cap lo lo' : Nat} {b : Buf α} (h : Buf.wfFrom cap lo b = true) (hl : lo' ≤ lo) :
    Buf.wfFrom cap lo' b = true := by
  cases b with
  | nil => rfl
  | cons c b =>
    obtain ⟨k, y⟩ := c
    simp only [Buf.wfFrom, Bool.and_eq_true, decide_eq_true_eq] at h ⊢
    exact ⟨⟨by omega, h.1.2⟩, h.2⟩

theorem Buf.wfFrom_set {cap lo i : Nat} {b : Buf α} (x : α) (h : Buf.wfFrom cap lo b = true) (hl : lo ≤ i)
    (hc : i < cap) : Buf.wfFrom cap lo (Buf.set b i x) = true := by
  induction b generalizing lo with
  | nil => simp [Buf.set, Buf.wfFrom, hl, hc]
  | cons c b ih =>
    obtain ⟨k, y⟩ := c
    simp only [Buf.wfFrom, Bool.and_eq_true, decide_eq_true_eq] at h
    simp only [Buf.set]
    split
    · simp only [Buf.wfFrom, Bool.and_eq_true, decide_eq_true_eq]
      exact ⟨⟨hl, hc⟩, ⟨by omega, h.1.2⟩, h.2⟩
    · split
      · subst_vars
        simp only [Buf.wfFrom, Bool.and_eq_true, decide_eq_true_eq]
        exact ⟨⟨hl, hc⟩, h.2⟩
      · simp only [Buf.wfFrom, Bool.and_eq_true, decide_eq_true_eq]
        exact ⟨h.1, ih h.2 (by omega)⟩

theorem Buf.wf_set {cap i : Nat} {b : Buf α} (x : α) (h : Buf.wf cap b = true) (hc : i < cap) :
    Buf.wf cap (Buf.set b i x) = true := Buf.wfFrom_set x h (Nat.zero_le _) hc

theorem Buf.wf_setMany {cap i : Nat} {b : Buf α} (xs : List α) (h : Buf.wf cap b = true) :
    Buf.wf cap (Buf.setMany cap b i xs) = true := by
  induction xs generalizing b i with
  | nil => exact h
  | cons x xs ih =>
    apply ih
    split
    · exact Buf.wf_set x h ‹_›
    · exact h

theorem Buf.le_of_mem_wfFrom {cap lo : Nat} {b : Buf α} (h : Buf.wfFrom cap lo b = true) : ∀ c ∈ b, lo ≤ c.1 := by
  induction b generalizing lo with
  | nil => simp
  | cons d b ih =>
    obtain ⟨m, z⟩ := d
    simp only [Buf.wfFrom, Bool.and_eq_true, decide_eq_true_eq] at h
    intro c hc
    rcases List.mem_cons.mp hc with rfl | hc
    · exact h.1.1
    · have := ih h.2 c hc
      omega

theorem Buf.wfFrom_filter {cap lo n : Nat} {b : Buf α} (h : Buf.wfFrom cap lo b = true) (hn : lo ≤ n) :
    Buf.wfFrom cap n (b.filter (fun c => decide (n ≤ c.1))) = true := by
  induction b generalizing lo n with
  | nil => rfl
  | cons c b ih =>
    obtain ⟨k, y⟩ := c
    simp only [Buf.wfFrom, Bool.and_eq_true, decide_eq_true_eq] at h
    by_cases hk : n ≤ k
    · have hb : b.filter (fun c => decide (n ≤ c.1)) = b.filter (fun c => decide (k + 1 ≤ c.1)) := by
        apply List.filter_congr
        intro c hc
        have := Buf.le_of_mem_wfFrom h.2 c hc
        simp only [decide_eq_decide]
        omega
      simp only [List.filter_cons, hk, decide_true, if_true, Buf.wfFrom, Bool.true_and, h.1.2]
      rw [hb]
      exact ih h.2 (le_refl _)
    · simp only [List.filter_cons, hk, decide_false]
      exact ih h.2 (by omega)

theorem Buf.wfFrom_ofList_append {cap lo : Nat} (xs : List α) {b : Buf α} (hc : lo + xs.length ≤ cap)
    (h : Buf.wfFrom cap (lo + xs.length) b = true) : Buf.wfFrom cap lo (Buf.ofList lo xs ++ b) = true := by
  induction xs generalizing lo with
  | nil => exact h
  | cons x xs ih =>
    simp only [List.length_cons] at hc h
    simp only [Buf.ofList, List.cons_append, Buf.wfFrom, Bool.and_eq_true, decide_eq_true_eq, le_refl, true_and]
    refine ⟨by omega, ih (by omega) ?_⟩
    have : lo + 1 + xs.length = lo + (xs.length + 1) := by omega
    rw [this]; exact h

theorem Buf.wf_overwrite {cap : Nat} {b : Buf α} (xs : List α) (h : Buf.wf cap b = true) (hc : xs.length ≤ cap) :
    Buf.wf cap (Buf.overwrite b xs) = true := by
  apply Buf.wfFrom_ofList_append
  · simpa using hc
  · simpa using Buf.wfFrom_filter h (Nat.zero_le _)

theorem Buf.wf_ofList {cap : Nat} (xs : List α) (hc : xs.length ≤ cap) : Buf.wf cap (Buf.ofList 0 xs) = true := by
  have := Buf.wfFrom_ofList_append (cap := cap) (lo := 0) xs (b := []) (by simpa using hc) rfl
  rw [List.append_nil] at this
  exact this

@[simp] theorem Buf.wf_nil (cap : Nat) : Buf.wf cap ([] : Buf α) = true := rfl

/-- A well-formed buffer lists nothing at or beyond its capacity. -/
theorem Buf.get_of_wf {cap i : Nat} {b : Buf α} (h : Buf.wf cap b = true) (hi : cap ≤ i) : Buf.get b i = none := by
  have : ∀ lo, Buf.wfFrom cap lo b = true → Buf.get b i = none := by
    induction b with
    | nil => intros; rfl
    | cons c b ih =>
      obtain ⟨k, y⟩ := c
      intro lo h
      simp only [Buf.wfFrom, Bool.and_eq_true, decide_eq_true_eq] at h
      have hk : ¬ i = k := by omega
      simp only [Buf.get, hk, if_false]
      exact ih (Buf.wfFrom_mono h.2 (Nat.zero_le _)) _ h.2
  exact this 0 h

end Sys2Proof.Machine
end

