-- ==== Sys2Proof/Laws/State.lean ====
section
/-! SUPPORT. What each whole-state operation does to each field: one lemma per field, so that no proof unfolds a record
update. -/

namespace Sys2Proof.Machine

/-- The constraints of 00_scope.md R9 on the parameters, with SYM_W = 8, IDX_W = 9, CNT_W = LEN_W = 16, CODELEN_W = 8. -/
theorem parameters_meet_constraints :
    Config.NSYM = 2 ^ 8 ∧ Config.LEAVES_MAX = Config.NSYM ∧ Config.SHAPE_MAX = 2 * Config.LEAVES_MAX - 1 ∧
      Config.SHAPE_MAX ≤ Config.NODE_MAX ∧ Config.NODE_MAX ≤ 2 ^ 9 ∧ Config.TEXT_MAX < 2 ^ 16 ∧ Config.OUT_MAX < 2 ^ 16 ∧
      Config.BITS_MAX < 2 ^ 16 ∧ (Config.SHAPE_MAX - 1) / 2 < 2 ^ 8 ∧ 8 * Config.TEXT_MAX ≤ Config.BITS_MAX := by decide

variable (s : State) (w : Word) (c : ErrCode) (p : Nat)

/-! ### release -/
@[simp] theorem release_pending : s.release.pending = s.pending := rfl
@[simp] theorem release_done : s.release.done = s.done := rfl
@[simp] theorem release_errCode : s.release.errCode = s.errCode := rfl
@[simp] theorem release_doneIe : s.release.doneIe = s.doneIe := rfl
@[simp] theorem release_textLen : s.release.textLen = s.textLen := rfl
@[simp] theorem release_shapeLen : s.release.shapeLen = s.shapeLen := rfl
@[simp] theorem release_leavesLen : s.release.leavesLen = s.leavesLen := rfl
@[simp] theorem release_bitsLen : s.release.bitsLen = s.bitsLen := rfl
@[simp] theorem release_outLen : s.release.outLen = s.outLen := rfl
@[simp] theorem release_errPos : s.release.errPos = s.errPos := rfl
@[simp] theorem release_lastCmd : s.release.lastCmd = s.lastCmd := rfl
@[simp] theorem release_tree : s.release.tree = none := rfl
@[simp] theorem release_mem : s.release.mem = s.mem := rfl
@[simp] theorem release_rst : s.release.rst = s.rst := rfl
@[simp] theorem release_requests : s.release.requests = s.requests := rfl
@[simp] theorem release_response : s.release.response = s.response := rfl
@[simp] theorem release_turns : s.release.turns = s.turns := rfl
@[simp] theorem release_draws : s.release.draws = s.draws := rfl

/-! ### accept -/
@[simp] theorem accept_pending : (s.accept w).pending = some w := rfl
@[simp] theorem accept_done : (s.accept w).done = false := rfl
@[simp] theorem accept_errCode : (s.accept w).errCode = .ok := rfl
@[simp] theorem accept_doneIe : (s.accept w).doneIe = s.doneIe := rfl
@[simp] theorem accept_textLen : (s.accept w).textLen = s.textLen := rfl
@[simp] theorem accept_shapeLen : (s.accept w).shapeLen = s.shapeLen := rfl
@[simp] theorem accept_leavesLen : (s.accept w).leavesLen = s.leavesLen := rfl
@[simp] theorem accept_bitsLen : (s.accept w).bitsLen = s.bitsLen := rfl
@[simp] theorem accept_outLen : (s.accept w).outLen = s.outLen := rfl
@[simp] theorem accept_errPos : (s.accept w).errPos = s.errPos := rfl
@[simp] theorem accept_lastCmd : (s.accept w).lastCmd = w := rfl
@[simp] theorem accept_tree : (s.accept w).tree = s.tree := rfl
@[simp] theorem accept_mem : (s.accept w).mem = s.mem := rfl
@[simp] theorem accept_rst : (s.accept w).rst = s.rst := rfl
@[simp] theorem accept_requests : (s.accept w).requests = s.requests := rfl
@[simp] theorem accept_response : (s.accept w).response = s.response := rfl
@[simp] theorem accept_turns : (s.accept w).turns = s.turns := rfl
@[simp] theorem accept_draws : (s.accept w).draws = s.draws := rfl

/-! ### complete -/
@[simp] theorem complete_pending : (s.complete c p).pending = none := rfl
@[simp] theorem complete_done : (s.complete c p).done = true := rfl
@[simp] theorem complete_errCode : (s.complete c p).errCode = c := rfl
@[simp] theorem complete_doneIe : (s.complete c p).doneIe = s.doneIe := rfl
@[simp] theorem complete_textLen : (s.complete c p).textLen = s.textLen := rfl
@[simp] theorem complete_shapeLen : (s.complete c p).shapeLen = s.shapeLen := rfl
@[simp] theorem complete_leavesLen : (s.complete c p).leavesLen = s.leavesLen := rfl
@[simp] theorem complete_bitsLen : (s.complete c p).bitsLen = s.bitsLen := rfl
@[simp] theorem complete_outLen : (s.complete c p).outLen = s.outLen := rfl
@[simp] theorem complete_errPos : (s.complete c p).errPos = BitVec.ofNat 16 p := rfl
@[simp] theorem complete_lastCmd : (s.complete c p).lastCmd = s.lastCmd := rfl
@[simp] theorem complete_tree : (s.complete c p).tree = s.tree := rfl
@[simp] theorem complete_mem : (s.complete c p).mem = s.mem := rfl
@[simp] theorem complete_rst : (s.complete c p).rst = s.rst := rfl
@[simp] theorem complete_requests : (s.complete c p).requests = s.requests := rfl
@[simp] theorem complete_response : (s.complete c p).response = s.response := rfl
@[simp] theorem complete_turns : (s.complete c p).turns = s.turns := rfl
@[simp] theorem complete_draws : (s.complete c p).draws = s.draws + 1 := rfl

/-! ### reset -/
@[simp] theorem assertReset_rst : s.assertReset.rst = true := rfl
@[simp] theorem assertReset_requests : s.assertReset.requests = s.requests := rfl
@[simp] theorem assertReset_turns : s.assertReset.turns = s.turns := rfl
@[simp] theorem assertReset_draws : s.assertReset.draws = s.draws := rfl
@[simp] theorem assertReset_pending : s.assertReset.pending = none := rfl
@[simp] theorem assertReset_tree : s.assertReset.tree = none := rfl
@[simp] theorem assertReset_mem : s.assertReset.mem = Memory.unwritten := rfl
@[simp] theorem releaseReset_rst : s.releaseReset.rst = false := rfl
@[simp] theorem releaseReset_pending : s.releaseReset.pending = s.pending := rfl
@[simp] theorem releaseReset_tree : s.releaseReset.tree = s.tree := rfl
@[simp] theorem releaseReset_mem : s.releaseReset.mem = s.mem := rfl

/-! ### the derived flags -/
@[simp] theorem accept_busy : (s.accept w).busy = true := rfl
@[simp] theorem complete_busy : (s.complete c p).busy = false := rfl
@[simp] theorem release_treeValid : s.release.treeValid = false := rfl
@[simp] theorem complete_treeValid : (s.complete c p).treeValid = s.treeValid := rfl

/-- ERR follows ERRCODE (10_state.md R37): it is 0 exactly when the result is OK. -/
theorem err_eq_false_iff : s.err = false ↔ s.errCode = .ok := by
  unfold State.err
  cases s.errCode <;> simp [ErrCode.bits]

/-- The codes of 60_exceptions.md R260 are pairwise different. -/
theorem ErrCode.bits_injective : Function.Injective ErrCode.bits := by
  intro a b h
  cases a <;> cases b <;> first | rfl | (simp [ErrCode.bits] at h)

/-! ### whole updates -/

theorem release_release : s.release.release = s.release := rfl

end Sys2Proof.Machine
end

