-- ==== Sys2Proof/Laws/Tree.lean ====
section
/-! SUPPORT. Arenas and abstract trees: the relation `Occupies` between an entry, its tree and the indices the tree takes,
what the fuelled walks answer under it, and what the tree-slot invariant R47 gives. -/

namespace Sys2Proof.Machine

/-! ### abstract trees -/

@[simp] theorem Tree.shape_ne_nil (t : Tree) : t.shape ≠ [] := by cases t <;> simp [Tree.shape]

@[simp] theorem Tree.leaves_ne_nil (t : Tree) : t.leaves ≠ [] := by
  induction t <;> simp_all [Tree.leaves]

theorem Tree.shape_pos (t : Tree) : 0 < t.shape.length := by cases t <;> simp [Tree.shape]

theorem Tree.leaves_pos (t : Tree) : 0 < t.leaves.length := List.length_pos_iff.mpr t.leaves_ne_nil

/-- 2L - 1 shape bits for L leaves (41_tree_codec.md R184). -/
theorem Tree.shape_length (t : Tree) : t.shape.length + 1 = 2 * t.leaves.length := by
  induction t with
  | leaf => simp [Tree.shape, Tree.leaves]
  | node z o hz ho => simp only [Tree.shape, Tree.leaves, List.length_cons, List.length_append]; omega

/-- L of them are 0 and L - 1 are 1 (R184). -/
theorem Tree.shape_count_false (t : Tree) : t.shape.count false = t.leaves.length := by
  induction t with
  | leaf => simp [Tree.shape, Tree.leaves]
  | node z o hz ho => simp [Tree.shape, Tree.leaves, hz, ho]

theorem Tree.shape_count_true (t : Tree) : t.shape.count true + 1 = t.leaves.length := by
  induction t with
  | leaf => simp [Tree.shape, Tree.leaves]
  | node z o hz ho => simp [Tree.shape, Tree.leaves]; omega

/-- n nodes have depth at most (n - 1) / 2 (00_scope.md R11, 41_tree_codec.md R191). -/
theorem Tree.depth_le (t : Tree) : 2 * t.depth + 1 ≤ t.shape.length := by
  induction t with
  | leaf => simp [Tree.shape, Tree.depth]
  | node z o hz ho =>
    have h1 := z.shape_pos
    have h2 := o.shape_pos
    simp only [Tree.shape, Tree.depth, List.length_cons, List.length_append]
    omega

theorem TreeEq_iff (a b : Tree) : TreeEq a b = true ↔ a = b := by
  induction a generalizing b with
  | leaf s => cases b <;> simp [TreeEq]
  | node z o hz ho => cases b <;> simp [TreeEq, hz, ho]

/-- No shape is a proper beginning of another's: the pre-order bits say where the tree ends. -/
theorem Tree.shape_append_inj {t u : Tree} {a b : List Bool} (h : t.shape ++ a = u.shape ++ b) :
    t.shape = u.shape ∧ a = b := by
  induction t generalizing u a b with
  | leaf s =>
    cases u with
    | leaf s' => simpa [Tree.shape] using h
    | node z o => simp [Tree.shape] at h
  | node z o hz ho =>
    cases u with
    | leaf s' => simp [Tree.shape] at h
    | node z' o' =>
      simp only [Tree.shape, List.cons_append, List.append_assoc, List.cons.injEq, true_and] at h
      obtain ⟨e1, h1⟩ := hz h
      obtain ⟨e2, h2⟩ := ho h1
      simp [Tree.shape, e1, e2, h2]

/-- The two sequences of a tree determine it. -/
theorem Tree.ext_of_seqs {t u : Tree} (hs : t.shape = u.shape) (hl : t.leaves = u.leaves) : t = u := by
  have key : ∀ (t u : Tree) (a b : List Symbol), t.shape = u.shape → t.leaves ++ a = u.leaves ++ b → t = u ∧ a = b := by
    intro t
    induction t with
    | leaf s =>
      intro u a b h1 h2
      cases u with
      | leaf s' => simpa [Tree.leaves] using h2
      | node z o => simp [Tree.shape] at h1
    | node z o hz ho =>
      intro u a b h1 h2
      cases u with
      | leaf s' => simp [Tree.shape] at h1
      | node z' o' =>
        simp only [Tree.shape, List.cons.injEq, true_and] at h1
        obtain ⟨e1, e2⟩ := Tree.shape_append_inj h1
        simp only [Tree.leaves, List.append_assoc] at h2
        obtain ⟨rfl, h3⟩ := hz _ _ _ e1 h2
        obtain ⟨rfl, h4⟩ := ho _ _ _ e2 h3
        exact ⟨rfl, h4⟩
  exact (key t u [] [] hs (by simpa using hl)).1

/-! ### the relation between an arena entry and its tree -/

/-- Entry `i` denotes the tree `t` (10_state.md R46), which takes the indices `v`, in pre-order. -/
inductive Occupies (nodes : List Node) : Nat → Tree → List Nat → Prop
  | leaf {i : Nat} {nd : Node} (hi : nodes[i]? = some nd) (hl : nd.leaf = true) : Occupies nodes i (.leaf nd.sym) [i]
  | node {i : Nat} {nd : Node} {z o : Tree} {vz vo : List Nat} (hi : nodes[i]? = some nd) (hl : nd.leaf = false)
      (hz : Occupies nodes nd.zero.toNat z vz) (ho : Occupies nodes nd.one.toNat o vo) :
      Occupies nodes i (.node z o) (i :: (vz ++ vo))

theorem Occupies.length {nodes : List Node} {i : Nat} {t : Tree} {v : List Nat} (h : Occupies nodes i t v) :
    v.length = t.shape.length := by
  induction h with
  | leaf => rfl
  | node _ _ _ _ ihz iho => simp [Tree.shape, ihz, iho]

theorem Occupies.lt {nodes : List Node} {i : Nat} {t : Tree} {v : List Nat} (h : Occupies nodes i t v) :
    ∀ j ∈ v, j < nodes.length := by
  induction h with
  | leaf hi _ =>
    intro j hj
    rw [List.mem_singleton.mp hj]
    exact (List.getElem?_eq_some_iff.mp hi).1
  | node hi _ _ _ ihz iho =>
    intro j hj
    rcases List.mem_cons.mp hj with rfl | hj
    · exact (List.getElem?_eq_some_iff.mp hi).1
    · rcases List.mem_append.mp hj with hj | hj
      · exact ihz j hj
      · exact iho j hj

theorem Occupies.root_mem {nodes : List Node} {i : Nat} {t : Tree} {v : List Nat} (h : Occupies nodes i t v) :
    i ∈ v := by cases h <;> simp

theorem Occupies.root_lt {nodes : List Node} {i : Nat} {t : Tree} {v : List Nat} (h : Occupies nodes i t v) :
    i < nodes.length := h.lt i h.root_mem

theorem Occupies.isLeaf {nodes : List Node} {i : Nat} {t : Tree} {v : List Nat} (h : Occupies nodes i t v) :
    ∃ nd, nodes[i]? = some nd ∧ nd.leaf = !t.isNode ∧ ∀ s, t = .leaf s → nd.sym = s := by
  cases h with
  | leaf hi hl => exact ⟨_, hi, by simp [hl, Tree.isNode], by intro s hs; cases hs; rfl⟩
  | node hi hl hz ho => exact ⟨_, hi, by simp [hl, Tree.isNode], by intro s hs; cases hs⟩

/-- More entries behind the arena change nothing. -/
theorem Occupies.append {nodes more : List Node} {i : Nat} {t : Tree} {v : List Nat} (h : Occupies nodes i t v) :
    Occupies (nodes ++ more) i t v := by
  have key : ∀ {j : Nat} {nd : Node}, nodes[j]? = some nd → (nodes ++ more)[j]? = some nd := by
    intro j nd hj
    rw [List.getElem?_append_left (List.getElem?_eq_some_iff.mp hj).1]
    exact hj
  induction h with
  | leaf hi hl => exact .leaf (key hi) hl
  | node hi hl _ _ ihz iho => exact .node (key hi) hl ihz iho

theorem Occupies.treeAt {nodes : List Node} {i : Nat} {t : Tree} {v : List Nat} (h : Occupies nodes i t v) :
    ∀ fuel, t.depth < fuel → treeAt nodes fuel i = some t := by
  induction h with
  | leaf hi hl =>
    intro fuel hf
    obtain ⟨n, rfl⟩ : ∃ n, fuel = n + 1 := ⟨fuel - 1, by omega⟩
    simp [Machine.treeAt, hi, hl]
  | node hi hl _ _ ihz iho =>
    intro fuel hf
    obtain ⟨n, rfl⟩ : ∃ n, fuel = n + 1 := ⟨fuel - 1, by omega⟩
    simp only [Tree.depth] at hf
    simp [Machine.treeAt, hi, hl, ihz n (by omega), iho n (by omega)]

theorem Occupies.visitAt {nodes : List Node} {i : Nat} {t : Tree} {v : List Nat} (h : Occupies nodes i t v) :
    ∀ fuel, t.depth < fuel → visitAt nodes fuel i = some v := by
  induction h with
  | leaf hi hl =>
    intro fuel hf
    obtain ⟨n, rfl⟩ : ∃ n, fuel = n + 1 := ⟨fuel - 1, by omega⟩
    simp [Machine.visitAt, hi, hl]
  | node hi hl _ _ ihz iho =>
    intro fuel hf
    obtain ⟨n, rfl⟩ : ∃ n, fuel = n + 1 := ⟨fuel - 1, by omega⟩
    simp only [Tree.depth] at hf
    simp [Machine.visitAt, hi, hl, ihz n (by omega), iho n (by omega)]

/-- What a walk that ends has walked. -/
theorem occupies_of_visitAt {nodes : List Node} {fuel i : Nat} {v : List Nat} (h : visitAt nodes fuel i = some v) :
    ∃ t, Occupies nodes i t v := by
  induction fuel generalizing i v with
  | zero => simp [visitAt] at h
  | succ fuel ih =>
    simp only [visitAt] at h
    split at h
    · cases h
    · rename_i nd hi
      split at h
      · cases h; exact ⟨_, .leaf hi ‹_›⟩
      · rename_i hl
        split at h
        · cases h
        · rename_i vz hz
          split at h
          · cases h
          · rename_i vo ho
            cases h
            obtain ⟨z, hz⟩ := ih hz
            obtain ⟨o, ho⟩ := ih ho
            exact ⟨_, .node hi (by simpa using hl) hz ho⟩

/-! ### the walks of the commands, in terms of the tree -/

theorem flatAt_eq (nodes : List Node) (fuel i : Nat) :
    flatAt nodes fuel i = (treeAt nodes fuel i).map (fun t => (t.shape, t.leaves)) := by
  induction fuel generalizing i with
  | zero => rfl
  | succ fuel ih =>
    simp only [flatAt, treeAt]
    cases nodes[i]? with
    | none => rfl
    | some nd =>
      cases hl : nd.leaf with
      | true => simp [Tree.shape, Tree.leaves, hl]
      | false =>
        simp only [hl, Bool.false_eq_true, if_false, ih]
        cases treeAt nodes fuel nd.zero.toNat with
        | none => rfl
        | some z =>
          cases treeAt nodes fuel nd.one.toNat with
          | none => rfl
          | some o => rfl

/-- The leaves of a tree with their paths, in pre-order, below the path `p` (42_message_codec.md R211). -/
def Tree.paths : Tree → List Bool → List (Symbol × List Bool)
  | .leaf s, p => [(s, p)]
  | .node z o, p => z.paths (p ++ [false]) ++ o.paths (p ++ [true])

theorem pathsAt_eq (nodes : List Node) (fuel i : Nat) (p : List Bool) :
    pathsAt nodes fuel i p = (treeAt nodes fuel i).map (fun t => t.paths p) := by
  induction fuel generalizing i p with
  | zero => rfl
  | succ fuel ih =>
    simp only [pathsAt, treeAt]
    cases nodes[i]? with
    | none => rfl
    | some nd =>
      cases hl : nd.leaf with
      | true => simp [Tree.paths, hl]
      | false =>
        simp only [hl, Bool.false_eq_true, if_false, ih]
        cases treeAt nodes fuel nd.zero.toNat with
        | none => rfl
        | some z =>
          cases treeAt nodes fuel nd.one.toNat with
          | none => rfl
          | some o => rfl

theorem codeOf_append (a b : List (Symbol × List Bool)) (s : Symbol) :
    codeOf (a ++ b) s = (codeOf b s).or (codeOf a s) := by
  simp only [codeOf, List.reverse_append, List.find?_append]
  cases b.reverse.find? (fun v => decide (v.1 = s)) <;> simp

/-- The code map in terms of the tree (R211 to R213). -/
theorem codeOf_paths (t : Tree) (p : List Bool) (s : Symbol) :
    codeOf (t.paths p) s = (t.code s).map (fun q => p ++ q) := by
  induction t generalizing p with
  | leaf a => by_cases h : a = s <;> simp [Tree.paths, Tree.code, codeOf, h]
  | node z o hz ho =>
    simp only [Tree.paths, codeOf_append, hz, ho, Tree.code]
    cases o.code s with
    | some q => simp
    | none => cases z.code s <;> simp

/-! ### codes and subtrees -/

theorem Tree.code_isSome (t : Tree) (s : Symbol) : (t.code s).isSome ↔ s ∈ t.leaves := by
  induction t with
  | leaf a =>
    by_cases h : a = s
    · simp [Tree.code, Tree.leaves, h]
    · have h' : ¬ s = a := fun e => h e.symm
      simp [Tree.code, Tree.leaves, h, h']
  | node z o hz ho =>
    simp only [Tree.code, Tree.leaves, List.mem_append, ← hz, ← ho]
    cases o.code s <;> simp

/-- The code of a symbol leads from the root to a leaf that holds it (R212). -/
theorem Tree.sub_code {t : Tree} {s : Symbol} {p : List Bool} (h : t.code s = some p) : t.sub p = some (.leaf s) := by
  induction t generalizing p with
  | leaf a =>
    by_cases e : a = s
    · simp only [Tree.code, e, if_true, Option.some.injEq] at h
      subst h; subst e; rfl
    · simp [Tree.code, e] at h
  | node z o hz ho =>
    simp only [Tree.code] at h
    split at h
    · rename_i q hq
      cases h
      simpa [Tree.sub] using ho hq
    · cases hq : z.code s with
      | none => simp [hq] at h
      | some q =>
        simp only [hq, Option.map_some, Option.some.injEq] at h
        subst h
        simpa [Tree.sub] using hz hq

@[simp] theorem Tree.sub_nil (t : Tree) : t.sub [] = some t := by cases t <;> rfl

theorem Tree.sub_append (t : Tree) (a b : List Bool) : t.sub (a ++ b) = (t.sub a).bind (fun u => u.sub b) := by
  induction a generalizing t with
  | nil => simp
  | cons x a ih =>
    cases t with
    | leaf s => simp [Tree.sub]
    | node z o => cases x <;> simp [Tree.sub, ih]

theorem Tree.sub_leaf (s : Symbol) {b : List Bool} (hb : b ≠ []) : (Tree.leaf s).sub b = none := by
  cases b with
  | nil => exact absurd rfl hb
  | cons x b => rfl

/-- Leaves have no descendants (R217). -/
theorem Tree.sub_leaf_prefix {t : Tree} {p q : List Bool} {s : Symbol} {u : Tree} (hp : t.sub p = some (.leaf s))
    (hq : t.sub q = some u) (h : p <+: q) : p = q := by
  obtain ⟨r, rfl⟩ := h
  rw [Tree.sub_append, hp, Option.bind_some] at hq
  cases r with
  | nil => simp
  | cons x r => simp [Tree.sub] at hq

theorem Tree.sub_leaf_length_le {t : Tree} {p : List Bool} {u : Tree} (hp : t.sub p = some u) : p.length ≤ t.depth := by
  induction p generalizing t with
  | nil => simp
  | cons x p ih =>
    cases t with
    | leaf s => simp [Tree.sub] at hp
    | node z o =>
      cases x
      · have := ih (t := z) (by simpa [Tree.sub] using hp); simp [Tree.depth]; omega
      · have := ih (t := o) (by simpa [Tree.sub] using hp); simp [Tree.depth]; omega

/-! ### the invariant of the tree slot -/

/-- What R47 gives: the slot denotes a tree of NODE_COUNT nodes, at most 511, of depth at most 255, whose indices are all
those below NODE_COUNT, each once. -/
theorem TreeSlot.occupies_of_wf {t : TreeSlot} (h : t.wf = true) :
    ∃ T v, Occupies t.nodes t.root.toNat T v ∧ t.abstract = some T ∧ visitAt t.nodes Config.NODE_MAX t.root.toNat = some v ∧
      T.shape.length = t.nodeCount ∧ t.nodeCount ≤ 511 ∧ T.depth ≤ 255 ∧ v.Nodup ∧ ∀ i, i ∈ v ↔ i < t.nodeCount := by
  unfold TreeSlot.wf at h
  split at h
  · cases h
  · rename_i v hv
    simp only [Bool.and_eq_true, decide_eq_true_eq, List.all_eq_true, List.mem_range, beq_iff_eq] at h
    obtain ⟨⟨h1, h2⟩, h3⟩ := h
    obtain ⟨T, hT⟩ := occupies_of_visitAt hv
    have hlen : T.shape.length = t.nodeCount := by rw [← hT.length, h2]
    have hd := T.depth_le
    have h1' : t.nodeCount ≤ 511 := h1
    have hdep : T.depth ≤ 255 := by omega
    have hlt : ∀ i ∈ v, i < t.nodeCount := hT.lt
    have hmem : ∀ i, i < t.nodeCount → i ∈ v := fun i hi => by
      have := h3 i hi
      exact List.count_pos_iff.mp (by omega)
    refine ⟨T, v, hT, hT.treeAt Config.NODE_MAX (show T.depth < 511 by omega), hv, hlen, h1, hdep, ?_, fun i => ⟨hlt i, hmem i⟩⟩
    rw [List.nodup_iff_count_le_one]
    intro i
    by_cases hi : i < t.nodeCount
    · exact le_of_eq (h3 i hi)
    · have : i ∉ v := fun hm => hi (hlt i hm)
      simp [List.count_eq_zero_of_not_mem this]

/-- The converse: how the commands establish R47. -/
theorem TreeSlot.wf_of_occupies {t : TreeSlot} {T : Tree} {v : List Nat} (h : Occupies t.nodes t.root.toNat T v)
    (hv : v.Perm (List.range t.nodeCount)) (hn : t.nodeCount ≤ 511) : t.wf = true := by
  have hlen : v.length = t.nodeCount := by simpa using hv.length_eq
  have hd := T.depth_le
  have hl := h.length
  have hvis := h.visitAt Config.NODE_MAX (show T.depth < 511 by omega)
  simp only [TreeSlot.wf, hvis, Bool.and_eq_true, decide_eq_true_eq, List.all_eq_true, List.mem_range, beq_iff_eq]
  refine ⟨⟨hn, hlen⟩, fun i hi => ?_⟩
  rw [hv.count_eq, List.count_eq_one_of_mem List.nodup_range (List.mem_range.mpr hi)]

theorem TreeSlot.abstract_of_wf {t : TreeSlot} (h : t.wf = true) : ∃ T, t.abstract = some T := by
  obtain ⟨T, v, _, hT, _⟩ := TreeSlot.occupies_of_wf h
  exact ⟨T, hT⟩

/-- FLATTEN's walk of a tree the slot denotes (41_tree_codec.md R181). -/
theorem TreeSlot.flat_eq (t : TreeSlot) : t.flat = t.abstract.map (fun T => (T.shape, T.leaves)) := flatAt_eq _ _ _

/-- ENCODE's code map of a tree the slot denotes (42_message_codec.md R211). -/
theorem TreeSlot.paths_eq (t : TreeSlot) : t.paths = t.abstract.map (fun T => T.paths []) := pathsAt_eq _ _ _ _

theorem codeOf_paths_nil (T : Tree) : codeOf (T.paths []) = T.code := by
  funext s
  rw [codeOf_paths]
  cases T.code s <;> simp

end Sys2Proof.Machine
end

