-- ==== Sys2Proof/Laws/Run.lean ====
section
/-! SUPPORT. How a command runs: what `runCommand` and `OpEnd.finish` can answer, each said once. -/

namespace Sys2Proof.Machine

theorem lenCheck_eq_none {len : Half} {cap off : Nat} : lenCheck len cap off = none ↔ len.toNat ≤ cap := by
  unfold lenCheck; split <;> simp_all

theorem lenCheck_eq_some {len : Half} {cap off : Nat} {e : ErrCode × Nat} :
    lenCheck len cap off = some e ↔ cap < len.toNat ∧ e = (.lenRange, off) := by
  unfold lenCheck
  split
  · constructor
    · intro h; cases h
    · intro h; omega
  · constructor
    · intro h; exact ⟨by omega, (Option.some.inj h).symm⟩
    · rintro ⟨_, rfl⟩; rfl

theorem treeCheck_eq_none {s : State} : treeCheck s = none ↔ s.tree.isSome = true := by
  unfold treeCheck State.treeValid; split <;> simp_all

@[simp] theorem firstFailure_nil : firstFailure [] = none := rfl
@[simp] theorem firstFailure_none (cs : List Check) : firstFailure (none :: cs) = firstFailure cs := rfl
@[simp] theorem firstFailure_some (e : ErrCode × Nat) (cs : List Check) : firstFailure (some e :: cs) = some e := rfl

theorem runCommand_pass {cs : List Check} {op : State → OpEnd} {s : State} (h : firstFailure cs = none) :
    runCommand cs op s = (op s).finish := by simp [runCommand, h]

theorem runCommand_fail {cs : List Check} {op : State → OpEnd} {s : State} {c : ErrCode} {p : Nat}
    (h : firstFailure cs = some (c, p)) : runCommand cs op s = .next (s.complete c p) := by simp [runCommand, h]

theorem finish_ok (s : State) : ({ state := s, stop := none } : OpEnd).finish = .next (s.complete .ok 0) := rfl

theorem finish_raised (s : State) (c : ErrCode) (p : Nat) :
    ({ state := s, stop := some (.raised c p) } : OpEnd).finish = .next (s.complete c p) := rfl

/-- Everything a command can do: if it answers a next state, a pre-check failed and only the completion fields changed, or
the operation phase ran and its end was completed. -/
theorem runCommand_next {cs : List Check} {op : State → OpEnd} {s t : State} (h : runCommand cs op s = .next t) :
    (∃ c p, firstFailure cs = some (c, p) ∧ t = s.complete c p) ∨
      (firstFailure cs = none ∧
        ((∃ u, op s = { state := u, stop := none } ∧ t = u.complete .ok 0) ∨
          ∃ u c p, op s = { state := u, stop := some (.raised c p) } ∧ t = u.complete c p)) := by
  unfold runCommand at h
  split at h
  · cases h; exact .inl ⟨_, _, ‹_›, rfl⟩
  · refine .inr ⟨‹_›, ?_⟩
    cases hop : op s with
    | mk u stop =>
      rw [hop] at h
      cases stop with
      | none => cases h; exact .inl ⟨u, rfl, rfl⟩
      | some st =>
        cases st with
        | raised c p => cases h; exact .inr ⟨u, c, p, rfl, rfl⟩
        | brokenTree => cases h

/-- The same as one equation: the state completed is the one the command started in, or the one its operation phase
left. -/
theorem runCommand_next_complete {cs : List Check} {op : State → OpEnd} {s t : State} (h : runCommand cs op s = .next t) :
    ∃ c p, (firstFailure cs = some (c, p) ∧ t = s.complete c p) ∨
      (firstFailure cs = none ∧ t = (op s).state.complete c p ∧
        ((op s).stop = some (.raised c p) ∨ (op s).stop = none ∧ c = .ok ∧ p = 0)) := by
  rcases runCommand_next h with ⟨c, p, h1, rfl⟩ | ⟨h1, ⟨u, h2, rfl⟩ | ⟨u, c, p, h2, rfl⟩⟩
  · exact ⟨c, p, .inl ⟨h1, rfl⟩⟩
  · exact ⟨.ok, 0, .inr ⟨h1, by rw [h2], .inr ⟨by rw [h2], rfl, rfl⟩⟩⟩
  · exact ⟨c, p, .inr ⟨h1, by rw [h2], .inl (by rw [h2])⟩⟩

/-- A command answers no refusal, and a fault only where its operation phase finds the tree slot broken. -/
theorem runCommand_goes_on {cs : List Check} {op : State → OpEnd} {s : State}
    (h : firstFailure cs = none → (op s).stop ≠ some .brokenTree) : ∃ t, runCommand cs op s = .next t := by
  unfold runCommand
  split
  · exact ⟨_, rfl⟩
  · rename_i hn
    have := h hn
    cases hop : op s with
    | mk u stop =>
      rw [hop] at this
      cases stop with
      | none => exact ⟨_, rfl⟩
      | some st =>
        cases st with
        | raised c p => exact ⟨_, rfl⟩
        | brokenTree => exact absurd rfl this

/-! ### what each stage leaves alone -/

theorem andThen_ok {e : OpEnd} {f : State → OpEnd} (h : e.stop = none) : e.andThen f = f e.state := by
  simp [OpEnd.andThen, h]

theorem andThen_stop {e : OpEnd} {f : State → OpEnd} {st : Stop} (h : e.stop = some st) : e.andThen f = e := by
  simp [OpEnd.andThen, h]

end Sys2Proof.Machine
end

