-- ==== Sys2Proof/Laws/TreeCodec.lean ====
section
/-! SUPPORT. The Tree Codec: what `build()` answers for a shape that begins with a tree's, and for one that does not. -/

namespace Sys2Proof.Machine

/-- The entries UNFLATTEN allocates for a tree whose root is index `n` (41_tree_codec.md R190). -/
def Tree.arena : Tree → Nat → List Node
  | .leaf s, _ => [codecLeaf s]
  | .node z o, n => codecNode (n + 1) (n + 1 + z.shape.length) :: (z.arena (n + 1) ++ o.arena (n + 1 + z.shape.length))

theorem Tree.length_arena (t : Tree) (n : Nat) : (t.arena n).length = t.shape.length := by
  induction t generalizing n with
  | leaf => rfl
  | node z o hz ho => simp [Tree.arena, Tree.shape, hz, ho]

theorem Tree.weight_arena (t : Tree) (n : Nat) : ∀ nd ∈ t.arena n, nd.weight = 0#16 := by
  induction t generalizing n with
  | leaf s => simp [Tree.arena, codecLeaf]
  | node z o hz ho =>
    intro nd h
    simp only [Tree.arena, List.mem_cons, List.mem_append] at h
    rcases h with rfl | h | h
    · rfl
    · exact hz _ _ h
    · exact ho _ _ h

/-- One leaf entry for each leaf symbol consumed (R188, R190). -/
theorem Tree.countP_leaf_arena (t : Tree) (n : Nat) : (t.arena n).countP Node.leaf = t.leaves.length := by
  induction t generalizing n with
  | leaf s => rfl
  | node z o hz ho => simp [Tree.arena, Tree.leaves, codecNode, hz, ho]

/-- The allocated entries denote the tree, which takes consecutive indices (R190). -/
theorem Tree.occupies_arena (t : Tree) (pre post : List Node) (h : pre.length + t.shape.length ≤ 511) :
    Occupies (pre ++ t.arena pre.length ++ post) pre.length t (List.range' pre.length t.shape.length) := by
  induction t generalizing pre post with
  | leaf s =>
    have : (pre ++ (Tree.leaf s).arena pre.length ++ post)[pre.length]? = some (codecLeaf s) := by
      simp [Tree.arena]
    exact Occupies.leaf this rfl
  | node z o hz ho =>
    have hzp := z.shape_pos
    have hop := o.shape_pos
    simp only [Tree.shape, List.length_cons, List.length_append] at h
    have e : pre ++ (Tree.node z o).arena pre.length ++ post =
        pre ++ codecNode (pre.length + 1) (pre.length + 1 + z.shape.length) ::
          (z.arena (pre.length + 1) ++ (o.arena (pre.length + 1 + z.shape.length) ++ post)) := by
      simp [Tree.arena]
    have h1 := hz (pre ++ [codecNode (pre.length + 1) (pre.length + 1 + z.shape.length)])
      (o.arena (pre.length + 1 + z.shape.length) ++ post) (by simp; omega)
    have h2 := ho (pre ++ codecNode (pre.length + 1) (pre.length + 1 + z.shape.length) :: z.arena (pre.length + 1)) post
      (by simp [Tree.length_arena]; omega)
    simp only [List.length_append, List.length_cons, List.length_nil, Tree.length_arena, List.append_assoc,
      List.cons_append, List.nil_append] at h1 h2
    have e1 : pre.length + (z.shape.length + 1) = pre.length + 1 + z.shape.length := by omega
    rw [e1] at h2
    rw [e]
    have hv : List.range' pre.length (Tree.node z o).shape.length =
        pre.length :: (List.range' (pre.length + 1) z.shape.length ++
          List.range' (pre.length + 1 + z.shape.length) o.shape.length) := by
      have : (Tree.node z o).shape.length = (z.shape.length + o.shape.length) + 1 := by simp [Tree.shape]
      rw [this, List.range'_succ, ← List.range'_append_1]
    rw [hv]
    refine Occupies.node (nd := codecNode (pre.length + 1) (pre.length + 1 + z.shape.length)) (by simp) rfl ?_ ?_
    · have : (codecNode (pre.length + 1) (pre.length + 1 + z.shape.length)).zero.toNat = pre.length + 1 := by
        simp only [codecNode, BitVec.toNat_ofNat]; omega
      rw [this]; exact h1
    · have : (codecNode (pre.length + 1) (pre.length + 1 + z.shape.length)).one.toNat =
          pre.length + 1 + z.shape.length := by
        simp only [codecNode, BitVec.toNat_ofNat]; omega
      rw [this]; exact h2

/-- The allocation is in pre-order (R190): the zero-child of an internal entry is the next entry, the one-child follows the
zero-child's subtree. -/
theorem Tree.arena_children (t : Tree) (pre post : List Node) (h : pre.length + t.shape.length ≤ 511) :
    ∀ i nd, (t.arena pre.length)[i]? = some nd → nd.leaf = false →
      nd.zero.toNat = pre.length + i + 1 ∧ ∃ z : Tree, z.shape.length ≤ t.shape.length ∧
        (∃ v, Occupies (pre ++ t.arena pre.length ++ post) (pre.length + i + 1) z v) ∧
        nd.one.toNat = pre.length + i + 1 + z.shape.length := by
  induction t generalizing pre post with
  | leaf s =>
    intro i nd h1 h2
    cases i with
    | zero => simp [Tree.arena] at h1; subst h1; cases h2
    | succ i => simp [Tree.arena] at h1
  | node z o hz ho =>
    have hop := o.shape_pos
    simp only [Tree.shape, List.length_cons, List.length_append] at h
    generalize hr : codecNode (pre.length + 1) (pre.length + 1 + z.shape.length) = root
    have e : pre ++ (Tree.node z o).arena pre.length ++ post =
        pre ++ root :: (z.arena (pre.length + 1) ++ (o.arena (pre.length + 1 + z.shape.length) ++ post)) := by
      simp [Tree.arena, hr]
    have g1 := z.occupies_arena (pre ++ [root]) (o.arena (pre.length + 1 + z.shape.length) ++ post) (by simp; omega)
    have h1 := hz (pre ++ [root]) (o.arena (pre.length + 1 + z.shape.length) ++ post) (by simp; omega)
    have h2 := ho (pre ++ root :: z.arena (pre.length + 1)) post (by simp [Tree.length_arena]; omega)
    simp only [List.length_append, List.length_cons, List.length_nil, Tree.length_arena, List.append_assoc,
      List.cons_append, List.nil_append, Nat.zero_add] at h1 h2 g1
    have e1 : pre.length + (z.shape.length + 1) = pre.length + 1 + z.shape.length := by omega
    rw [e1] at h2
    rw [e]
    intro i nd h3 h4
    simp only [Tree.arena, hr] at h3
    cases i with
    | zero =>
      simp only [List.getElem?_cons_zero, Option.some.injEq] at h3; subst h3; subst hr
      refine ⟨?_, z, by simp [Tree.shape]; omega, ⟨_, g1⟩, ?_⟩ <;> simp only [codecNode, BitVec.toNat_ofNat] <;> omega
    | succ i =>
      simp only [List.getElem?_cons_succ] at h3
      by_cases hi : i < z.shape.length
      · rw [List.getElem?_append_left (by rw [Tree.length_arena]; exact hi)] at h3
        obtain ⟨a, b, hb, c, d⟩ := h1 i nd h3 h4
        rw [show pre.length + 1 + i + 1 = pre.length + (i + 1) + 1 by omega] at c
        exact ⟨by omega, b, by simp [Tree.shape]; omega, c, by omega⟩
      · rw [List.getElem?_append_right (by rw [Tree.length_arena]; omega), Tree.length_arena] at h3
        obtain ⟨a, b, hb, c, d⟩ := h2 _ nd h3 h4
        rw [show pre.length + 1 + z.shape.length + (i - z.shape.length) + 1 = pre.length + (i + 1) + 1 by omega] at c
        exact ⟨by omega, b, by simp [Tree.shape]; omega, c, by omega⟩

/-- `build()` on sequences that begin with a tree's (R185): it consumes them and allocates the tree's entries. -/
theorem buildAt_of_tree (t : Tree) (fuel sp lp n : Nat) (rs : List Bool) (rl : List Symbol) (hf : t.depth < fuel) :
    buildAt fuel { sp := sp, lp := lp, n := n, shape := t.shape ++ rs, leaves := t.leaves ++ rl } =
      .ok { index := n, nodes := t.arena n,
            rest := { sp := sp + t.shape.length, lp := lp + t.leaves.length, n := n + t.shape.length,
                      shape := rs, leaves := rl } } := by
  induction t generalizing fuel sp lp n rs rl with
  | leaf s =>
    obtain ⟨k, rfl⟩ : ∃ k, fuel = k + 1 := ⟨fuel - 1, by omega⟩
    simp [buildAt, Tree.shape, Tree.leaves, Tree.arena]
  | node z o hz ho =>
    obtain ⟨k, rfl⟩ : ∃ k, fuel = k + 1 := ⟨fuel - 1, by omega⟩
    simp only [Tree.depth] at hf
    have h1 := hz k (sp + 1) lp (n + 1) (o.shape ++ rs) (o.leaves ++ rl) (by omega)
    have h2 := ho k (sp + 1 + z.shape.length) (lp + z.leaves.length) (n + 1 + z.shape.length) rs rl (by omega)
    simp only [buildAt, Tree.shape, Tree.leaves, List.cons_append, List.append_assoc, h1, h2, Tree.arena,
      List.length_cons, List.length_append]
    simp only [Except.ok.injEq, Built.mk.injEq, Cursor.mk.injEq, and_true, true_and]
    omega

/-- Whatever `build()` accepts begins with a tree's two sequences. -/
theorem buildAt_ok {fuel : Nat} {c : Cursor} {r : Built} (h : buildAt fuel c = .ok r) :
    ∃ t : Tree, c.shape = t.shape ++ r.rest.shape ∧ c.leaves = t.leaves ++ r.rest.leaves ∧ t.depth < fuel := by
  induction fuel generalizing c r with
  | zero => simp [buildAt] at h
  | succ fuel ih =>
    unfold buildAt at h
    split at h
    · cases h
    · split at h
      · cases h
      · rename_i shape hs _ sym leaves hl
        cases h
        exact ⟨.leaf sym, by simp [hs, Tree.shape], by simp [hl, Tree.leaves], by simp [Tree.depth]⟩
    · rename_i shape hs
      split at h
      · cases h
      · rename_i z hz
        split at h
        · cases h
        · rename_i o ho
          cases h
          obtain ⟨tz, a1, a2, a3⟩ := ih hz
          obtain ⟨u, b1, b2, b3⟩ := ih ho
          simp only at a1 a2
          exact ⟨.node tz u, by simp [hs, Tree.shape, a1, b1], by simp [Tree.leaves, a2, b2],
            by simp [Tree.depth]; omega⟩

/-- How `build()` fails (R187, R188): out of shape bits, with all of them consumed and a leaf symbol for each 0 among
them, and then the shape begins with no tree's; or out of leaf symbols. -/
theorem buildAt_error {fuel : Nat} {c : Cursor} {e : Stop} (hf : c.shape.length < fuel)
    (h : buildAt fuel c = .error e) :
    (e = .raised .shapeUnderrun (c.sp + c.shape.length) ∧ (∀ (t : Tree) (r : List Bool), c.shape ≠ t.shape ++ r) ∧
        c.shape.count false ≤ c.leaves.length) ∨
      (e = .raised .leavesUnderrun (c.lp + c.leaves.length) ∧
        ((∃ (t : Tree) (r : List Bool), c.shape = t.shape ++ r ∧ c.leaves.length < t.leaves.length) ∨
          ((∀ (t : Tree) (r : List Bool), c.shape ≠ t.shape ++ r) ∧ c.leaves.length < c.shape.count false))) := by
  induction fuel generalizing c e with
  | zero => omega
  | succ fuel ih =>
    unfold buildAt at h
    split at h
    · rename_i hs
      cases h
      refine .inl ⟨by simp [hs], ?_, by simp [hs]⟩
      intro t r hr
      rw [hs] at hr
      have := congrArg List.length hr
      have h2 := t.shape_pos
      simp at this
      omega
    · rename_i shape hs
      split at h
      · rename_i hl
        cases h
        exact .inr ⟨by simp [hl], .inl ⟨.leaf 0#8, shape, by simp [hs, Tree.shape], by simp [hl, Tree.leaves]⟩⟩
      · cases h
    · rename_i shape hs
      have hlen : shape.length < fuel := by rw [hs] at hf; simp at hf; omega
      have noTree : (∀ (t : Tree) (r : List Bool), shape ≠ t.shape ++ r) →
          ∀ (t : Tree) (r : List Bool), c.shape ≠ t.shape ++ r := by
        intro hno t r hr
        rw [hs] at hr
        cases t with
        | leaf s => simp [Tree.shape] at hr
        | node z o =>
          simp only [Tree.shape, List.cons_append, List.cons.injEq, true_and, List.append_assoc] at hr
          exact hno z _ hr
      split at h
      · rename_i e1 hz
        cases h
        rcases ih (by simpa using hlen) hz with ⟨h1, h2, h3⟩ | ⟨h1, h2⟩
        · refine .inl ⟨by rw [h1, hs]; simp; omega, noTree h2, by rw [hs]; simpa using h3⟩
        · refine .inr ⟨h1, ?_⟩
          rcases h2 with ⟨t, r, h3, h4⟩ | ⟨h3, h4⟩
          · simp only at h3 h4
            by_cases hex : ∃ (u : Tree) (r' : List Bool), r = u.shape ++ r'
            · obtain ⟨u, r', rfl⟩ := hex
              refine .inl ⟨.node t u, r', by rw [hs, h3]; simp [Tree.shape], ?_⟩
              simp only [Tree.leaves, List.length_append]; omega
            · refine .inr ⟨?_, ?_⟩
              · intro w r' hw
                rw [hs, h3] at hw
                cases w with
                | leaf s => simp [Tree.shape] at hw
                | node z o =>
                  simp only [Tree.shape, List.cons_append, List.cons.injEq, true_and, List.append_assoc] at hw
                  obtain ⟨_, h5⟩ := Tree.shape_append_inj hw
                  exact hex ⟨o, r', h5⟩
              · rw [hs, h3]
                have := t.shape_count_false
                simp only [List.count_cons, List.count_append, this]; omega
          · refine .inr ⟨noTree h3, ?_⟩
            rw [hs]; simpa using h4
      · rename_i z hz
        split at h
        · rename_i e1 ho
          cases h
          obtain ⟨tz, a1, a2, a3⟩ := buildAt_ok hz
          simp only at a1 a2
          have hz' := buildAt_of_tree tz fuel (c.sp + 1) c.lp (c.n + 1) z.rest.shape z.rest.leaves a3
          rw [← a1, ← a2, hz] at hz'
          have hzr := Except.ok.inj hz'
          have hsp : z.rest.sp = c.sp + 1 + tz.shape.length := by rw [hzr]
          have hlp : z.rest.lp = c.lp + tz.leaves.length := by rw [hzr]
          have hl1 : shape.length = tz.shape.length + z.rest.shape.length := by rw [a1]; simp
          have hl2 : c.leaves.length = tz.leaves.length + z.rest.leaves.length := by rw [a2]; simp
          have noTree' : (∀ (t : Tree) (r : List Bool), z.rest.shape ≠ t.shape ++ r) →
              ∀ (t : Tree) (r : List Bool), c.shape ≠ t.shape ++ r := by
            intro hno w r hw
            rw [hs, a1] at hw
            cases w with
            | leaf s => simp [Tree.shape] at hw
            | node z o =>
              simp only [Tree.shape, List.cons_append, List.cons.injEq, true_and, List.append_assoc] at hw
              obtain ⟨_, h5⟩ := Tree.shape_append_inj hw
              exact hno _ _ h5
          rcases ih (by omega) ho with ⟨h1, h2, h3⟩ | ⟨h1, h2⟩
          · refine .inl ⟨?_, noTree' h2, ?_⟩
            · rw [h1, hs, hsp]; simp; omega
            · rw [hs, a1]
              have := tz.shape_count_false
              simp only [List.count_cons, List.count_append, this]
              simp; omega
          · refine .inr ⟨by rw [h1, hlp, hl2]; congr 1; omega, ?_⟩
            rcases h2 with ⟨t, r, h3, h4⟩ | ⟨h3, h4⟩
            · refine .inl ⟨.node tz t, r, by rw [hs, a1, h3]; simp [Tree.shape], ?_⟩
              simp only [Tree.leaves, List.length_append]; omega
            · refine .inr ⟨noTree' h3, ?_⟩
              rw [hs, a1]
              have := tz.shape_count_false
              simp only [List.count_cons, List.count_append, this]
              simp; omega
        · cases h

/-- UNFLATTEN's build of sequences that begin with a tree's (R185, R189, R190). -/
theorem unflattenSeqs_of_tree (strict : Bool) (t : Tree) (rs : List Bool) (rl : List Symbol) :
    unflattenSeqs strict (t.shape ++ rs) (t.leaves ++ rl) =
      if strict = true ∧ ¬ (rs = [] ∧ rl = []) then .error (.raised .trailingData t.shape.length)
      else .ok { root := 0#9, nodes := t.arena 0 } := by
  have hd := t.depth_le
  have hb := buildAt_of_tree t ((t.shape ++ rs).length + 1) 0 0 0 rs rl (by simp; omega)
  simp only [unflattenSeqs, hb]
  cases strict <;> cases rs <;> cases rl <;> simp

/-- The slot UNFLATTEN makes holds the tree (R190, 10_state.md R47). -/
theorem Tree.occupies_unflattened (t : Tree) (h : t.shape.length ≤ 511) :
    Occupies (t.arena 0) (0#9).toNat t (List.range t.shape.length) := by
  have := t.occupies_arena [] [] (by simpa using h)
  simpa [List.range_eq_range'] using this

theorem Tree.unflattened_wf (t : Tree) (h : t.shape.length ≤ 511) :
    ({ root := 0#9, nodes := t.arena 0 } : TreeSlot).wf = true := by
  have hl : (t.arena 0).length = t.shape.length := t.length_arena 0
  apply TreeSlot.wf_of_occupies (T := t) (v := List.range t.shape.length)
  · exact t.occupies_unflattened h
  · simp [TreeSlot.nodeCount, hl]
  · simpa [TreeSlot.nodeCount, hl] using h

theorem Tree.unflattened_abstract (t : Tree) (h : t.shape.length ≤ 511) :
    ({ root := 0#9, nodes := t.arena 0 } : TreeSlot).abstract = some t := by
  have hd := t.depth_le
  exact (t.occupies_unflattened h).treeAt Config.NODE_MAX (show t.depth < 511 by omega)

end Sys2Proof.Machine
end

