-- ==== Sys2Proof/Laws/MessageCodec.lean ====
section
/-! SUPPORT. The Message Codec: what the loops of ENCODE and DECODE answer, in terms of codes and subtrees. -/

namespace Sys2Proof.Machine

/-! ### ENCODE -/

/-- The bits of a text under a code (42_message_codec.md R212); a symbol without a code contributes nothing. -/
def codeBits (code : Symbol → Option (List Bool)) (text : List Symbol) : List Bool :=
  text.flatMap (fun s => (code s).getD [])

@[simp] theorem codeBits_nil (code : Symbol → Option (List Bool)) : codeBits code [] = [] := rfl

theorem codeBits_cons (code : Symbol → Option (List Bool)) (s : Symbol) (text : List Symbol) :
    codeBits code (s :: text) = (code s).getD [] ++ codeBits code text := rfl

theorem codeBits_append (code : Symbol → Option (List Bool)) (a b : List Symbol) :
    codeBits code (a ++ b) = codeBits code a ++ codeBits code b := by simp [codeBits]

/-- A beginning of the text whose symbols all have codes, and whose bits fit, is passed. -/
theorem encodeFrom_append {code : Symbol → Option (List Bool)} (pre rest : List Symbol) (i n : Nat)
    (hm : ∀ s ∈ pre, (code s).isSome) (hb : n + (codeBits code pre).length ≤ Config.BITS_MAX) :
    encodeFrom code (pre ++ rest) i n =
      (encodeFrom code rest (i + pre.length) (n + (codeBits code pre).length)).map (fun bits => codeBits code pre ++ bits) := by
  induction pre generalizing i n with
  | nil =>
    simp only [List.nil_append, List.length_nil, Nat.add_zero, codeBits_nil]
    cases encodeFrom code rest i n <;> rfl
  | cons s pre ih =>
    obtain ⟨p, hp⟩ := Option.isSome_iff_exists.mp (hm s (by simp))
    simp only [codeBits_cons, hp, Option.getD_some, List.length_append] at hb
    have h1 : ¬ Config.BITS_MAX < n + p.length := by omega
    have h2 := ih (i + 1) (n + p.length) (fun s hs => hm s (by simp [hs])) (by omega)
    simp only [List.cons_append, encodeFrom, hp, h1, if_false, h2, codeBits_cons, Option.getD_some,
      List.length_append, List.length_cons]
    have e1 : i + 1 + pre.length = i + (pre.length + 1) := by omega
    have e2 : n + p.length + (codeBits code pre).length = n + (p.length + (codeBits code pre).length) := by omega
    rw [e1, e2]
    cases encodeFrom code rest (i + (pre.length + 1)) (n + (p.length + (codeBits code pre).length)) with
    | error e => rfl
    | ok bits => simp [Except.map]

theorem encodeFrom_ok {code : Symbol → Option (List Bool)} (text : List Symbol)
    (hm : ∀ s ∈ text, (code s).isSome) (hb : (codeBits code text).length ≤ Config.BITS_MAX) :
    encodeFrom code text 0 0 = .ok (codeBits code text) := by
  have := encodeFrom_append text [] 0 0 hm (by simpa using hb)
  simpa [encodeFrom, Except.map] using this

/-- The first symbol without a code (R214). -/
theorem encodeFrom_unmapped {code : Symbol → Option (List Bool)} (pre rest : List Symbol) (s : Symbol)
    (hm : ∀ s ∈ pre, (code s).isSome) (hb : (codeBits code pre).length ≤ Config.BITS_MAX) (hs : code s = none) :
    encodeFrom code (pre ++ s :: rest) 0 0 = .error (.raised .unmappedSymbol pre.length) := by
  rw [encodeFrom_append pre (s :: rest) 0 0 hm (by simpa using hb)]
  simp [encodeFrom, hs, Except.map]

/-- The first symbol whose code does not fit (R215). -/
theorem encodeFrom_overflow {code : Symbol → Option (List Bool)} (pre rest : List Symbol) (s : Symbol) (p : List Bool)
    (hm : ∀ s ∈ pre, (code s).isSome) (hb : (codeBits code pre).length ≤ Config.BITS_MAX) (hs : code s = some p)
    (ho : Config.BITS_MAX < (codeBits code pre).length + p.length) :
    encodeFrom code (pre ++ s :: rest) 0 0 = .error (.raised .bitsOverflow pre.length) := by
  rw [encodeFrom_append pre (s :: rest) 0 0 hm (by simpa using hb)]
  have h : Config.BITS_MAX < 0 + (codeBits code pre).length + p.length := by omega
  simp [encodeFrom, hs, Except.map, ho]

/-- Everything the loop of ENCODE can answer: the bits of the whole text, which fit, or one of the two errors. -/
theorem encodeFrom_cases (code : Symbol → Option (List Bool)) (text : List Symbol) (i n : Nat)
    (hn : n ≤ Config.BITS_MAX) :
    (encodeFrom code text i n = .ok (codeBits code text) ∧ (∀ s ∈ text, (code s).isSome) ∧
        n + (codeBits code text).length ≤ Config.BITS_MAX) ∨
      ∃ c p, encodeFrom code text i n = .error (.raised c p) ∧ (c = .unmappedSymbol ∨ c = .bitsOverflow) := by
  induction text generalizing i n with
  | nil => exact .inl ⟨rfl, by simp, by simpa using hn⟩
  | cons s text ih =>
    cases hs : code s with
    | none => exact .inr ⟨.unmappedSymbol, i, by simp [encodeFrom, hs], .inl rfl⟩
    | some p =>
      by_cases ho : Config.BITS_MAX < n + p.length
      · exact .inr ⟨.bitsOverflow, i, by simp only [encodeFrom, hs]; rw [if_pos ho], .inr rfl⟩
      · rcases ih (i + 1) (n + p.length) (by omega) with ⟨h1, h2, h3⟩ | ⟨c, q, h1, h2⟩
        · refine .inl ⟨by simp only [encodeFrom, hs]; rw [if_neg ho, h1]; simp [codeBits_cons, hs], ?_, ?_⟩
          · intro x hx
            rcases List.mem_cons.mp hx with rfl | hx
            · simp [hs]
            · exact h2 x hx
          · simp only [codeBits_cons, hs, Option.getD_some, List.length_append]; omega
        · exact .inr ⟨c, q, by simp only [encodeFrom, hs]; rw [if_neg ho, h1], h2⟩

/-! ### DECODE -/

/-- The child a bit leads to (R218). -/
theorem Occupies.child {nodes : List Node} {i : Nat} {z o : Tree} {v : List Nat}
    (h : Occupies nodes i (.node z o) v) :
    ∃ nd, nodes[i]? = some nd ∧ nd.leaf = false ∧
      ∀ bit : Bool, ∃ w, Occupies nodes (nd.child bit) (if bit then o else z) w ∧ ∀ j ∈ w, j ∈ v.tail := by
  cases h with
  | node hi hl hz ho =>
    refine ⟨_, hi, hl, ?_⟩
    intro bit
    cases bit with
    | false => exact ⟨_, hz, by intro j hj; simp [hj]⟩
    | true => exact ⟨_, ho, by intro j hj; simp [hj]⟩

/-- A code read from an internal node on: its symbol is emitted and the walk goes on from ROOT (R219, R220), unless OUT is
full (R223). -/
theorem decodeFrom_code {nodes : List Node} {root cur : Nat} {t : Tree} {v : List Nat} {strict : Bool} {p : List Bool}
    {a : Symbol} (ht : Occupies nodes cur t v) (hn : t.isNode = true) (hp : t.sub p = some (.leaf a))
    (rest : List Bool) (i m start : Nat) :
    decodeFrom nodes root strict (p ++ rest) i cur m start =
      if Config.OUT_MAX ≤ m then .error (.raised .outOverflow (i + p.length - 1))
      else (decodeFrom nodes root strict rest (i + p.length) root (m + 1) (i + p.length)).map (fun out => a :: out) := by
  induction p generalizing cur t v i with
  | nil =>
    simp only [Tree.sub, Option.some.injEq] at hp
    subst hp
    simp [Tree.isNode] at hn
  | cons bit p ih =>
    cases t with
    | leaf s => simp [Tree.isNode] at hn
    | node z o =>
      obtain ⟨nd, hi, hl, hc⟩ := ht.child
      obtain ⟨w, hw, _⟩ := hc bit
      have hp' : (if bit then o else z).sub p = some (.leaf a) := by
        cases bit <;> simpa [Tree.sub] using hp
      obtain ⟨nx, hx, hxl, hxs⟩ := hw.isLeaf
      simp only [List.cons_append, decodeFrom, hi, hl, hx, Bool.false_eq_true, if_false]
      cases hu : (if bit then o else z) with
      | leaf s =>
        rw [hu] at hp' hxl
        have hpn : p = [] := by
          cases p with
          | nil => rfl
          | cons x p => simp [Tree.sub] at hp'
        subst hpn
        simp only [Tree.sub, Option.some.injEq, Tree.leaf.injEq] at hp'
        have hsym := hxs s hu
        simp only [hxl, Tree.isNode, Bool.not_false, if_true, List.nil_append, List.length_cons, List.length_nil]
        split
        · simp
        · cases decodeFrom nodes root strict rest (i + 1) root (m + 1) (i + 1) with
          | error e => rfl
          | ok out => simp [Except.map, hsym, hp']
      | node z' o' =>
        rw [hu] at hw hp' hxl
        simp only [hxl, Tree.isNode, Bool.not_true, Bool.false_eq_true, if_false]
        rw [ih hw rfl hp' (i + 1)]
        have hpn : p ≠ [] := by
          rintro rfl
          simp [Tree.sub] at hp'
        have hpl : 0 < p.length := List.length_pos_iff.mpr hpn
        simp only [List.length_cons]
        have e1 : i + 1 + p.length - 1 = i + (p.length + 1) - 1 := by omega
        have e2 : i + 1 + p.length = i + (p.length + 1) := by omega
        rw [e1, e2]

/-- Bits that end on the way to a leaf: the walk stops at an internal node, below where it started unless there was no
bit (R222). -/
theorem decodeFrom_partial {nodes : List Node} {root cur : Nat} {t u : Tree} {v : List Nat} {strict : Bool}
    {p : List Bool} (ht : Occupies nodes cur t v) (hu : t.sub p = some u) (hn : u.isNode = true) (i m start : Nat) :
    ∃ cur', decodeFrom nodes root strict p i cur m start = decodeFrom nodes root strict [] (i + p.length) cur' m start ∧
      (p = [] → cur' = cur) ∧ (p ≠ [] → cur' ∈ v.tail) := by
  induction p generalizing cur t v i with
  | nil => exact ⟨cur, rfl, fun _ => rfl, fun h => absurd rfl h⟩
  | cons bit p ih =>
    cases t with
    | leaf s => simp [Tree.sub] at hu
    | node z o =>
      obtain ⟨nd, hi, hl, hc⟩ := ht.child
      obtain ⟨w, hw, hwv⟩ := hc bit
      have hu' : (if bit then o else z).sub p = some u := by cases bit <;> simpa [Tree.sub] using hu
      obtain ⟨nx, hx, hxl, hxs⟩ := hw.isLeaf
      have hxl' : nx.leaf = false := by
        rw [hxl]
        cases hb : (if bit then o else z) with
        | leaf s =>
          rw [hb] at hu'
          cases p with
          | nil => simp only [Tree.sub, Option.some.injEq] at hu'; subst hu'; simp [Tree.isNode] at hn
          | cons x p => simp [Tree.sub] at hu'
        | node z' o' => rfl
      obtain ⟨cur', h1, h2, h3⟩ := ih hw hu' (i + 1)
      refine ⟨cur', ?_, by simp, fun _ => ?_⟩
      · simp only [decodeFrom, hi, hl, hx, hxl', Bool.false_eq_true, if_false, h1]
      · by_cases hp : p = []
        · rw [h2 hp]; exact hwv _ hw.root_mem
        · exact hwv _ (List.mem_of_mem_tail (h3 hp))

/-- A list of codes, each with the symbol of the leaf it leads to. -/
def Tree.spells (t : Tree) (ws : List (Symbol × List Bool)) : Prop := ∀ w ∈ ws, t.sub w.2 = some (.leaf w.1)

/-- The bits of a list of codes. -/
def spelledBits (ws : List (Symbol × List Bool)) : List Bool := (ws.map Prod.snd).flatten

/-- Codes one after the other, from ROOT. -/
theorem decodeFrom_codes {nodes : List Node} {root : Nat} {t : Tree} {v : List Nat} {strict : Bool}
    (ht : Occupies nodes root t v) (hn : t.isNode = true) (ws : List (Symbol × List Bool)) (hw : t.spells ws)
    (rest : List Bool) (i m : Nat) (hm : m + ws.length ≤ Config.OUT_MAX) :
    decodeFrom nodes root strict (spelledBits ws ++ rest) i root m i =
      (decodeFrom nodes root strict rest (i + (spelledBits ws).length) root (m + ws.length)
        (i + (spelledBits ws).length)).map (fun out => ws.map Prod.fst ++ out) := by
  induction ws generalizing i m with
  | nil =>
    simp only [spelledBits, List.map_nil, List.flatten_nil, List.nil_append, List.length_nil, Nat.add_zero]
    cases decodeFrom nodes root strict rest i root m i <;> rfl
  | cons w ws ih =>
    have h0 : spelledBits (w :: ws) = w.2 ++ spelledBits ws := by simp [spelledBits]
    simp only [List.length_cons] at hm
    have hm0 : ¬ Config.OUT_MAX ≤ m := by omega
    rw [h0, List.append_assoc, decodeFrom_code ht hn (hw w (by simp)), if_neg hm0,
      ih (fun x hx => hw x (by simp [hx])) (i + w.2.length) (m + 1) (by omega)]
    have e1 : i + w.2.length + (spelledBits ws).length = i + (w.2 ++ spelledBits ws).length := by simp; omega
    have e2 : m + 1 + ws.length = m + (ws.length + 1) := by omega
    rw [e1, e2]
    simp only [List.length_cons]
    cases decodeFrom nodes root strict rest (i + (w.2 ++ spelledBits ws).length) root (m + (ws.length + 1))
      (i + (w.2 ++ spelledBits ws).length) <;> rfl

/-- Every bit sequence is codes followed by the beginning of one that ends at an internal node (R218). -/
theorem Tree.spell_total (t : Tree) (hn : t.isNode = true) (bits : List Bool) :
    ∃ ws p u, t.spells ws ∧ bits = spelledBits ws ++ p ∧ t.sub p = some u ∧ u.isNode = true := by
  induction bits using List.reverseRecOn with
  | nil => exact ⟨[], [], t, fun w hw => (List.not_mem_nil hw).elim, rfl, t.sub_nil, hn⟩
  | append_singleton bits b ih =>
    obtain ⟨ws, p, u, h1, rfl, h3, h4⟩ := ih
    cases u with
    | leaf s => simp [Tree.isNode] at h4
    | node z o =>
      have hs : t.sub (p ++ [b]) = some (if b then o else z) := by
        rw [Tree.sub_append, h3]; cases b <;> simp [Tree.sub]
      cases hb : (if b then o else z) with
      | leaf s =>
        rw [hb] at hs
        refine ⟨ws ++ [(s, p ++ [b])], [], t, ?_, by simp [spelledBits], t.sub_nil, hn⟩
        intro w hw
        rcases List.mem_append.mp hw with hw | hw
        · exact h1 w hw
        · simp only [List.mem_singleton] at hw; subst hw; exact hs
      | node z' o' =>
        rw [hb] at hs
        exact ⟨ws, p ++ [b], _, h1, by simp, hs, rfl⟩

/-- DECODE of a well-formed slot whose root is internal (R218 to R222): codes that fit in OUT, then the beginning of a
code. -/
theorem TreeSlot.decodeBits_codes {t : TreeSlot} {T u : Tree} (hwf : t.wf = true) (hT : t.abstract = some T)
    (hn : T.isNode = true) (strict : Bool) (ws : List (Symbol × List Bool)) (hw : T.spells ws) (p : List Bool)
    (hp : T.sub p = some u) (hu : u.isNode = true) (hm : ws.length ≤ Config.OUT_MAX) :
    t.decodeBits strict (spelledBits ws ++ p) =
      if strict = true ∧ p ≠ [] then .error (.raised .partialCode (spelledBits ws).length)
      else .ok (ws.map Prod.fst) := by
  obtain ⟨T', v, hocc, hT', _, _, _, _, hnd, _⟩ := TreeSlot.occupies_of_wf hwf
  rw [hT] at hT'
  cases hT'
  rw [TreeSlot.decodeBits, decodeFrom_codes hocc hn ws hw p 0 0 (by omega)]
  obtain ⟨cur', h1, h2, h3⟩ := decodeFrom_partial (root := t.root.toNat) (strict := strict) hocc hp hu
    (0 + (spelledBits ws).length) (0 + ws.length) (0 + (spelledBits ws).length)
  rw [h1]
  by_cases hpn : p = []
  · rw [h2 hpn]; simp [decodeFrom, Except.map, hpn]
  · have hne : cur' ≠ t.root.toNat := by
      intro e
      have := h3 hpn
      rw [e] at this
      cases hocc with
      | leaf => simp at this
      | node hi hl hz ho =>
        simp only [List.tail_cons] at this
        exact (List.nodup_cons.mp hnd).1 this
    cases strict <;> simp [decodeFrom, Except.map, hpn, hne]

/-- DECODE of one code more than OUT holds (R223). -/
theorem TreeSlot.decodeBits_overflow {t : TreeSlot} {T : Tree} (hwf : t.wf = true) (hT : t.abstract = some T)
    (hn : T.isNode = true) (strict : Bool) (ws : List (Symbol × List Bool)) (hw : T.spells ws)
    (hm : ws.length = Config.OUT_MAX) (w : Symbol × List Bool) (hw1 : T.sub w.2 = some (.leaf w.1)) (rest : List Bool) :
    t.decodeBits strict (spelledBits ws ++ w.2 ++ rest) =
      .error (.raised .outOverflow ((spelledBits ws).length + w.2.length - 1)) := by
  obtain ⟨T', v, hocc, hT', _⟩ := TreeSlot.occupies_of_wf hwf
  rw [hT] at hT'
  cases hT'
  rw [TreeSlot.decodeBits, List.append_assoc, decodeFrom_codes hocc hn ws hw _ 0 0 (by omega),
    decodeFrom_code hocc hn hw1, if_pos (by omega)]
  simp [Except.map]

/-- DECODE with a leaf root (R221, R224). -/
theorem TreeSlot.decodeBits_leaf {t : TreeSlot} {s : Symbol} (hwf : t.wf = true) (hT : t.abstract = some (.leaf s))
    (strict : Bool) (bits : List Bool) :
    t.decodeBits strict bits = if bits = [] then .ok [] else .error (.raised .leafRootDecode 0) := by
  obtain ⟨T', v, hocc, hT', _⟩ := TreeSlot.occupies_of_wf hwf
  rw [hT] at hT'
  cases hT'
  obtain ⟨nd, hi, hl, _⟩ := hocc.isLeaf
  cases bits with
  | nil => simp [TreeSlot.decodeBits, decodeFrom]
  | cons b bits => simp [TreeSlot.decodeBits, decodeFrom, hi, hl, Tree.isNode]

/-- Codes cut after the first `n`: the bits of the whole are those of the first `n`, of the next one, and of the rest. -/
theorem spelledBits_cut (ws : List (Symbol × List Bool)) (n : Nat) (h : n < ws.length) :
    spelledBits ws = spelledBits (ws.take n) ++ ws[n].2 ++ spelledBits (ws.drop (n + 1)) ∧
      spelledBits (ws.take (n + 1)) = spelledBits (ws.take n) ++ ws[n].2 := by
  have e : ∀ a b, spelledBits (a ++ b) = spelledBits a ++ spelledBits b := fun a b => by simp [spelledBits]
  have e1 : spelledBits (ws.take (n + 1)) = spelledBits (ws.take n) ++ ws[n].2 := by
    rw [List.take_succ_eq_append_getElem h, e]; simp [spelledBits]
  refine ⟨?_, e1⟩
  rw [← e1, ← e, List.take_append_drop]

/-- DECODE of a well-formed slot with an internal root, whatever the bits (R218 to R223). -/
theorem TreeSlot.decodeBits_total {t : TreeSlot} {T : Tree} (hwf : t.wf = true) (hT : t.abstract = some T)
    (hn : T.isNode = true) (strict : Bool) (bits : List Bool) :
    ∃ ws p u, T.spells ws ∧ bits = spelledBits ws ++ p ∧ T.sub p = some u ∧ u.isNode = true ∧
      t.decodeBits strict bits =
        if Config.OUT_MAX < ws.length then
          .error (.raised .outOverflow ((spelledBits (ws.take (Config.OUT_MAX + 1))).length - 1))
        else if strict = true ∧ p ≠ [] then .error (.raised .partialCode (spelledBits ws).length)
        else .ok (ws.map Prod.fst) := by
  obtain ⟨ws, p, u, h1, h2, h3, h4⟩ := T.spell_total hn bits
  refine ⟨ws, p, u, h1, h2, h3, h4, ?_⟩
  by_cases hm : Config.OUT_MAX < ws.length
  · obtain ⟨e1, e2⟩ := spelledBits_cut ws Config.OUT_MAX hm
    rw [if_pos hm, h2, e1, List.append_assoc _ _ p, e2, List.length_append]
    exact TreeSlot.decodeBits_overflow hwf hT hn strict (ws.take Config.OUT_MAX)
      (fun w hw => h1 w (List.mem_of_mem_take hw)) (by rw [List.length_take]; omega) _ (h1 _ (List.getElem_mem hm)) _
  · rw [if_neg hm, h2, TreeSlot.decodeBits_codes hwf hT hn strict ws h1 p h3 h4 (by omega)]

/-- DECODE of a well-formed slot never finds it broken, and what it emits fits in OUT. -/
theorem TreeSlot.decodeBits_cases {t : TreeSlot} (hwf : t.wf = true) (strict : Bool) (bits : List Bool) :
    (∃ out, t.decodeBits strict bits = .ok out ∧ out.length ≤ Config.OUT_MAX) ∨
      ∃ c p, t.decodeBits strict bits = .error (.raised c p) ∧ c ≠ .ok := by
  obtain ⟨T, hT⟩ := TreeSlot.abstract_of_wf hwf
  cases hn : T.isNode with
  | false =>
    cases T with
    | node z o => simp [Tree.isNode] at hn
    | leaf s =>
      rw [TreeSlot.decodeBits_leaf hwf hT]
      split
      · exact .inl ⟨[], rfl, by simp⟩
      · exact .inr ⟨_, _, rfl, by simp⟩
  | true =>
    obtain ⟨ws, p, u, _, _, _, _, h⟩ := TreeSlot.decodeBits_total hwf hT hn strict bits
    rw [h]
    split
    · exact .inr ⟨_, _, rfl, by simp⟩
    · split
      · exact .inr ⟨_, _, rfl, by simp⟩
      · exact .inl ⟨_, rfl, by rw [List.length_map]; omega⟩

/-- The codes of a text, as a list of codes with their symbols. -/
theorem Tree.spells_text (t : Tree) (text : List Symbol) (hm : ∀ s ∈ text, (t.code s).isSome) :
    t.spells (text.map (fun s => (s, (t.code s).getD []))) ∧
      spelledBits (text.map (fun s => (s, (t.code s).getD []))) = codeBits t.code text := by
  constructor
  · intro w hw
    obtain ⟨s, hs, rfl⟩ := List.mem_map.mp hw
    obtain ⟨p, hp⟩ := Option.isSome_iff_exists.mp (hm s hs)
    simpa [hp] using Tree.sub_code hp
  · simp [spelledBits, codeBits, List.flatMap]; rfl

/-- The two modes of DECODE differ only in the partial code at the end (42_message_codec.md R222). -/
theorem decodeFrom_permissive (nodes : List Node) (root : Nat) (bits : List Bool) (i cur m start : Nat) :
    decodeFrom nodes root true bits i cur m start = decodeFrom nodes root false bits i cur m start ∨
      ∃ p, decodeFrom nodes root true bits i cur m start = .error (.raised .partialCode p) := by
  induction bits generalizing i cur m start with
  | nil => by_cases h : cur = root <;> simp [decodeFrom, h]
  | cons b bits ih =>
    simp only [decodeFrom]
    split
    · exact .inl rfl
    split
    · exact .inl rfl
    split
    · exact .inl rfl
    split
    · split
      · exact .inl rfl
      · rcases ih (i + 1) root (m + 1) (i + 1) with h | ⟨p, h⟩
        · exact .inl (by rw [h])
        · exact .inr ⟨p, by rw [h]⟩
    · exact ih _ _ _ _

end Sys2Proof.Machine
end

