-- ==== Sys2Proof/Laws/TreeBuilder.lean ====
section
/-! SUPPORT. The Tree Builder: the priority queue stays in order, the merge loop keeps a forest over the arena, and what
the slot BUILD makes is (40_tree_builder.md R153 to R160). -/

namespace Sys2Proof.Machine

/-! ### the priority queue -/

theorem pqInsert_perm (e : PQEntry) (q : List PQEntry) : (pqInsert e q).Perm (e :: q) := by
  induction q with
  | nil => exact List.Perm.refl _
  | cons f q ih =>
    simp only [pqInsert]
    split
    · exact List.Perm.refl _
    · exact (List.Perm.cons f ih).trans (List.Perm.swap e f q)

@[simp] theorem length_pqInsert (e : PQEntry) (q : List PQEntry) : (pqInsert e q).length = q.length + 1 := by
  simpa using (pqInsert_perm e q).length_eq

theorem mem_pqInsert {e x : PQEntry} {q : List PQEntry} : x ∈ pqInsert e q ↔ x = e ∨ x ∈ q := by
  rw [(pqInsert_perm e q).mem_iff, List.mem_cons]

theorem PQEntry.precedes_iff {e f : PQEntry} :
    e.precedes f = true ↔ e.weight < f.weight ∨ (e.weight = f.weight ∧ f.seq < e.seq) := by
  simp [PQEntry.precedes]

/-- The order is strict and total on entries with different sequence numbers (R155). -/
theorem PQEntry.precedes_total {e f : PQEntry} (h : e.seq ≠ f.seq) (hn : ¬ e.precedes f = true) :
    f.precedes e = true := by
  rw [PQEntry.precedes_iff] at *; omega

theorem PQEntry.precedes_trans {a b c : PQEntry} (h1 : a.precedes b = true) (h2 : b.precedes c = true) :
    a.precedes c = true := by
  rw [PQEntry.precedes_iff] at *; omega

/-- The queue is in priority order. -/
abbrev InOrder (q : List PQEntry) : Prop := q.Pairwise (fun a b => a.precedes b = true)

theorem inOrder_pqInsert {e : PQEntry} {q : List PQEntry} (h : InOrder q) (hs : ∀ x ∈ q, x.seq ≠ e.seq) :
    InOrder (pqInsert e q) := by
  induction q with
  | nil => simp [pqInsert, InOrder]
  | cons f q ih =>
    obtain ⟨h1, h2⟩ := List.pairwise_cons.mp h
    simp only [pqInsert]
    split
    · rename_i he
      refine List.pairwise_cons.mpr ⟨?_, h⟩
      intro x hx
      rcases List.mem_cons.mp hx with rfl | hx
      · exact he
      · exact PQEntry.precedes_trans he (h1 x hx)
    · rename_i he
      refine List.pairwise_cons.mpr ⟨?_, ih h2 (fun x hx => hs x (by simp [hx]))⟩
      intro x hx
      rcases mem_pqInsert.mp hx with rfl | hx
      · exact PQEntry.precedes_total (fun e => hs f (by simp) e.symm) he
      · exact h1 x hx

/-- `PQ.popmin` takes the least entry (R155): the head precedes every other entry. -/
theorem InOrder.head_least {a : PQEntry} {q : List PQEntry} (h : InOrder (a :: q)) :
    ∀ x ∈ q, a.precedes x = true := (List.pairwise_cons.mp h).1

/-! ### the leaves -/

/-- The entries of the leaves (R154). -/
def leafEntries (text : List Symbol) (total : Nat) : Nat → List Symbol → List PQEntry
  | _, [] => []
  | k, s :: ss =>
    { weight := (frequency text s).toNat, seq := total - 1 - k, node := k } :: leafEntries text total (k + 1) ss

theorem enqueueLeaves_perm (text : List Symbol) (total k : Nat) (ss : List Symbol) (q : List PQEntry) :
    (enqueueLeaves text total k ss q).Perm (leafEntries text total k ss ++ q) := by
  induction ss generalizing k q with
  | nil => exact List.Perm.refl _
  | cons s ss ih =>
    simp only [enqueueLeaves, leafEntries]
    refine (ih _ _).trans ?_
    refine ((pqInsert_perm _ _).append_left _).trans ?_
    exact List.perm_middle

theorem mem_leafEntries {text : List Symbol} {total k : Nat} {ss : List Symbol} {e : PQEntry}
    (h : e ∈ leafEntries text total k ss) :
    ∃ j s, ss[j]? = some s ∧ e = { weight := (frequency text s).toNat, seq := total - 1 - (k + j), node := k + j } := by
  induction ss generalizing k with
  | nil => simp [leafEntries] at h
  | cons s ss ih =>
    simp only [leafEntries, List.mem_cons] at h
    rcases h with rfl | h
    · exact ⟨0, s, rfl, rfl⟩
    · obtain ⟨j, s', h1, h2⟩ := ih h
      refine ⟨j + 1, s', by simpa using h1, ?_⟩
      rw [h2]
      have : k + 1 + j = k + (j + 1) := by omega
      simp [this]

theorem map_node_leafEntries (text : List Symbol) (total k : Nat) (ss : List Symbol) :
    (leafEntries text total k ss).map PQEntry.node = List.range' k ss.length := by
  induction ss generalizing k with
  | nil => rfl
  | cons s ss ih => simp [leafEntries, ih, List.range'_succ]

theorem length_enqueueLeaves (text : List Symbol) (total k : Nat) (ss : List Symbol) (q : List PQEntry) :
    (enqueueLeaves text total k ss q).length = ss.length + q.length := by
  have h : (leafEntries text total k ss).length = ss.length := by
    have := congrArg List.length (map_node_leafEntries text total k ss)
    simpa using this
  simpa [h] using (enqueueLeaves_perm text total k ss q).length_eq

theorem inOrder_enqueueLeaves {text : List Symbol} {total k : Nat} {ss : List Symbol} {q : List PQEntry}
    (h : InOrder q) (hk : k + ss.length ≤ total) (hq : ∀ x ∈ q, total - k ≤ x.seq) :
    InOrder (enqueueLeaves text total k ss q) := by
  induction ss generalizing k q with
  | nil => exact h
  | cons s ss ih =>
    simp only [List.length_cons] at hk
    simp only [enqueueLeaves]
    apply ih
    · apply inOrder_pqInsert h
      intro x hx
      have := hq x hx
      simp only
      omega
    · omega
    · intro x hx
      rcases mem_pqInsert.mp hx with rfl | hx
      · simp only; omega
      · have := hq x hx; omega

/-! ### the forest -/

/-- The queue's entries are the roots of trees that partition the arena; `g` and `f` give the tree of a root and the
indices it takes. The leaves are those of `syms`, and an entry's weight is the number of text symbols below it (R156, R158:
"weight is cumulative symbol frequency under that subtree"). -/
structure Forest (text syms : List Symbol) (nodes : List Node) (q : List PQEntry) (g : Nat → Tree)
    (f : Nat → List Nat) : Prop where
  occ : ∀ e ∈ q, Occupies nodes e.node (g e.node) (f e.node)
  cover : ((q.map PQEntry.node).flatMap f).Perm (List.range nodes.length)
  leaves : ((q.map PQEntry.node).flatMap (fun i => (g i).leaves)).Perm syms
  weight : ∀ e ∈ q, e.weight = ((g e.node).leaves.map (fun s => text.count s)).sum

theorem Forest.perm {text syms : List Symbol} {nodes : List Node} {q q' : List PQEntry} {g : Nat → Tree}
    {f : Nat → List Nat} (h : Forest text syms nodes q g f) (hp : q'.Perm q) : Forest text syms nodes q' g f where
  occ e he := h.occ e (hp.mem_iff.mp he)
  cover := ((hp.map _).flatMap_right _).trans h.cover
  leaves := ((hp.map _).flatMap_right _).trans h.leaves
  weight e he := h.weight e (hp.mem_iff.mp he)

theorem Forest.node_lt {text syms : List Symbol} {nodes : List Node} {q : List PQEntry} {g : Nat → Tree}
    {f : Nat → List Nat} (h : Forest text syms nodes q g f) : ∀ e ∈ q, e.node < nodes.length :=
  fun e he => (h.occ e he).root_lt

/-- One merge (R156). -/
theorem Forest.merge {text syms : List Symbol} {nodes : List Node} {a b : PQEntry} {q : List PQEntry} {g : Nat → Tree}
    {f : Nat → List Nat} (h : Forest text syms nodes (a :: b :: q) g f) (hn : nodes.length ≤ 511) (m : PQEntry)
    (hm : m.node = nodes.length) (hw : m.weight = a.weight + b.weight) :
    Forest text syms (nodes ++ [mergeNode a b]) (m :: q)
      (fun i => if i = nodes.length then .node (g a.node) (g b.node) else g i)
      (fun i => if i = nodes.length then nodes.length :: (f a.node ++ f b.node) else f i) := by
  have hlt := h.node_lt
  have hlta := hlt a (by simp)
  have hltb := hlt b (by simp)
  have hne : ∀ e ∈ q, ¬ e.node = nodes.length := fun e he => by have := hlt e (by simp [he]); omega
  have hmapf : (q.map PQEntry.node).flatMap
        (fun i => if i = nodes.length then nodes.length :: (f a.node ++ f b.node) else f i) =
      (q.map PQEntry.node).flatMap f := by
    simp only [List.flatMap_map]
    apply List.flatMap_congr
    intro e he
    simp [hne e he]
  have hmapg : (q.map PQEntry.node).flatMap
        (fun i => Tree.leaves (if i = nodes.length then .node (g a.node) (g b.node) else g i)) =
      (q.map PQEntry.node).flatMap (fun i => (g i).leaves) := by
    simp only [List.flatMap_map]
    apply List.flatMap_congr
    intro e he
    simp [hne e he]
  constructor
  · intro e he
    rcases List.mem_cons.mp he with rfl | he
    · simp only [hm, if_true]
      have hz : (mergeNode a b).zero.toNat = a.node := by
        simp only [mergeNode, BitVec.toNat_ofNat]; omega
      have ho : (mergeNode a b).one.toNat = b.node := by
        simp only [mergeNode, BitVec.toNat_ofNat]; omega
      refine Occupies.node (nd := mergeNode a b) (by simp) rfl ?_ ?_
      · rw [hz]; exact (h.occ a (by simp)).append
      · rw [ho]; exact (h.occ b (by simp)).append
    · simp only [hne e he, if_false]
      exact (h.occ e (by simp [he])).append
  · have hc := h.cover
    simp only [List.map_cons, List.flatMap_cons] at hc
    simp only [List.map_cons, List.flatMap_cons, hm, if_true, hmapf, List.length_append, List.length_cons,
      List.length_nil, List.range_succ]
    refine List.Perm.trans ?_ (List.perm_append_comm (l₁ := [nodes.length]))
    simpa [List.append_assoc] using hc
  · have hc := h.leaves
    simp only [List.map_cons, List.flatMap_cons] at hc
    simp only [List.map_cons, List.flatMap_cons, hm, if_true, hmapg, Tree.leaves]
    simpa [List.append_assoc] using hc
  · intro e he
    rcases List.mem_cons.mp he with rfl | he
    · simp only [hm, if_true, Tree.leaves, List.map_append, List.sum_append, hw, h.weight a (by simp),
        h.weight b (by simp)]
    · simp only [hne e he, if_false]
      exact h.weight e (by simp [he])

/-- Sequence numbers in the queue stay below the arena's length, so a new one is larger than all of them (R154). -/
abbrev SeqsBelow (n : Nat) (q : List PQEntry) : Prop := ∀ e ∈ q, e.seq < n

/-- The weighted depth of a tree, as the sum of the weights of its internal nodes (40_tree_builder.md R162). -/
def Tree.cost (w : Symbol → Nat) : Tree → Nat
  | .leaf _ => 0
  | .node z o => z.cost w + o.cost w + ((z.leaves.map w).sum + (o.leaves.map w).sum)

/-- The sum of the weights of the nodes the merge loop creates. -/
def loopCost : Nat → Nat → List PQEntry → Nat
  | fuel + 1, n, a :: b :: q =>
    a.weight + b.weight + loopCost fuel (n + 1) (pqInsert { weight := a.weight + b.weight, seq := n, node := n } q)
  | _, _, _ => 0

/-- The merge loop (R155 to R157): what it keeps, what it ends in, and what the tree costs. -/
theorem mergeLoop_forest {text syms : List Symbol} (fuel : Nat) {nodes : List Node} {q : List PQEntry} {g : Nat → Tree}
    {f : Nat → List Nat} (h : Forest text syms nodes q g f) (hne : q ≠ []) (hq : q.length ≤ fuel + 1)
    (hn : nodes.length + q.length ≤ 512) :
    ∃ r g' f', (mergeLoop fuel nodes q).2 = [r] ∧ Forest text syms (mergeLoop fuel nodes q).1 [r] g' f' ∧
      (mergeLoop fuel nodes q).1.length = nodes.length + q.length - 1 ∧
      (2 ≤ q.length → r.node = nodes.length + q.length - 2) ∧
      (g' r.node).cost (fun s => text.count s) =
        (q.map (fun e => (g e.node).cost (fun s => text.count s))).sum + loopCost fuel nodes.length q := by
  induction fuel generalizing nodes q g f with
  | zero =>
    match q, hne, hq with
    | [r], _, _ => exact ⟨r, g, f, rfl, h, by simp [mergeLoop], by simp, by simp [loopCost]⟩
    | _ :: _ :: _, _, hq => simp at hq
  | succ fuel ih =>
    match q, hne with
    | [r], _ => exact ⟨r, g, f, rfl, h, by simp [mergeLoop], by simp, by simp [loopCost]⟩
    | a :: b :: q, _ =>
      simp only [List.length_cons] at hq hn
      have hm := h.merge (by omega) { weight := a.weight + b.weight, seq := nodes.length, node := nodes.length } rfl rfl
      have hm' := hm.perm (pqInsert_perm { weight := a.weight + b.weight, seq := nodes.length, node := nodes.length } q)
      obtain ⟨r, g', f', h1, h2, h3, h4, h5⟩ := ih hm' (by intro e; have := congrArg List.length e; simp at this)
        (by simp; omega) (by simp; omega)
      refine ⟨r, g', f', h1, h2, ?_, ?_, ?_⟩
      rotate_left 2
      · have hlt := h.node_lt
        have hsum : ∀ x : PQEntry, ((pqInsert x q).map (fun e => Tree.cost (fun s => text.count s)
              (if e.node = nodes.length then .node (g a.node) (g b.node) else g e.node))).sum =
            Tree.cost (fun s => text.count s) (if x.node = nodes.length then .node (g a.node) (g b.node) else g x.node) +
              (q.map (fun e => (g e.node).cost (fun s => text.count s))).sum := by
          intro x
          rw [((pqInsert_perm x q).map _).sum_eq, List.map_cons, List.sum_cons]
          congr 2
          apply List.map_congr_left
          intro e he
          have : ¬ e.node = nodes.length := by have := hlt e (by simp [he]); omega
          simp [this]
        rw [h5, hsum]
        simp only [if_true, Tree.cost, loopCost, List.map_cons, List.sum_cons, List.length_append, List.length_cons,
          List.length_nil, Nat.zero_add, h.weight a (by simp), h.weight b (by simp)]
        omega
      · simp only [mergeLoop, h3, length_pqInsert, List.length_append, List.length_cons, List.length_nil]; omega
      · intro _
        cases q with
        | nil =>
          simp only [mergeLoop, pqInsert] at h1 ⊢
          cases fuel <;> (rw [← (List.cons.inj h1).1]; simp)
        | cons c q =>
          have := h4 (by simp)
          rw [this]
          simp only [length_pqInsert, List.length_append, List.length_cons, List.length_nil]; omega

/-! ### the slot BUILD makes -/

theorem mem_allSymbols (s : Symbol) : s ∈ allSymbols := by
  simp only [allSymbols, List.mem_map, List.mem_range]
  exact ⟨s.toNat, s.isLt, by simp⟩

theorem nodup_allSymbols : allSymbols.Nodup := by
  rw [allSymbols, List.nodup_map_iff_inj_on List.nodup_range]
  intro a ha b hb h
  have h2 := congrArg BitVec.toNat h
  simp only [List.mem_range, Config.NSYM] at ha hb
  simp only [BitVec.toNat_ofNat] at h2
  omega

theorem frequency_toNat {text : List Symbol} (h : text.length < 65536) (s : Symbol) :
    (frequency text s).toNat = text.count s := by
  have := List.count_le_length (l := text) (a := s)
  simp only [frequency, BitVec.toNat_ofNat]
  omega

theorem mem_presentSymbols {text : List Symbol} (h : text.length < 65536) (s : Symbol) :
    s ∈ presentSymbols text ↔ s ∈ text := by
  simp only [presentSymbols, List.mem_filter, mem_allSymbols, true_and, decide_eq_true_eq, BitVec.lt_def,
    frequency_toNat h]
  exact List.count_pos_iff

theorem nodup_presentSymbols (text : List Symbol) : (presentSymbols text).Nodup := nodup_allSymbols.filter _

theorem length_presentSymbols_le (text : List Symbol) : (presentSymbols text).length ≤ 256 := by
  have h1 : (presentSymbols text).length ≤ allSymbols.length := List.length_filter_le _ _
  have h2 : allSymbols.length = 256 := by simp [allSymbols]
  omega

/-- L, the number of distinct symbols of the text (R152). -/
theorem length_presentSymbols {text : List Symbol} (h : text.length < 65536) :
    (presentSymbols text).length = text.toFinset.card := by
  rw [← List.toFinset_card_of_nodup (nodup_presentSymbols text)]
  congr 1
  ext s
  simp [mem_presentSymbols h]

/-- The symbols are in ascending order (R153). -/
theorem sorted_presentSymbols (text : List Symbol) : (presentSymbols text).Pairwise (fun a b => a < b) := by
  refine List.Pairwise.filter _ ?_
  rw [allSymbols, List.pairwise_map]
  refine List.Pairwise.imp_of_mem ?_ List.pairwise_lt_range
  intro a b ha hb hab
  simp only [List.mem_range, Config.NSYM] at ha hb
  rw [BitVec.lt_def, BitVec.toNat_ofNat, BitVec.toNat_ofNat]
  omega

/-- The forest of the leaves alone. -/
theorem leaves_forest {text : List Symbol} (h : text.length < 65536) :
    ∃ g f, Forest text (presentSymbols text) ((presentSymbols text).map (leafNode text))
      (leafEntries text (presentSymbols text).length 0 (presentSymbols text)) g f := by
  have hnode := map_node_leafEntries text (presentSymbols text).length 0 (presentSymbols text)
  generalize presentSymbols text = syms at *
  refine ⟨fun i => .leaf (syms.getD i 0#8), fun i => [i], ?_, ?_, ?_, ?_⟩
  · intro e he
    obtain ⟨j, s, hj, rfl⟩ := mem_leafEntries he
    simp only [Nat.zero_add]
    have hs : syms.getD j 0#8 = s := by simp [List.getD, hj]
    have hnd : (syms.map (leafNode text))[j]? = some (leafNode text s) := by simp [hj]
    have := Occupies.leaf hnd rfl
    rw [hs]
    exact this
  · rw [hnode]
    simp [List.range_eq_range', List.flatMap_singleton']
  · rw [hnode]
    have : (List.range' 0 syms.length).flatMap (fun i => (Tree.leaf (syms.getD i 0#8)).leaves) = syms := by
      simp only [Tree.leaves]
      apply List.ext_getElem?
      intro i
      rw [← List.range_eq_range']
      have h2 : (List.range syms.length).flatMap (fun i => [syms.getD i 0#8]) =
          (List.range syms.length).map (fun i => syms.getD i 0#8) := (List.map_eq_flatMap ..).symm
      rw [h2]
      by_cases hi : i < syms.length
      · simp [hi]
      · simp [hi]
    rw [this]
  · intro e he
    obtain ⟨j, s, hj, rfl⟩ := mem_leafEntries he
    have hs : syms.getD j 0#8 = s := by simp [List.getD, hj]
    simp [Tree.leaves, frequency_toNat h, hj]

/-- The slot BUILD makes from a text with at least two distinct symbols (R157, R159, R160). -/
theorem huffmanSlot_forest {text : List Symbol} (h : text.length < 65536) (hL : 2 ≤ (presentSymbols text).length) :
    ∃ r g f, Forest text (presentSymbols text) (huffmanSlot text).nodes [r] g f ∧
      (huffmanSlot text).nodes.length = 2 * (presentSymbols text).length - 1 ∧
      (huffmanSlot text).root.toNat = r.node ∧ r.node = 2 * (presentSymbols text).length - 2 ∧
      (g r.node).cost (fun s => text.count s) =
        loopCost (presentSymbols text).length (presentSymbols text).length
          (enqueueLeaves text (presentSymbols text).length 0 (presentSymbols text) []) := by
  obtain ⟨g, f, hf⟩ := leaves_forest h
  have hle := length_presentSymbols_le text
  have hp := enqueueLeaves_perm text (presentSymbols text).length 0 (presentSymbols text) []
  rw [List.append_nil] at hp
  have hlen := length_enqueueLeaves text (presentSymbols text).length 0 (presentSymbols text) []
  simp only [List.length_nil, Nat.add_zero] at hlen
  obtain ⟨r, g', f', h1, h2, h3, h4, h5⟩ := mergeLoop_forest (presentSymbols text).length (hf.perm hp)
    (by intro e; rw [e] at hlen; simp at hlen; omega) (by omega) (by simp [hlen]; omega)
  simp only [hlen, List.length_map] at h3 h4
  have h4' := h4 hL
  refine ⟨r, g', f', h2, ?_, ?_, by omega, ?_⟩
  rotate_left 2
  · have hz : ((enqueueLeaves text (presentSymbols text).length 0 (presentSymbols text) []).map
        (fun e => (g e.node).cost (fun s => text.count s))).sum = 0 := by
      apply List.sum_eq_zero
      intro x hx
      obtain ⟨e, he, rfl⟩ := List.mem_map.mp hx
      obtain ⟨j, s, hj, rfl⟩ := mem_leafEntries (hp.mem_iff.mp he)
      have ho := (hf.perm hp).occ _ he
      simp only [Nat.zero_add] at ho ⊢
      obtain ⟨nd, hi, hl, _⟩ := ho.isLeaf
      have hnd : nd = leafNode text s := by simpa [hj] using hi.symm
      rw [hnd] at hl
      cases hg : g j with
      | leaf a => rfl
      | node z o => rw [hg] at hl; simp [leafNode, Tree.isNode] at hl
    rw [h5, hz, List.length_map, Nat.zero_add]
  · show (mergeLoop _ _ _).1.length = _
    rw [h3]; omega
  · simp only [huffmanSlot, h1, List.map_cons, List.headD_cons, BitVec.toNat_ofNat]
    omega

/-- R47 and R160 of the built slot: it is well formed, NODE_COUNT = 2L - 1, ROOT = 2L - 2, its leaves hold the symbols of
the text, each once, and its root is internal. -/
theorem huffmanSlot_spec {text : List Symbol} (h : text.length < 65536) (hL : 2 ≤ (presentSymbols text).length) :
    (huffmanSlot text).wf = true ∧ (huffmanSlot text).nodeCount = 2 * (presentSymbols text).length - 1 ∧
      (huffmanSlot text).root.toNat = 2 * (presentSymbols text).length - 2 ∧
      ∃ T, (huffmanSlot text).abstract = some T ∧ T.leaves.Perm (presentSymbols text) ∧ T.isNode = true ∧
        T.cost (fun s => text.count s) =
          loopCost (presentSymbols text).length (presentSymbols text).length
            (enqueueLeaves text (presentSymbols text).length 0 (presentSymbols text) []) := by
  obtain ⟨r, g, f, hf, h1, h2, h3, h4⟩ := huffmanSlot_forest h hL
  have hle := length_presentSymbols_le text
  have hocc := hf.occ r (by simp)
  have hcov := hf.cover
  have hlv := hf.leaves
  simp only [List.map_cons, List.map_nil, List.flatMap_cons, List.flatMap_nil, List.append_nil] at hcov hlv
  rw [← h2] at hocc
  have hwf : (huffmanSlot text).wf = true := by
    apply TreeSlot.wf_of_occupies hocc
    · rw [h2]; exact hcov
    · simp only [TreeSlot.nodeCount, h1]; omega
  refine ⟨hwf, h1, by omega, ?_⟩
  obtain ⟨T, v, ho, hT, _⟩ := TreeSlot.occupies_of_wf hwf
  have hd := (g r.node).depth_le
  have hsl := (g r.node).shape_length
  have hll : (g r.node).leaves.length = (presentSymbols text).length := hlv.length_eq
  have hab : (huffmanSlot text).abstract = some (g r.node) := by
    rw [h2] at hocc
    have := hocc.treeAt Config.NODE_MAX (show (g r.node).depth < 511 by omega)
    rw [TreeSlot.abstract, h2]; exact this
  refine ⟨g r.node, hab, hlv, ?_, h4⟩
  cases hg : g r.node with
  | leaf s => rw [hg] at hll; simp [Tree.leaves] at hll; omega
  | node z o => rfl

end Sys2Proof.Machine
end

