-- ==== Sys2Proof/Laws/Cost.lean ====
section
/-! SUPPORT. The greedy merge is cheap: merging L ≤ 2^k entries of total weight W creates nodes of total weight at most
k · W. With the tree's code lengths this bounds the bits of a text under its own tree (42_message_codec.md R215). -/

namespace Sys2Proof.Machine

/-- The total weight of a list of entries. -/
def totalWeight (q : List PQEntry) : Nat := (q.map PQEntry.weight).sum

@[simp] theorem totalWeight_nil : totalWeight [] = 0 := rfl
@[simp] theorem totalWeight_cons (e : PQEntry) (q : List PQEntry) :
    totalWeight (e :: q) = e.weight + totalWeight q := by simp [totalWeight]

theorem totalWeight_pqInsert (e : PQEntry) (q : List PQEntry) :
    totalWeight (pqInsert e q) = e.weight + totalWeight q := by
  have := ((pqInsert_perm e q).map PQEntry.weight).sum_eq
  simpa [totalWeight] using this

theorem totalWeight_take_le (q : List PQEntry) (t : Nat) : totalWeight (q.take t) ≤ totalWeight q := by
  induction q generalizing t with
  | nil => simp
  | cons e q ih =>
    cases t with
    | zero => simp
    | succ t => simpa using ih t

/-- Weights rising along the queue. -/
abbrev Rising (q : List PQEntry) : Prop := q.Pairwise (fun a b => a.weight ≤ b.weight)

theorem Rising.pqInsert {q : List PQEntry} (h : Rising q) (e : PQEntry) : Rising (pqInsert e q) := by
  induction q with
  | nil => simp [Machine.pqInsert]
  | cons f q ih =>
    obtain ⟨h1, h2⟩ := List.pairwise_cons.mp h
    simp only [Machine.pqInsert]
    split
    · rename_i he
      rw [PQEntry.precedes_iff] at he
      refine List.pairwise_cons.mpr ⟨?_, h⟩
      intro x hx
      rcases List.mem_cons.mp hx with rfl | hx
      · omega
      · have := h1 x hx; omega
    · rename_i he
      rw [PQEntry.precedes_iff] at he
      refine List.pairwise_cons.mpr ⟨?_, ih h2⟩
      intro x hx
      rcases mem_pqInsert.mp hx with rfl | hx
      · omega
      · exact h1 x hx

/-- The t lightest weights do not get heavier when an entry is added. -/
theorem Rising.take_pqInsert {q : List PQEntry} (h : Rising q) (e : PQEntry) (t : Nat) (ht : t ≤ q.length) :
    totalWeight ((Machine.pqInsert e q).take t) ≤ totalWeight (q.take t) := by
  induction q generalizing t with
  | nil => simp at ht; subst ht; simp
  | cons f q ih =>
    obtain ⟨h1, h2⟩ := List.pairwise_cons.mp h
    cases t with
    | zero => simp
    | succ t =>
      simp only [List.length_cons] at ht
      simp only [Machine.pqInsert]
      split
      · rename_i he
        rw [PQEntry.precedes_iff] at he
        have hef : e.weight ≤ f.weight := by omega
        have key : ∀ (q : List PQEntry) (t : Nat) (f : PQEntry), e.weight ≤ f.weight →
            (∀ x ∈ q, f.weight ≤ x.weight) → Rising q → t ≤ q.length →
            e.weight + totalWeight ((f :: q).take t) ≤ f.weight + totalWeight (q.take t) := by
          intro q
          induction q with
          | nil => intro t f h1 _ _ ht; simp at ht; subst ht; simpa using h1
          | cons x q ihq =>
            intro t f h1 h2 h3 ht
            cases t with
            | zero => simpa using h1
            | succ t =>
              obtain ⟨h4, h5⟩ := List.pairwise_cons.mp h3
              have := ihq t x (by have := h2 x (by simp); omega) h4 h5 (by simpa using ht)
              simp only [List.take_succ_cons, totalWeight_cons] at this ⊢
              omega
        have := key q t f hef h1 h2 (by omega)
        simpa using this
      · have := ih h2 t (by omega)
        simpa using this

/-- m merges of at least 2m entries create nodes of total weight at most that of the 2m lightest. -/
theorem loopCost_phase (m : Nat) {q : List PQEntry} (h : Rising q) (hm : 2 * m ≤ q.length) (n : Nat) :
    ∃ q', Rising q' ∧ q'.length = q.length - m ∧ totalWeight q' = totalWeight q ∧
      ∀ fuel, loopCost fuel n q ≤ totalWeight (q.take (2 * m)) + loopCost (fuel - m) (n + m) q' := by
  induction m generalizing q n with
  | zero => exact ⟨q, h, rfl, rfl, fun fuel => by simp⟩
  | succ m ih =>
    match q, h, hm with
    | [], _, hm => simp at hm
    | [_], _, hm => simp at hm; omega
    | a :: b :: q, h, hm =>
      obtain ⟨_, h1⟩ := List.pairwise_cons.mp h
      obtain ⟨_, h2⟩ := List.pairwise_cons.mp h1
      simp only [List.length_cons] at hm
      let e : PQEntry := { weight := a.weight + b.weight, seq := n, node := n }
      obtain ⟨q', g1, g2, g3, g4⟩ := ih (Rising.pqInsert h2 e) (by simp; omega) (n + 1)
      refine ⟨q', g1, by simp [g2], ?_, ?_⟩
      · rw [g3, totalWeight_pqInsert]; simp [e]; omega
      · intro fuel
        cases fuel with
        | zero => simp [loopCost]
        | succ fuel =>
          have t1 := g4 fuel
          have t2 := Rising.take_pqInsert h2 e (2 * m) (by omega)
          have e1 : 2 * (m + 1) = (2 * m) + 1 + 1 := by omega
          have e2 : n + 1 + m = n + (m + 1) := by omega
          have e3 : fuel + 1 - (m + 1) = fuel - m := by omega
          rw [e1, e3]
          simp only [loopCost, List.take_succ_cons, totalWeight_cons]
          rw [e2] at t1
          change a.weight + b.weight + loopCost fuel (n + 1) (pqInsert e q) ≤ _
          omega

/-- Merging at most 2^k entries costs at most k times their total weight. -/
theorem loopCost_le (k : Nat) {q : List PQEntry} (h : Rising q) (hq : q.length ≤ 2 ^ k) (fuel n : Nat) :
    loopCost fuel n q ≤ k * totalWeight q := by
  induction k generalizing q fuel n with
  | zero =>
    match q, hq with
    | [], _ => cases fuel <;> simp [loopCost]
    | [_], _ => cases fuel <;> simp [loopCost]
    | _ :: _ :: _, hq => simp at hq
  | succ k ih =>
    have hp : 2 ^ (k + 1) = 2 * 2 ^ k := by rw [pow_succ]; omega
    obtain ⟨q', g1, g2, g3, g4⟩ := loopCost_phase (q.length - 2 ^ k) h (by omega) n
    have t1 := g4 fuel
    have t2 := totalWeight_take_le q (2 * (q.length - 2 ^ k))
    have t3 := ih g1 (by omega) (fuel - (q.length - 2 ^ k)) (n + (q.length - 2 ^ k))
    rw [g3] at t3
    have : (k + 1) * totalWeight q = k * totalWeight q + totalWeight q := by ring
    omega

theorem InOrder.rising {q : List PQEntry} (h : InOrder q) : Rising q :=
  h.imp (fun {a b} hab => by rw [PQEntry.precedes_iff] at hab; omega)

/-! ### the bits of a text under its own tree -/

theorem Tree.code_leaf_length {T : Tree} (hd : T.leaves.Nodup) (w : Symbol → Nat) :
    (T.leaves.map (fun s => w s * ((T.code s).getD []).length)).sum = T.cost w := by
  induction T with
  | leaf a => simp [Tree.leaves, Tree.code, Tree.cost]
  | node z o hz ho =>
    simp only [Tree.leaves, List.nodup_append'] at hd
    obtain ⟨h1, h2, h3⟩ := hd
    have e1 : (z.leaves.map (fun s => w s * (((Tree.node z o).code s).getD []).length)).sum =
        z.cost w + (z.leaves.map w).sum := by
      rw [← hz h1, ← List.sum_map_add]
      congr 1
      apply List.map_congr_left
      intro s hs
      have h4 : o.code s = none := by
        rw [← Option.not_isSome_iff_eq_none, Tree.code_isSome]
        exact fun h => h3 hs h
      obtain ⟨p, hp⟩ := Option.isSome_iff_exists.mp ((z.code_isSome s).mpr hs)
      simp only [Tree.code, h4, hp, Option.map_some, Option.getD_some, List.length_cons]
      ring
    have e2 : (o.leaves.map (fun s => w s * (((Tree.node z o).code s).getD []).length)).sum =
        o.cost w + (o.leaves.map w).sum := by
      rw [← ho h2, ← List.sum_map_add]
      congr 1
      apply List.map_congr_left
      intro s hs
      obtain ⟨p, hp⟩ := Option.isSome_iff_exists.mp ((o.code_isSome s).mpr hs)
      simp only [Tree.code, hp, Option.getD_some, List.length_cons]
      ring
    simp only [Tree.leaves, List.map_append, List.sum_append, e1, e2, Tree.cost]
    omega

theorem sum_text_eq (text leaves : List Symbol) (hd : leaves.Nodup) (hs : ∀ s ∈ text, s ∈ leaves)
    (F : Symbol → Nat) : (text.map F).sum = (leaves.map (fun s => text.count s * F s)).sum := by
  induction text with
  | nil => simp
  | cons x text ih =>
    rw [List.map_cons, List.sum_cons, ih (fun s h => hs s (by simp [h]))]
    have hx : x ∈ leaves := hs x (by simp)
    have e : (leaves.map (fun s => (x :: text).count s * F s)).sum =
        (leaves.map (fun s => text.count s * F s)).sum + (leaves.map (fun s => if s = x then F x else 0)).sum := by
      rw [← List.sum_map_add]
      congr 1
      apply List.map_congr_left
      intro s _
      by_cases h : s = x
      · subst h; simp; ring
      · have h' : ¬ x = s := fun e => h e.symm
        simp [h, h']
    have e2 : (leaves.map (fun s => if s = x then F x else 0)).sum = F x := by
      clear ih e hs
      induction leaves with
      | nil => simp at hx
      | cons y leaves ih =>
        obtain ⟨h1, h2⟩ := List.nodup_cons.mp hd
        rcases List.mem_cons.mp hx with rfl | hx
        · have : (leaves.map (fun s => if s = x then F x else 0)).sum = 0 := by
            apply List.sum_eq_zero
            intro v hv
            obtain ⟨s, hs, rfl⟩ := List.mem_map.mp hv
            have : ¬ s = x := fun e => h1 (e ▸ hs)
            simp [this]
          simp [this]
        · have : ¬ y = x := fun e => h1 (e ▸ hx)
          simpa [this] using ih h2 hx
    rw [e, e2]; omega

/-- The bits of a text under the tree BUILD makes from it are at most 8 a symbol (R215, 43_top_level.md R243). -/
theorem huffmanSlot_bits {text : List Symbol} (h : text.length < 65536) (hL : 2 ≤ (presentSymbols text).length) {T : Tree}
    (hT : (huffmanSlot text).abstract = some T) :
    (∀ s ∈ text, (T.code s).isSome) ∧ (codeBits T.code text).length ≤ 8 * text.length := by
  obtain ⟨_, _, _, T', hT', hlv, _, hc⟩ := huffmanSlot_spec h hL
  rw [hT] at hT'
  cases hT'
  have hmem : ∀ s ∈ text, s ∈ T.leaves := fun s hs =>
    hlv.mem_iff.mpr ((mem_presentSymbols h s).mpr hs)
  have hd : T.leaves.Nodup := hlv.nodup_iff.mpr (nodup_presentSymbols text)
  refine ⟨fun s hs => (T.code_isSome s).mpr (hmem s hs), ?_⟩
  have e1 : (codeBits T.code text).length = (text.map (fun s => ((T.code s).getD []).length)).sum := by
    simp [codeBits, List.length_flatMap]
  have hord : InOrder (enqueueLeaves text (presentSymbols text).length 0 (presentSymbols text) []) :=
    inOrder_enqueueLeaves List.Pairwise.nil (by simp) (by simp)
  have hlen := length_enqueueLeaves text (presentSymbols text).length 0 (presentSymbols text) []
  have hle := length_presentSymbols_le text
  have hb := loopCost_le 8 hord.rising (by rw [hlen]; simpa using hle) (presentSymbols text).length
    (presentSymbols text).length
  have hw : totalWeight (enqueueLeaves text (presentSymbols text).length 0 (presentSymbols text) []) = text.length := by
    have hp := enqueueLeaves_perm text (presentSymbols text).length 0 (presentSymbols text) []
    have e2 : ∀ (ss : List Symbol) (k L : Nat), totalWeight (leafEntries text L k ss) =
        (ss.map (fun s => text.count s)).sum := by
      intro ss
      induction ss with
      | nil => intros; rfl
      | cons s ss ih => intro k L; simp [leafEntries, frequency_toNat h, ih]
    have e3 := (hp.map PQEntry.weight).sum_eq
    rw [List.append_nil] at e3
    have e4 := sum_text_eq text (presentSymbols text) (nodup_presentSymbols text)
      (fun s hs => (mem_presentSymbols h s).mpr hs) (fun _ => 1)
    simp only [mul_one, List.map_const', List.sum_replicate, smul_eq_mul] at e4
    rw [e4]
    rw [← e2 (presentSymbols text) 0 (presentSymbols text).length]
    exact e3
  rw [e1, sum_text_eq text T.leaves hd hmem, Tree.code_leaf_length hd (fun s => text.count s), hc]
  rw [hw] at hb
  exact hb

end Sys2Proof.Machine
end

