-- ==== Sys2Proof/Laws/Commands.lean ====
section
/-! SUPPORT. What each operation phase does, as one equation per outcome, and what each command can do at all. -/

namespace Sys2Proof.Machine

/-! ### the held tree -/

/-- The sizes of a held tree (10_state.md R47, 00_scope.md R11). -/
theorem TreeSlot.sizes {slot : TreeSlot} {T : Tree} (hw : slot.wf = true) (hT : slot.abstract = some T) :
    T.shape.length = slot.nodeCount ∧ T.shape.length ≤ 511 ∧ T.leaves.length ≤ 256 ∧ T.depth ≤ 255 := by
  obtain ⟨T', v, _, hT', _, h1, h2, h3, _⟩ := TreeSlot.occupies_of_wf hw
  rw [hT] at hT'; cases hT'
  have := T.shape_length
  exact ⟨h1, by omega, by omega, h3⟩

/-! ### operands -/

theorem length_textSeq (s : State) : s.textSeq.length = s.textLen.toNat := Buf.length_readMany _ _ _ _
theorem length_shapeSeq (s : State) : s.shapeSeq.length = s.shapeLen.toNat := Buf.length_readMany _ _ _ _
theorem length_leavesSeq (s : State) : s.leavesSeq.length = s.leavesLen.toNat := Buf.length_readMany _ _ _ _
theorem length_bitsSeq (s : State) : s.bitsSeq.length = s.bitsLen.toNat := Buf.length_readMany _ _ _ _

theorem length_textSeq_lt (s : State) : s.textSeq.length < 65536 := by rw [length_textSeq]; exact s.textLen.isLt

/-- A sequence a command wrote is the sequence the next command reads. -/
theorem Buf.readMany_overwrite {α : Type} (b : Buf α) (xs : List α) (draw : Nat → α) (n : Half)
    (h : n = BitVec.ofNat 16 xs.length) (hl : xs.length < 65536) :
    Buf.readMany (Buf.overwrite b xs) draw 0 n.toNat = xs := by
  have : n.toNat = xs.length := by rw [h, BitVec.toNat_ofNat]; omega
  rw [this]
  apply Buf.readMany_eq
  intro i hi
  rw [Buf.get_overwrite, if_pos hi]

/-! ### the checks -/

theorem checkTextLen_pass {s : State} (h : s.textLen.toNat ≤ 4096) : s.checkTextLen = none := lenCheck_eq_none.mpr h
theorem checkShapeLen_pass {s : State} (h : s.shapeLen.toNat ≤ 511) : s.checkShapeLen = none := lenCheck_eq_none.mpr h
theorem checkLeavesLen_pass {s : State} (h : s.leavesLen.toNat ≤ 256) : s.checkLeavesLen = none := lenCheck_eq_none.mpr h
theorem checkBitsLen_pass {s : State} (h : s.bitsLen.toNat ≤ 32768) : s.checkBitsLen = none := lenCheck_eq_none.mpr h
theorem treeCheck_pass {s : State} {slot : TreeSlot} (h : s.tree = some slot) : treeCheck s = none :=
  treeCheck_eq_none.mpr (by simp [h])

/-! ### BUILD -/

/-- The counts BUILD leaves in FREQ (40_tree_builder.md R151). -/
theorem get_counts {text : List Symbol} (x : Symbol) :
    Buf.get (Buf.ofList 0 (allSymbols.map (frequency text))) x.toNat = some (frequency text x) := by
  rw [Buf.get_ofList]
  have hx := x.isLt
  simp [allSymbols, hx]

theorem buildOp_small {s : State} (h : s.textSeq.toFinset.card < 2) :
    buildOp s =
      { state := { s.release with mem := { s.mem with freq := Buf.ofList 0 (allSymbols.map (frequency s.textSeq)) } }
        stop := some (.raised .alphabet s.textSeq.toFinset.card) } := by
  have hl := length_presentSymbols (length_textSeq_lt s)
  simp only [buildOp, hl, h, if_true]

theorem buildOp_large {s : State} (h : 2 ≤ s.textSeq.toFinset.card) :
    buildOp s =
      { state := { s with tree := some (huffmanSlot s.textSeq)
                          mem := { s.mem with freq := Buf.ofList 0 (allSymbols.map (frequency s.textSeq)) } }
        stop := none } := by
  have hl := length_presentSymbols (length_textSeq_lt s)
  simp only [buildOp, hl, show ¬ s.textSeq.toFinset.card < 2 by omega, if_false, State.release]

/-- What BUILD's tree is (40_tree_builder.md R159, R160; 42_message_codec.md R243's bound). -/
theorem huffmanSlot_tree {text : List Symbol} (h : text.length < 65536) (hL : 2 ≤ text.toFinset.card) :
    ∃ T, (huffmanSlot text).wf = true ∧ (huffmanSlot text).abstract = some T ∧
      (huffmanSlot text).nodeCount = 2 * text.toFinset.card - 1 ∧
      (huffmanSlot text).root.toNat = 2 * text.toFinset.card - 2 ∧ T.leaves.Nodup ∧ (∀ x, x ∈ T.leaves ↔ x ∈ text) ∧
      T.isNode = true ∧ T.leaves.length = text.toFinset.card ∧ text.toFinset.card ≤ 256 ∧
      (∀ x ∈ text, (T.code x).isSome) ∧ (codeBits T.code text).length ≤ 8 * text.length := by
  have hl := length_presentSymbols h
  have hp : 2 ≤ (presentSymbols text).length := by omega
  obtain ⟨h1, h2, h3, T, hT, h4, h5, _⟩ := huffmanSlot_spec h hp
  obtain ⟨h6, h7⟩ := huffmanSlot_bits h hp hT
  have h8 := length_presentSymbols_le text
  rw [hl] at h2 h3 h8
  exact ⟨T, h1, hT, h2, h3, h4.nodup_iff.mpr (nodup_presentSymbols text),
    fun x => by rw [h4.mem_iff, mem_presentSymbols h], h5, by rw [h4.length_eq, hl], h8, h6, h7⟩

/-- The tree depends on the counts only (40_tree_builder.md R161). -/
theorem huffmanSlot_congr {a b : List Symbol} (h : ∀ x, a.count x = b.count x) :
    huffmanSlot a = huffmanSlot b ∧ presentSymbols a = presentSymbols b := by
  have hf : frequency a = frequency b := by funext x; simp [frequency, h]
  have hp : presentSymbols a = presentSymbols b := by simp only [presentSymbols, hf]
  have hl : leafNode a = leafNode b := by funext x; simp [leafNode, hf]
  have he : ∀ total k ss q, enqueueLeaves a total k ss q = enqueueLeaves b total k ss q := by
    intro total k ss
    induction ss generalizing k with
    | nil => intros; rfl
    | cons x ss ih => intro q; simp only [enqueueLeaves, hf, ih]
  exact ⟨by simp only [huffmanSlot, hp, hl, he], hp⟩

/-! ### FLATTEN -/

theorem flattenOp_of_tree {s : State} {slot : TreeSlot} {T : Tree} (hs : s.tree = some slot)
    (hT : slot.abstract = some T) :
    flattenOp s =
      { state := { s with mem := { s.mem with shape := Buf.overwrite s.mem.shape T.shape
                                              leaves := Buf.overwrite s.mem.leaves T.leaves }
                          shapeLen := BitVec.ofNat 16 T.shape.length
                          leavesLen := BitVec.ofNat 16 T.leaves.length }
        stop := none } := by
  simp only [flattenOp, hs, TreeSlot.flat_eq, hT, Option.map_some]

/-! ### UNFLATTEN -/

theorem unflattenOp_of_tree {s : State} (strict : Bool) {T : Tree} {rs : List Bool} {rl : List Symbol}
    (hs : s.shapeSeq = T.shape ++ rs) (hl : s.leavesSeq = T.leaves ++ rl) :
    unflattenOp strict s =
      if strict = true ∧ ¬ (rs = [] ∧ rl = []) then
        { state := s.release, stop := some (.raised .trailingData T.shape.length) }
      else { state := { s with tree := some { root := 0#9, nodes := T.arena 0 } }, stop := none } := by
  simp only [unflattenOp, hs, hl, unflattenSeqs_of_tree]
  split <;> rename_i h <;> split at h <;> simp_all [State.release]

/-- The ways UNFLATTEN can end (41_tree_codec.md R187 to R189). -/
theorem unflattenOp_cases (strict : Bool) (s : State) :
    (∃ (T : Tree) (rs : List Bool) (rl : List Symbol), s.shapeSeq = T.shape ++ rs ∧ s.leavesSeq = T.leaves ++ rl) ∨
      (unflattenOp strict s =
          { state := s.release, stop := some (.raised .shapeUnderrun s.shapeSeq.length) } ∧
        (∀ (T : Tree) (r : List Bool), s.shapeSeq ≠ T.shape ++ r) ∧ s.shapeSeq.count false ≤ s.leavesSeq.length) ∨
      unflattenOp strict s =
        { state := s.release, stop := some (.raised .leavesUnderrun s.leavesSeq.length) } ∧
        ((∃ (T : Tree) (r : List Bool), s.shapeSeq = T.shape ++ r ∧ s.leavesSeq.length < T.leaves.length) ∨
          ((∀ (T : Tree) (r : List Bool), s.shapeSeq ≠ T.shape ++ r) ∧
            s.leavesSeq.length < s.shapeSeq.count false)) := by
  cases hb : buildAt (s.shapeSeq.length + 1)
      { sp := 0, lp := 0, n := 0, shape := s.shapeSeq, leaves := s.leavesSeq } with
  | ok r =>
    obtain ⟨T, h1, h2, _⟩ := buildAt_ok hb
    exact .inl ⟨T, _, _, h1, h2⟩
  | error e =>
    have hu : unflattenOp strict s = { state := s.release, stop := some e } := by
      simp only [unflattenOp, unflattenSeqs, hb]
    rcases buildAt_error (by simp) hb with ⟨he, h⟩ | ⟨he, h⟩
    · simp only [Nat.zero_add] at he; subst he; exact .inr (.inl ⟨hu, h⟩)
    · simp only [Nat.zero_add] at he; subst he; exact .inr (.inr ⟨hu, h⟩)

/-! ### ENCODE -/

theorem encodeOp_eq {s : State} {slot : TreeSlot} {T : Tree} (hs : s.tree = some slot) (hT : slot.abstract = some T) :
    encodeOp s =
      match encodeFrom T.code s.textSeq 0 0 with
      | .error e => { state := { s with mem := { s.mem with bits := [] } }, stop := some e }
      | .ok bits =>
        { state := { s with mem := { s.mem with bits := Buf.overwrite s.mem.bits bits }
                            bitsLen := BitVec.ofNat 16 bits.length }
          stop := none } := by
  simp only [encodeOp, hs, TreeSlot.paths_eq, hT, Option.map_some, codeOf_paths_nil]
    <;> rfl

theorem encodeOp_ok {s : State} {slot : TreeSlot} {T : Tree} (hs : s.tree = some slot) (hT : slot.abstract = some T)
    (hm : ∀ x ∈ s.textSeq, (T.code x).isSome) (hb : (codeBits T.code s.textSeq).length ≤ 32768) :
    encodeOp s =
      { state := { s with mem := { s.mem with bits := Buf.overwrite s.mem.bits (codeBits T.code s.textSeq) }
                          bitsLen := BitVec.ofNat 16 (codeBits T.code s.textSeq).length }
        stop := none } := by
  rw [encodeOp_eq hs hT, encodeFrom_ok _ hm hb]

/-! ### DECODE -/

theorem decodeOp_eq {s : State} {slot : TreeSlot} (strict : Bool) (hs : s.tree = some slot) :
    decodeOp strict s =
      match slot.decodeBits strict s.bitsSeq with
      | .error e => { state := { s with mem := { s.mem with out := [] } }, stop := some e }
      | .ok out =>
        { state := { s with mem := { s.mem with out := Buf.overwrite s.mem.out out }
                            outLen := BitVec.ofNat 16 out.length }
          stop := none } := by
  simp only [decodeOp, hs]
    <;> rfl

/-! ### COMPRESS -/

/-- COMPRESS of a text with at least two distinct symbols runs all its stages and succeeds (43_top_level.md R240,
R243). -/
theorem compressOp_large {s : State} (h : 2 ≤ s.textSeq.toFinset.card) (ht : s.textLen.toNat ≤ 4096) {T : Tree}
    (hT : (huffmanSlot s.textSeq).abstract = some T) :
    compressOp s =
      { state := { s with tree := none
                          mem := { s.mem with freq := Buf.ofList 0 (allSymbols.map (frequency s.textSeq))
                                              shape := Buf.overwrite s.mem.shape T.shape
                                              leaves := Buf.overwrite s.mem.leaves T.leaves
                                              bits := Buf.overwrite s.mem.bits (codeBits T.code s.textSeq) }
                          shapeLen := BitVec.ofNat 16 T.shape.length
                          leavesLen := BitVec.ofNat 16 T.leaves.length
                          bitsLen := BitVec.ofNat 16 (codeBits T.code s.textSeq).length }
        stop := none } := by
  have hlt := length_textSeq_lt s
  have hl := length_textSeq s
  obtain ⟨h6, h7⟩ := huffmanSlot_bits hlt (by rw [length_presentSymbols hlt]; exact h) hT
  have hb : (codeBits T.code s.textSeq).length ≤ 32768 := by omega
  have h1 := flattenOp_of_tree
    (s := { s with tree := some (huffmanSlot s.textSeq)
                   mem := { s.mem with freq := Buf.ofList 0 (allSymbols.map (frequency s.textSeq)) } }) rfl hT
  have h2 := encodeOp_ok
    (s := { s with tree := some (huffmanSlot s.textSeq)
                   mem := { s.mem with freq := Buf.ofList 0 (allSymbols.map (frequency s.textSeq))
                                       shape := Buf.overwrite s.mem.shape T.shape
                                       leaves := Buf.overwrite s.mem.leaves T.leaves }
                   shapeLen := BitVec.ofNat 16 T.shape.length
                   leavesLen := BitVec.ofNat 16 T.leaves.length }) rfl hT h6 hb
  rw [compressOp, buildOp_large h]
  exact (congrArg (fun e => (OpEnd.andThen e encodeOp).thenRelease) h1).trans (congrArg OpEnd.thenRelease h2)

theorem compressOp_small {s : State} (h : s.textSeq.toFinset.card < 2) :
    compressOp s =
      { state := { s.release with mem := { s.mem with freq := Buf.ofList 0 (allSymbols.map (frequency s.textSeq)) } }
        stop := some (.raised .alphabet s.textSeq.toFinset.card) } := by
  rw [compressOp, buildOp_small h]
  rfl

/-! ### DECOMPRESS -/

theorem decompressOp_of_tree {s : State} (strict : Bool) {T : Tree} {rs : List Bool} {rl : List Symbol}
    (hs : s.shapeSeq = T.shape ++ rs) (hl : s.leavesSeq = T.leaves ++ rl)
    (ht : strict = true → rs = [] ∧ rl = []) :
    decompressOp strict s =
      match ({ root := 0#9, nodes := T.arena 0 } : TreeSlot).decodeBits strict s.bitsSeq with
      | .error e => { state := { s with tree := none, mem := { s.mem with out := [] } }, stop := some e }
      | .ok out =>
        { state := { s with tree := none, mem := { s.mem with out := Buf.overwrite s.mem.out out }
                            outLen := BitVec.ofNat 16 out.length }
          stop := none } := by
  have hc : ¬ (strict = true ∧ ¬ (rs = [] ∧ rl = [])) := fun ⟨h1, h2⟩ => h2 (ht h1)
  simp only [decompressOp, unflattenOp_of_tree strict hs hl, if_neg hc]
  rw [andThen_ok rfl, decodeOp_eq strict rfl]
  have hb : State.bitsSeq { s with tree := some { root := 0#9, nodes := T.arena 0 } } = s.bitsSeq := rfl
  rw [hb]
  split <;> rfl

theorem decompressOp_stop {s : State} (strict : Bool) {st : Stop} (h : (unflattenOp strict s).stop = some st) :
    decompressOp strict s = (unflattenOp strict s).thenRelease := by
  simp only [decompressOp]
  rw [andThen_stop h]

/-! ### commands whose pre-checks pass (60_exceptions.md R264, R266) -/

theorem exec_build {s : State} (b : Bool) (h : s.textLen.toNat ≤ 4096) : exec (.build b) s = (buildOp s).finish :=
  runCommand_pass (by rw [checkTextLen_pass h]; rfl)

theorem exec_flatten {s : State} {slot : TreeSlot} (b : Bool) (h : s.tree = some slot) :
    exec (.flatten b) s = (flattenOp s).finish := runCommand_pass (by rw [treeCheck_pass h]; rfl)

theorem exec_unflatten {s : State} (b : Bool) (h1 : s.shapeLen.toNat ≤ 511) (h2 : s.leavesLen.toNat ≤ 256) :
    exec (.unflatten b) s = (unflattenOp b s).finish :=
  runCommand_pass (by rw [checkShapeLen_pass h1, checkLeavesLen_pass h2]; rfl)

theorem exec_encode {s : State} {slot : TreeSlot} (b : Bool) (h1 : s.textLen.toNat ≤ 4096) (h2 : s.tree = some slot) :
    exec (.encode b) s = (encodeOp s).finish :=
  runCommand_pass (by rw [checkTextLen_pass h1, treeCheck_pass h2]; rfl)

theorem exec_decode {s : State} {slot : TreeSlot} (b : Bool) (h1 : s.bitsLen.toNat ≤ 32768) (h2 : s.tree = some slot) :
    exec (.decode b) s = (decodeOp b s).finish :=
  runCommand_pass (by rw [checkBitsLen_pass h1, treeCheck_pass h2]; rfl)

theorem exec_compress {s : State} (b : Bool) (h : s.textLen.toNat ≤ 4096) :
    exec (.compress b) s = (compressOp s).finish := runCommand_pass (by rw [checkTextLen_pass h]; rfl)

theorem exec_decompress {s : State} (b : Bool) (h1 : s.shapeLen.toNat ≤ 511) (h2 : s.leavesLen.toNat ≤ 256)
    (h3 : s.bitsLen.toNat ≤ 32768) : exec (.decompress b) s = (decompressOp b s).finish :=
  runCommand_pass (by rw [checkShapeLen_pass h1, checkLeavesLen_pass h2, checkBitsLen_pass h3]; rfl)

end Sys2Proof.Machine
end

