-- ==== Sys2Proof/Laws/Decode.lean ====
section
/-! SUPPORT. The fields of a command word, what the decoder refuses, and where the address map is unmapped. -/

namespace Sys2Proof

theorem rsvdField_eq_zero (w : Word) : rsvdField w = 0#23 ↔ w.toNat < 512 := by
  have := w.isLt
  constructor
  · intro h
    have h := congrArg BitVec.toNat h
    simp [rsvdField, Nat.shiftRight_eq_div_pow] at h
    omega
  · intro h
    apply BitVec.eq_of_toNat_eq
    simp [rsvdField, Nat.shiftRight_eq_div_pow]
    omega

theorem toNat_opField (w : Word) : (opField w).toNat = w.toNat % 256 := by simp [opField]

/-- The reserved OP values (30_encoding.md R123). -/
theorem opTable_eq_none (w : Word) (b : Bool) : opTable (opField w) b = none ↔ w.toNat % 256 = 0 ∨ 9 ≤ w.toNat % 256 := by
  rw [← toNat_opField]
  unfold opTable
  split <;> simp <;> try omega
  rename_i h1 h2 h3 h4 h5 h6 h7 h8
  simp at h1 h2 h3 h4 h5 h6 h7 h8
  omega

/-- A word decodes to no command exactly when it is illegal (30_encoding.md R122, R123). -/
theorem decode_isError (w : Word) :
    (∃ e, decode w = .error e) ↔ 512 ≤ w.toNat ∨ w.toNat % 256 = 0 ∨ 9 ≤ w.toNat % 256 := by
  by_cases h : w.toNat < 512
  · have h1 := opTable_eq_none w (strictField w)
    simp only [decode, (rsvdField_eq_zero w).mpr h, if_true]
    split
    · rename_i i hi
      rw [hi] at h1; simp at h1
      simp; omega
    · rename_i hi
      simp [h1.mp hi]
  · have e : ¬ rsvdField w = 0#23 := fun e => h ((rsvdField_eq_zero w).mp e)
    simp [decode, e]; omega

/-- The twelve registers of 10_state.md R32. -/
theorem regAt_isSome : ∀ n, n < 12 → (regAt n).isSome = true := by decide

/-- The unmapped offsets (20_memory.md R80). -/
theorem regionAt_eq_none (a : Nat) :
    regionAt a = none ↔ (0x0030 ≤ a ∧ a ≤ 0x0FFF) ∨ (0x3040 ≤ a ∧ a ≤ 0x30FF) ∨ (0x3200 ≤ a ∧ a ≤ 0x3FFF) ∨
      (0x5400 ≤ a ∧ a ≤ 0x5FFF) ∨ 0x6FF8 ≤ a := by
  unfold regionAt
  by_cases h0 : a < 0x0030
  · obtain ⟨r, hr⟩ := Option.isSome_iff_exists.mp (regAt_isSome (a / 4) (by omega))
    simp only [h0, hr, if_true, Option.map_some, reduceCtorEq, false_iff]; omega
  by_cases h1 : a < 0x1000
  · simp only [h0, h1, if_true, if_false, true_iff]; omega
  by_cases h2 : a < 0x2000
  · simp only [h0, h1, h2, if_true, if_false, reduceCtorEq, false_iff]; omega
  by_cases h3 : a < 0x3000
  · simp only [h0, h1, h2, h3, if_true, if_false, reduceCtorEq, false_iff]; omega
  by_cases h4 : a < 0x3040
  · simp only [h0, h1, h2, h3, h4, if_true, if_false, reduceCtorEq, false_iff]; omega
  by_cases h5 : a < 0x3100
  · simp only [h0, h1, h2, h3, h4, h5, if_true, if_false, true_iff]; omega
  by_cases h6 : a < 0x3200
  · simp only [h0, h1, h2, h3, h4, h5, h6, if_true, if_false, reduceCtorEq, false_iff]; omega
  by_cases h7 : a < 0x4000
  · simp only [h0, h1, h2, h3, h4, h5, h6, h7, if_true, if_false, true_iff]; omega
  by_cases h8 : a < 0x5000
  · simp only [h0, h1, h2, h3, h4, h5, h6, h7, h8, if_true, if_false, reduceCtorEq, false_iff]; omega
  by_cases h9 : a < 0x5400
  · simp only [h0, h1, h2, h3, h4, h5, h6, h7, h8, h9, if_true, if_false, reduceCtorEq, false_iff]; omega
  by_cases h10 : a < 0x6000
  · simp only [h0, h1, h2, h3, h4, h5, h6, h7, h8, h9, h10, if_true, if_false, true_iff]; omega
  by_cases h11 : a < 0x6FF8
  · simp only [h0, h1, h2, h3, h4, h5, h6, h7, h8, h9, h10, h11, if_true, if_false, reduceCtorEq, false_iff]; omega
  simp only [h0, h1, h2, h3, h4, h5, h6, h7, h8, h9, h10, h11, if_false, true_iff]; omega

/-- A register stands at its offset (10_state.md R32). -/
theorem regionAt_offset (r : Reg) : regionAt r.offset = some (.reg r) := by cases r <;> rfl

theorem regionAt_text {k : Nat} (h : k < 1024) : regionAt (0x1000 + 4 * k) = some (.text k) := by
  unfold regionAt
  simp only [show ¬ 0x1000 + 4 * k < 0x0030 by omega, show ¬ 0x1000 + 4 * k < 0x1000 by omega,
    show 0x1000 + 4 * k < 0x2000 by omega, if_false, if_true]
  congr 2; omega

theorem regionAt_out {k : Nat} (h : k < 1024) : regionAt (0x2000 + 4 * k) = some (.out k) := by
  unfold regionAt
  simp only [show ¬ 0x2000 + 4 * k < 0x0030 by omega, show ¬ 0x2000 + 4 * k < 0x1000 by omega,
    show ¬ 0x2000 + 4 * k < 0x2000 by omega, show 0x2000 + 4 * k < 0x3000 by omega, if_false, if_true]
  congr 2; omega

theorem regionAt_shape {k : Nat} (h : k < 16) : regionAt (0x3000 + 4 * k) = some (.shape k) := by
  unfold regionAt
  simp only [show ¬ 0x3000 + 4 * k < 0x0030 by omega, show ¬ 0x3000 + 4 * k < 0x1000 by omega,
    show ¬ 0x3000 + 4 * k < 0x2000 by omega, show ¬ 0x3000 + 4 * k < 0x3000 by omega,
    show 0x3000 + 4 * k < 0x3040 by omega, if_false, if_true]
  congr 2; omega

theorem regionAt_leaves {k : Nat} (h : k < 64) : regionAt (0x3100 + 4 * k) = some (.leaves k) := by
  unfold regionAt
  simp only [show ¬ 0x3100 + 4 * k < 0x0030 by omega, show ¬ 0x3100 + 4 * k < 0x1000 by omega,
    show ¬ 0x3100 + 4 * k < 0x2000 by omega, show ¬ 0x3100 + 4 * k < 0x3000 by omega,
    show ¬ 0x3100 + 4 * k < 0x3040 by omega, show ¬ 0x3100 + 4 * k < 0x3100 by omega,
    show 0x3100 + 4 * k < 0x3200 by omega, if_false, if_true]
  congr 2; omega

theorem regionAt_bits {k : Nat} (h : k < 1024) : regionAt (0x4000 + 4 * k) = some (.bits k) := by
  unfold regionAt
  simp only [show ¬ 0x4000 + 4 * k < 0x0030 by omega, show ¬ 0x4000 + 4 * k < 0x1000 by omega,
    show ¬ 0x4000 + 4 * k < 0x2000 by omega, show ¬ 0x4000 + 4 * k < 0x3000 by omega,
    show ¬ 0x4000 + 4 * k < 0x3040 by omega, show ¬ 0x4000 + 4 * k < 0x3100 by omega,
    show ¬ 0x4000 + 4 * k < 0x3200 by omega, show ¬ 0x4000 + 4 * k < 0x4000 by omega,
    show 0x4000 + 4 * k < 0x5000 by omega, if_false, if_true]
  congr 2; omega

theorem regionAt_freq {k : Nat} (h : k < 256) : regionAt (0x5000 + 4 * k) = some (.freq k) := by
  unfold regionAt
  simp only [show ¬ 0x5000 + 4 * k < 0x0030 by omega, show ¬ 0x5000 + 4 * k < 0x1000 by omega,
    show ¬ 0x5000 + 4 * k < 0x2000 by omega, show ¬ 0x5000 + 4 * k < 0x3000 by omega,
    show ¬ 0x5000 + 4 * k < 0x3040 by omega, show ¬ 0x5000 + 4 * k < 0x3100 by omega,
    show ¬ 0x5000 + 4 * k < 0x3200 by omega, show ¬ 0x5000 + 4 * k < 0x4000 by omega,
    show ¬ 0x5000 + 4 * k < 0x5000 by omega, show 0x5000 + 4 * k < 0x5400 by omega, if_false, if_true]
  congr 2; omega

theorem regionAt_node {k : Nat} (h : k < 1022) : regionAt (0x6000 + 4 * k) = some (nodeWord k) := by
  unfold regionAt
  simp only [show ¬ 0x6000 + 4 * k < 0x0030 by omega, show ¬ 0x6000 + 4 * k < 0x1000 by omega,
    show ¬ 0x6000 + 4 * k < 0x2000 by omega, show ¬ 0x6000 + 4 * k < 0x3000 by omega,
    show ¬ 0x6000 + 4 * k < 0x3040 by omega, show ¬ 0x6000 + 4 * k < 0x3100 by omega,
    show ¬ 0x6000 + 4 * k < 0x3200 by omega, show ¬ 0x6000 + 4 * k < 0x4000 by omega,
    show ¬ 0x6000 + 4 * k < 0x5000 by omega, show ¬ 0x6000 + 4 * k < 0x5400 by omega,
    show ¬ 0x6000 + 4 * k < 0x6000 by omega, show 0x6000 + 4 * k < 0x6FF8 by omega, if_false, if_true]
  congr 2; omega

/-- What a transaction addresses (20_memory.md R82 to R84). -/
theorem BusReq.target_eq_ok {r : BusReq} {g : Region} :
    r.target = .ok g ↔ r.size = 4 ∧ r.off.toNat % 4 = 0 ∧ regionAt r.off.toNat = some g := by
  unfold BusReq.target BusReq.sizeOk BusReq.aligned
  by_cases h1 : r.size = 4 <;> by_cases h2 : r.off.toNat % 4 = 0 <;> simp [h1, h2]
  split <;> simp_all

theorem BusReq.target_isError {r : BusReq} :
    (∃ e, r.target = .error e) ↔ r.size ≠ 4 ∨ r.off.toNat % 4 ≠ 0 ∨ regionAt r.off.toNat = none := by
  unfold BusReq.target BusReq.sizeOk BusReq.aligned
  by_cases h1 : r.size = 4 <;> by_cases h2 : r.off.toNat % 4 = 0 <;> simp [h1, h2]
  split <;> simp_all

end Sys2Proof
end

