-- ==== Sys2Proof/Laws/Frames.lean ====
section
/-! SUPPORT. What each operation phase leaves unchanged, how it can stop, and that it keeps the parts of the invariant:
the buffers canonical, the tree slot well formed, OUT_LEN within OUT_MAX. -/

namespace Sys2Proof.Machine

/-! ### frames of the operation phases (30_encoding.md R125, the "writes" column) -/

theorem buildOp_frame (s : State) :
    (buildOp s).state = { s with tree := (buildOp s).state.tree, mem := { s.mem with freq := (buildOp s).state.mem.freq } } := by
  simp only [buildOp]
  split <;> rfl

theorem flattenOp_frame (s : State) :
    (flattenOp s).state = { s with mem := { s.mem with shape := (flattenOp s).state.mem.shape
                                                       leaves := (flattenOp s).state.mem.leaves }
                                   shapeLen := (flattenOp s).state.shapeLen
                                   leavesLen := (flattenOp s).state.leavesLen } := by
  unfold flattenOp
  split
  · rfl
  · split <;> rfl

theorem unflattenOp_frame (strict : Bool) (s : State) :
    (unflattenOp strict s).state = { s with tree := (unflattenOp strict s).state.tree } := by
  unfold unflattenOp
  split <;> rfl

theorem encodeOp_frame (s : State) :
    (encodeOp s).state = { s with mem := { s.mem with bits := (encodeOp s).state.mem.bits }
                                  bitsLen := (encodeOp s).state.bitsLen } := by
  unfold encodeOp
  split
  · rfl
  · split
    · rfl
    · split <;> rfl

theorem decodeOp_frame (strict : Bool) (s : State) :
    (decodeOp strict s).state = { s with mem := { s.mem with out := (decodeOp strict s).state.mem.out }
                                         outLen := (decodeOp strict s).state.outLen } := by
  unfold decodeOp
  split
  · rfl
  · split <;> rfl

theorem compressOp_frame (s : State) :
    (compressOp s).state = { s with tree := none
                                    mem := { s.mem with freq := (compressOp s).state.mem.freq
                                                        shape := (compressOp s).state.mem.shape
                                                        leaves := (compressOp s).state.mem.leaves
                                                        bits := (compressOp s).state.mem.bits }
                                    shapeLen := (compressOp s).state.shapeLen
                                    leavesLen := (compressOp s).state.leavesLen
                                    bitsLen := (compressOp s).state.bitsLen } := by
  have hb := buildOp_frame s
  simp only [compressOp, OpEnd.thenRelease]
  cases h1 : (buildOp s).stop with
  | some st =>
    rw [andThen_stop h1, andThen_stop h1, hb]; rfl
  | none =>
    rw [andThen_ok h1]
    have hf := flattenOp_frame (buildOp s).state
    cases h2 : (flattenOp (buildOp s).state).stop with
    | some st => rw [andThen_stop h2, hf, hb]; rfl
    | none =>
      rw [andThen_ok h2]
      have he := encodeOp_frame (flattenOp (buildOp s).state).state
      rw [he, hf, hb]; rfl

theorem decompressOp_frame (strict : Bool) (s : State) :
    (decompressOp strict s).state = { s with tree := none
                                             mem := { s.mem with out := (decompressOp strict s).state.mem.out }
                                             outLen := (decompressOp strict s).state.outLen } := by
  have hu := unflattenOp_frame strict s
  simp only [decompressOp, OpEnd.thenRelease]
  cases h1 : (unflattenOp strict s).stop with
  | some st => rw [andThen_stop h1, hu]; rfl
  | none =>
    rw [andThen_ok h1]
    have hd := decodeOp_frame strict (unflattenOp strict s).state
    rw [hd, hu]; rfl

/-! ### the invariant's parts -/

/-- The parts of the invariant a command can touch. -/
structure Kept (s : State) : Prop where
  mem : s.mem.wf = true
  slot : s.slotOk = true
  outLen : s.outLen.toNat ≤ 4096

theorem kept_release {s : State} (h : Kept s) : Kept s.release where
  mem := h.mem
  slot := rfl
  outLen := h.outLen

theorem kept_complete {s : State} (h : Kept s) (c : ErrCode) (p : Nat) : Kept (s.complete c p) where
  mem := h.mem
  slot := h.slot
  outLen := h.outLen

theorem Memory.wf_iff {m : Memory} :
    m.wf = true ↔ Buf.wf 4096 m.text = true ∧ Buf.wf 4096 m.out = true ∧ Buf.wf 511 m.shape = true ∧
      Buf.wf 256 m.leaves = true ∧ Buf.wf 32768 m.bits = true ∧ Buf.wf 256 m.freq = true := by
  simp [Memory.wf, Bool.and_eq_true, and_assoc]

/-- Memory after reset is in canonical form. -/
theorem Memory.wf_unwritten : Memory.unwritten.wf = true := rfl

/-- Everything a good state is asked for holds after reset. -/
theorem kept_reset : Kept State.reset where
  mem := Memory.wf_unwritten
  slot := rfl
  outLen := by decide

theorem kept_buildOp {s : State} (h : Kept s) : Kept (buildOp s).state := by
  obtain ⟨m1, m2, m3, m4, m5, m6⟩ := Memory.wf_iff.mp h.mem
  have hf : Buf.wf 256 (Buf.ofList 0 (allSymbols.map (frequency s.textSeq))) = true :=
    Buf.wf_ofList _ (by simp [allSymbols])
  by_cases hc : s.textSeq.toFinset.card < 2
  · rw [buildOp_small hc]
    exact ⟨Memory.wf_iff.mpr ⟨m1, m2, m3, m4, m5, hf⟩, rfl, h.outLen⟩
  · rw [buildOp_large (by omega)]
    obtain ⟨T, hw, _⟩ := huffmanSlot_tree (length_textSeq_lt s) (by omega)
    exact ⟨Memory.wf_iff.mpr ⟨m1, m2, m3, m4, m5, hf⟩, hw, h.outLen⟩

theorem buildOp_stop (s : State) : (buildOp s).stop ≠ some .brokenTree := by
  simp only [buildOp]
  split <;> simp

/-- The tree a good state holds. -/
theorem Kept.tree {s : State} (h : Kept s) {slot : TreeSlot} (hs : s.tree = some slot) : slot.wf = true := by
  have := h.slot
  simpa [State.slotOk, hs] using this

theorem kept_flattenOp {s : State} (h : Kept s) (ht : s.tree.isSome) :
    Kept (flattenOp s).state ∧ (flattenOp s).stop = none := by
  obtain ⟨slot, hs⟩ := Option.isSome_iff_exists.mp ht
  have hw := h.tree hs
  obtain ⟨T, hT⟩ := TreeSlot.abstract_of_wf hw
  obtain ⟨_, h1, h2, _⟩ := TreeSlot.sizes hw hT
  obtain ⟨m1, m2, m3, m4, m5, m6⟩ := Memory.wf_iff.mp h.mem
  rw [flattenOp_of_tree hs hT]
  exact ⟨⟨Memory.wf_iff.mpr ⟨m1, m2, Buf.wf_overwrite _ m3 h1, Buf.wf_overwrite _ m4 h2, m5, m6⟩, h.slot, h.outLen⟩, rfl⟩

theorem kept_encodeOp {s : State} (h : Kept s) (ht : s.tree.isSome) :
    Kept (encodeOp s).state ∧ (encodeOp s).stop ≠ some .brokenTree := by
  obtain ⟨slot, hs⟩ := Option.isSome_iff_exists.mp ht
  obtain ⟨T, hT⟩ := TreeSlot.abstract_of_wf (h.tree hs)
  obtain ⟨m1, m2, m3, m4, m5, m6⟩ := Memory.wf_iff.mp h.mem
  rw [encodeOp_eq hs hT]
  rcases encodeFrom_cases T.code s.textSeq 0 0 (by decide) with ⟨he, _, hb⟩ | ⟨c, p, he, _⟩
  · rw [he]
    exact ⟨⟨Memory.wf_iff.mpr ⟨m1, m2, m3, m4, Buf.wf_overwrite _ m5 (by simpa using hb), m6⟩, h.slot, h.outLen⟩, by simp⟩
  · rw [he]
    exact ⟨⟨Memory.wf_iff.mpr ⟨m1, m2, m3, m4, rfl, m6⟩, h.slot, h.outLen⟩, by simp⟩

theorem kept_decodeOp {s : State} (strict : Bool) (h : Kept s) (ht : s.tree.isSome) :
    Kept (decodeOp strict s).state ∧ (decodeOp strict s).stop ≠ some .brokenTree := by
  obtain ⟨slot, hs⟩ := Option.isSome_iff_exists.mp ht
  obtain ⟨m1, m2, m3, m4, m5, m6⟩ := Memory.wf_iff.mp h.mem
  rw [decodeOp_eq strict hs]
  rcases TreeSlot.decodeBits_cases (h.tree hs) strict s.bitsSeq with ⟨out, he, ho⟩ | ⟨c, p, he, _⟩
  · rw [he]
    have ho : out.length ≤ 4096 := ho
    refine ⟨⟨Memory.wf_iff.mpr ⟨m1, Buf.wf_overwrite _ m2 ho, m3, m4, m5, m6⟩, h.slot, ?_⟩, by simp⟩
    simp only [BitVec.toNat_ofNat]
    omega
  · rw [he]
    exact ⟨⟨Memory.wf_iff.mpr ⟨m1, rfl, m3, m4, m5, m6⟩, h.slot, h.outLen⟩, by simp⟩

/-- UNFLATTEN ends with the slot released or with a well-formed one (41_tree_codec.md R191). -/
theorem kept_unflattenOp {s : State} (strict : Bool) (h : Kept s) (hl : s.shapeLen.toNat ≤ 511) :
    Kept (unflattenOp strict s).state ∧ (unflattenOp strict s).stop ≠ some .brokenTree ∧
      ((unflattenOp strict s).stop = none → (unflattenOp strict s).state.tree.isSome) := by
  rcases unflattenOp_cases strict s with ⟨T, rs, rl, h1, h2⟩ | ⟨he, _⟩ | ⟨he, _⟩
  · rw [unflattenOp_of_tree strict h1 h2]
    split
    · exact ⟨kept_release h, by simp, by simp⟩
    · have hs : T.shape.length ≤ 511 := by
        have := congrArg List.length h1
        rw [length_shapeSeq, List.length_append] at this
        omega
      exact ⟨⟨h.mem, T.unflattened_wf hs, h.outLen⟩, by simp, fun _ => rfl⟩
  · rw [he]; exact ⟨kept_release h, by simp, by simp⟩
  · rw [he]; exact ⟨kept_release h, by simp, by simp⟩

theorem kept_compressOp {s : State} (h : Kept s) :
    Kept (compressOp s).state ∧ (compressOp s).stop ≠ some .brokenTree := by
  by_cases hc : s.textSeq.toFinset.card < 2
  · have hb := kept_buildOp h
    rw [buildOp_small hc] at hb
    rw [compressOp_small hc]
    exact ⟨hb, by simp⟩
  · have hb := kept_buildOp h
    rw [buildOp_large (by omega)] at hb
    obtain ⟨T, _, hT, _⟩ := huffmanSlot_tree (length_textSeq_lt s) (by omega)
    obtain ⟨hf, hn⟩ := kept_flattenOp hb rfl
    have hs : (flattenOp { s with tree := some (huffmanSlot s.textSeq)
                                  mem := { s.mem with freq := Buf.ofList 0 (allSymbols.map (frequency s.textSeq)) } }).state.tree.isSome := by
      rw [flattenOp_frame]; rfl
    obtain ⟨he, hn'⟩ := kept_encodeOp hf hs
    simp only [compressOp, buildOp_large (show 2 ≤ s.textSeq.toFinset.card by omega)]
    rw [andThen_ok (e := OpEnd.mk _ none) rfl, andThen_ok hn]
    exact ⟨kept_release he, hn'⟩

theorem kept_decompressOp {s : State} (strict : Bool) (h : Kept s) (hl : s.shapeLen.toNat ≤ 511) :
    Kept (decompressOp strict s).state ∧ (decompressOp strict s).stop ≠ some .brokenTree := by
  obtain ⟨hu, hn, ht⟩ := kept_unflattenOp strict h hl
  cases hst : (unflattenOp strict s).stop with
  | some st =>
    rw [decompressOp_stop strict hst]
    refine ⟨kept_release hu, ?_⟩
    simpa [OpEnd.thenRelease] using hn
  | none =>
    obtain ⟨hd, hn'⟩ := kept_decodeOp strict hu (ht hst)
    simp only [decompressOp]
    rw [andThen_ok hst]
    exact ⟨kept_release hd, hn'⟩

/-- A command whose operation phase keeps the invariant's parts and does not find the slot broken goes on, and keeps
them. -/
theorem kept_runCommand {cs : List Check} {op : State → OpEnd} {s : State} (h : Kept s)
    (hop : firstFailure cs = none → Kept (op s).state ∧ (op s).stop ≠ some .brokenTree) :
    ∃ t, runCommand cs op s = .next t ∧ Kept t := by
  obtain ⟨t, ht⟩ := runCommand_goes_on (fun hn => (hop hn).2)
  refine ⟨t, ht, ?_⟩
  rcases runCommand_next ht with ⟨c, p, _, rfl⟩ | ⟨hn, ⟨u, hu, rfl⟩ | ⟨u, c, p, hu, rfl⟩⟩
  · exact kept_complete h _ _
  · have := (hop hn).1; rw [hu] at this; exact kept_complete this _ _
  · have := (hop hn).1; rw [hu] at this; exact kept_complete this _ _

end Sys2Proof.Machine
end

