-- ==== Sys2Proof/Laws/HostBus.lean ====
section
/-! SUPPORT. The host port: what one transaction does, the window words, and what a host move is. -/

namespace Sys2Proof.Machine

/-! ### one move -/

/-- A host move outside reset performs the transaction presented first. -/
theorem step_host {s : State} {r : BusReq} (h1 : s.rst = false) (h2 : s.requests.head? = some r)
    (h3 : (nextTurn s).1 = .host) :
    step s = .next (({ s with requests := s.requests.tail, turns := s.turns.tail } : State).access r) := by
  cases hr : s.requests with
  | nil => simp [hr] at h2
  | cons q rest =>
    simp only [hr, List.head?_cons, Option.some.injEq] at h2; subst h2
    cases ht : s.turns with
    | nil =>
      simp only [nextTurn, ht] at h3
      simp only [step, nextTurn, ht, h3, takeTurn, hostTurn, h1, hr, List.tail]
      simp
    | cons t rest' =>
      simp only [nextTurn, ht] at h3
      simp only [step, nextTurn, ht, h3, takeTurn, hostTurn, h1, hr, List.tail]
      simp

/-- A transaction that is not answered ERROR by R82 to R84. -/
theorem access_ok {s : State} {r : BusReq} {g : Region} (h : r.target = .ok g) :
    s.access r = if r.write then s.performWrite g r.wdata else s.performRead g := by simp only [State.access, h]

theorem access_error {s : State} {r : BusReq} {e : BusError} (h : r.target = .error e) :
    s.access r = s.respondError r := by simp only [State.access, h]

theorem performWrite_idle {s : State} {g : Region} {v : Word} (h : s.busy = false) :
    s.performWrite g v = { s.writeWord g v with response := some (.write .okay) } := by simp [State.performWrite, h]

theorem readWord_idle {s : State} {g : Region} (h : s.busy = false) : s.readWord g = s.readIdle g := by
  simp [State.readWord, h]

/-- The words whose writes are performed in every state (20_memory.md R93). -/
theorem Region.writableWhileBusy_iff {g : Region} :
    g.writableWhileBusy = true ↔ g = .reg .status ∨ g = .reg .irqEn := by simp [Region.writableWhileBusy]

/-! ### window words -/

/-- The symbols of a word, packed, are the word (20_memory.md R85). -/
theorem packSymbols_wordSymbols (v : Word) : packSymbols (wordSymbols v) = v := by
  apply BitVec.eq_of_toNat_eq
  have := v.isLt
  simp only [packSymbols, wordSymbols, List.map_cons, List.map_nil, packParts, BitVec.toNat_ofNat,
    BitVec.extractLsb'_toNat, Nat.shiftRight_eq_div_pow]
  omega

/-- Four symbols, packed (20_memory.md R85): the first in the least significant byte. -/
theorem packSymbols_four (a b c d : Symbol) : packSymbols [a, b, c, d] = d ++ c ++ b ++ a := by
  apply BitVec.eq_of_toNat_eq
  have := a.isLt
  have := b.isLt
  have := c.isLt
  have := d.isLt
  simp only [packSymbols, List.map_cons, List.map_nil, packParts, BitVec.toNat_ofNat, BitVec.toNat_append]
  rw [← Nat.shiftLeft_add_eq_or_of_lt (by omega), ← Nat.shiftLeft_add_eq_or_of_lt (by omega),
    ← Nat.shiftLeft_add_eq_or_of_lt (by omega)]
  simp only [Nat.shiftLeft_eq]
  omega

theorem testBit_packParts_one (xs : List Bool) (i : Nat) :
    (packParts 1 (xs.map Bool.toNat)).testBit i = xs.getD i false := by
  induction xs generalizing i with
  | nil => simp [packParts]
  | cons x xs ih =>
    cases i with
    | zero => cases x <;> simp [packParts, Nat.testBit_zero]
    | succ i =>
      have : (packParts 1 (List.map Bool.toNat (x :: xs))) / 2 = packParts 1 (xs.map Bool.toNat) := by
        cases x <;> simp [packParts]; omega
      rw [Nat.testBit_succ, this, ih]
      simp

/-- The bits of a word, packed: bit j is element j (20_memory.md R86). -/
theorem getLsbD_packBits (xs : List Bool) (i : Nat) (h : i < 32) : (packBits xs).getLsbD i = xs.getD i false := by
  rw [packBits, BitVec.getLsbD_ofNat, testBit_packParts_one]
  simp [h]

theorem length_wordBits (v : Word) : (wordBits v).length = 32 := by simp [wordBits]

theorem getElem?_wordBits (v : Word) (i : Nat) (h : i < 32) : (wordBits v)[i]? = some (v.getLsbD i) := by
  simp [wordBits, h]

theorem getElem?_wordSymbols (v : Word) (i : Nat) (h : i < 4) :
    (wordSymbols v)[i]? = some (v.extractLsb' (8 * i) 8) := by
  match i, h with
  | 0, _ | 1, _ | 2, _ | 3, _ => rfl

/-- A symbol window's word shows the elements it holds (20_memory.md R85, R90). -/
theorem extractLsb'_symbolWindowWord (b : Buf Symbol) (draw : Nat → Symbol) (k j : Nat) (hj : j < 4) :
    (symbolWindowWord b draw k).extractLsb' (8 * j) 8 = Buf.read b draw (4 * k + j) := by
  have hl : (Buf.readMany b draw (4 * k) 4)[j]? = some (Buf.read b draw (4 * k + j)) := by
    rw [Buf.getElem?_readMany, if_pos hj]
  rw [symbolWindowWord]
  generalize hxs : Buf.readMany b draw (4 * k) 4 = xs at hl
  have hlen : xs.length = 4 := by rw [← hxs]; exact Buf.length_readMany b draw (4 * k) 4
  obtain ⟨x0, x1, x2, x3, rfl⟩ : ∃ x0 x1 x2 x3, xs = [x0, x1, x2, x3] := by
    obtain _ | ⟨x0, _ | ⟨x1, _ | ⟨x2, _ | ⟨x3, _ | ⟨x4, xs⟩⟩⟩⟩⟩ := xs <;> simp_all
  have hw : wordSymbols (packSymbols [x0, x1, x2, x3]) = [x0, x1, x2, x3] := by
    have h0 := x0.isLt
    have h1 := x1.isLt
    have h2 := x2.isLt
    have h3 := x3.isLt
    simp only [wordSymbols, List.cons.injEq, and_true]
    refine ⟨?_, ?_, ?_, ?_⟩ <;> apply BitVec.eq_of_toNat_eq <;>
      simp only [packSymbols, List.map_cons, List.map_nil, packParts, BitVec.extractLsb'_toNat, BitVec.toNat_ofNat,
        Nat.shiftRight_eq_div_pow] <;> omega
  have := getElem?_wordSymbols (packSymbols [x0, x1, x2, x3]) j hj
  rw [hw, hl] at this
  exact (Option.some.inj this).symm

/-- A bit window's word shows the elements it holds, 0 where there is no storage (20_memory.md R86, R90). -/
theorem getLsbD_bitWindowWord (cap : Nat) (b : Buf Bool) (draw : Nat → Bool) (k j : Nat) (hj : j < 32) :
    (bitWindowWord cap b draw k).getLsbD j = (decide (32 * k + j < cap) && Buf.read b draw (32 * k + j)) := by
  rw [bitWindowWord, getLsbD_packBits _ _ hj]
  simp only [List.getD_eq_getElem?_getD, List.getElem?_map, List.getElem?_range hj, Option.map_some, Option.getD_some,
    readBitElement]

/-- A symbol window's word, read back after it was written (20_memory.md R95). -/
theorem symbolWindowWord_set (cap : Nat) (b : Buf Symbol) (draw : Nat → Symbol) (k : Nat) (v : Word)
    (h : 4 * k + 4 ≤ cap) : symbolWindowWord (Buf.setMany cap b (4 * k) (wordSymbols v)) draw k = v := by
  have : Buf.readMany (Buf.setMany cap b (4 * k) (wordSymbols v)) draw (4 * k) 4 = wordSymbols v := by
    apply List.ext_getElem?
    intro i
    rw [Buf.getElem?_readMany]
    by_cases hi : i < 4
    · have h1 : 4 * k ≤ 4 * k + i ∧ 4 * k + i < 4 * k + (wordSymbols v).length ∧ 4 * k + i < cap := by
        simp [wordSymbols]; omega
      rw [if_pos hi, Buf.read, Buf.get_setMany, if_pos h1, Nat.add_sub_cancel_left, getElem?_wordSymbols v i hi]
      rfl
    · rw [if_neg hi, List.getElem?_eq_none (by simp [wordSymbols]; omega)]
  rw [symbolWindowWord, this, packSymbols_wordSymbols]

/-- A bit window's word, read back after it was written: the bits that are storage (20_memory.md R86, R95). -/
theorem getLsbD_bitWindowWord_set (cap : Nat) (b : Buf Bool) (draw : Nat → Bool) (k : Nat) (v : Word) (j : Nat)
    (hj : j < 32) :
    (bitWindowWord cap (Buf.setMany cap b (32 * k) (wordBits v)) draw k).getLsbD j =
      (decide (32 * k + j < cap) && v.getLsbD j) := by
  rw [getLsbD_bitWindowWord cap _ draw k j hj]
  by_cases hc : 32 * k + j < cap
  · have h1 : 32 * k ≤ 32 * k + j ∧ 32 * k + j < 32 * k + (wordBits v).length ∧ 32 * k + j < cap := by
      rw [length_wordBits]; omega
    simp only [hc, decide_true, Bool.true_and]
    rw [Buf.read, Buf.get_setMany, if_pos h1, Nat.add_sub_cancel_left, getElem?_wordBits v j hj]
    rfl
  · simp [hc]

/-! ### register and window words, bit by bit -/

/-- A 16-bit field at [15:0], zero-extended (20_memory.md R87). -/
theorem halfWord_eq (v : Half) : halfWord v = v.setWidth 32 := by
  apply BitVec.eq_of_toNat_eq
  have : v.toNat < 2 ^ 32 := by have := v.isLt; omega
  simp only [halfWord, BitVec.toNat_append, BitVec.toNat_setWidth, BitVec.toNat_ofNat, Nat.mod_eq_of_lt this]
  simp

/-- TREE_INFO bit by bit (10_state.md R44). -/
theorem getLsbD_treeInfoWord {s : State} {slot : TreeSlot} (h : s.tree = some slot) (i : Nat) :
    s.treeInfoWord.getLsbD i =
      if i < 9 then slot.root.getLsbD i
      else if i < 16 then false
      else if i < 26 then (BitVec.ofNat 10 slot.nodeCount).getLsbD (i - 16)
      else false := by
  simp only [State.treeInfoWord, h, @BitVec.getLsbD_append 23 9, @BitVec.getLsbD_append 16 7,
    @BitVec.getLsbD_append 6 10, Nat.sub_sub, BitVec.getLsbD_zero]
  split_ifs <;> first | rfl | omega

theorem getLsbD_ofBool (b : Bool) (i : Nat) : (BitVec.ofBool b).getLsbD i = (decide (i = 0) && b) := by
  cases b <;> cases i <;> simp

/-- STATUS bit by bit (10_state.md R35). -/
theorem getLsbD_statusWord (s : State) (i : Nat) :
    s.statusWord.getLsbD i =
      if i = 0 then s.busy else if i = 1 then s.done else if i = 2 then s.err else if i = 3 then s.treeValid
      else if i < 8 then false else s.errCode.bits.getLsbD (i - 8) := by
  simp only [State.statusWord, @BitVec.getLsbD_append 31 1, @BitVec.getLsbD_append 30 1, @BitVec.getLsbD_append 29 1,
    @BitVec.getLsbD_append 28 1, @BitVec.getLsbD_append 24 4, @BitVec.getLsbD_append 20 4, Nat.sub_sub,
    BitVec.getLsbD_zero, getLsbD_ofBool]
  by_cases h : i < 12
  · have h8 : i - 8 < 4 := by omega
    split_ifs <;> first | rfl | omega | (simp; omega)
  · rw [BitVec.getLsbD_of_ge s.errCode.bits (i - 8) (by omega)]
    split_ifs <;> first | rfl | omega

/-- IRQ_EN bit by bit (10_state.md R38). -/
theorem getLsbD_irqEnWord (s : State) (i : Nat) : s.irqEnWord.getLsbD i = (decide (i = 0) && s.doneIe) := by
  rw [State.irqEnWord, @BitVec.getLsbD_append 31 1]
  cases i <;> simp

/-- Word A of an arena entry, bit by bit (20_memory.md R88). -/
theorem getLsbD_wordA (nd : Node) (i : Nat) (hi : i < 32) :
    nd.wordA.getLsbD i =
      if i < 9 then !nd.leaf && nd.zero.getLsbD i
      else if i < 18 then !nd.leaf && nd.one.getLsbD (i - 9)
      else if i < 26 then nd.leaf && nd.sym.getLsbD (i - 18)
      else if i < 30 then false
      else if i = 30 then nd.leaf
      else true := by
  simp only [Node.wordA, @BitVec.getLsbD_append 23 9, @BitVec.getLsbD_append 14 9, @BitVec.getLsbD_append 6 8,
    @BitVec.getLsbD_append 2 4, @BitVec.getLsbD_append 1 1, Nat.sub_sub, BitVec.getLsbD_zero, getLsbD_ofBool]
  by_cases h30 : i = 30
  · subst h30; simp
  by_cases h31 : i = 31
  · subst h31; simp
  cases nd.leaf <;>
    simp only [Bool.false_eq_true, if_true, if_false, BitVec.getLsbD_zero, Bool.not_true, Bool.not_false, Bool.true_and,
      Bool.false_and] <;>
    split_ifs <;> first | rfl | omega

end Sys2Proof.Machine
end

