-- ==== Sys2Proof/Laws/Merge.lean ====
section
/-! SUPPORT. The merge order of BUILD (40_tree_builder.md R153 to R156): the queue holds the entries that are no child yet,
so every merge joins the two that are least in the priority order among them. -/

namespace Sys2Proof.Machine

/-- Entry `j` has entry `i` as a child. -/
def hasChild (nodes : List Node) (j i : Nat) : Prop :=
  ∃ nd, nodes[j]? = some nd ∧ nd.leaf = false ∧ (nd.zero.toNat = i ∨ nd.one.toNat = i)

/-- Entry `i` is in the queue when entry `n` is made. -/
def queuedAt (nodes : List Node) (n i : Nat) : Prop := i < n ∧ ∀ j, j < n → ¬ hasChild nodes j i

/-- The weight of an entry. -/
def weightAt (nodes : List Node) (i : Nat) : Nat := (nodes[i]?.map (fun nd => nd.weight.toNat)).getD 0

/-- The sequence number of an entry (R154). -/
def seqAt (total i : Nat) : Nat := if i < total then total - 1 - i else i

/-- The priority order of R155 on entries. -/
def comesFirst (nodes : List Node) (total i j : Nat) : Prop :=
  weightAt nodes i < weightAt nodes j ∨ (weightAt nodes i = weightAt nodes j ∧ seqAt total j < seqAt total i)

/-- Entry `n` was made by a merge that followed R155 and R156. -/
def MergedWell (total : Nat) (nodes : List Node) (n : Nat) : Prop :=
  ∃ nd, nodes[n]? = some nd ∧ nd.leaf = false ∧ nd.sym = 0#8 ∧ queuedAt nodes n nd.zero.toNat ∧
    queuedAt nodes n nd.one.toNat ∧ nd.zero ≠ nd.one ∧
    (∀ i, queuedAt nodes n i → i ≠ nd.zero.toNat → comesFirst nodes total nd.zero.toNat i) ∧
    (∀ i, queuedAt nodes n i → i ≠ nd.zero.toNat → i ≠ nd.one.toNat → comesFirst nodes total nd.one.toNat i) ∧
    nd.weight.toNat = weightAt nodes nd.zero.toNat + weightAt nodes nd.one.toNat

/-- The loop's invariant. -/
structure Merging (total : Nat) (nodes : List Node) (q : List PQEntry) : Prop where
  order : InOrder q
  entry : ∀ e ∈ q, e.seq = seqAt total e.node ∧ e.weight = weightAt nodes e.node
  nodup : (q.map PQEntry.node).Nodup
  queued : ∀ i, queuedAt nodes nodes.length i ↔ i ∈ q.map PQEntry.node
  kids : ∀ j i, hasChild nodes j i → i < nodes.length
  merged : ∀ n, total ≤ n → n < nodes.length → MergedWell total nodes n

variable {nodes : List Node} {m : Node}

theorem hasChild_append {j : Nat} (hj : j < nodes.length) (i : Nat) :
    hasChild (nodes ++ [m]) j i ↔ hasChild nodes j i := by
  simp only [hasChild, List.getElem?_append_left hj]

theorem queuedAt_append {n : Nat} (hn : n ≤ nodes.length) (i : Nat) :
    queuedAt (nodes ++ [m]) n i ↔ queuedAt nodes n i := by
  simp only [queuedAt]
  refine and_congr_right fun _ => forall_congr' fun j => forall_congr' fun hj => ?_
  rw [hasChild_append (by omega)]

theorem weightAt_append {i : Nat} (hi : i < nodes.length) : weightAt (nodes ++ [m]) i = weightAt nodes i := by
  simp only [weightAt, List.getElem?_append_left hi]

theorem comesFirst_append {total i j : Nat} (hi : i < nodes.length) (hj : j < nodes.length) :
    comesFirst (nodes ++ [m]) total i j ↔ comesFirst nodes total i j := by
  simp only [comesFirst, weightAt_append hi, weightAt_append hj]

theorem MergedWell.append {total n : Nat} (hn : n < nodes.length) (h : MergedWell total nodes n) :
    MergedWell total (nodes ++ [m]) n := by
  obtain ⟨nd, h1, h2, h3, h4, h5, h6, h7, h8, h9⟩ := h
  have hz : nd.zero.toNat < nodes.length := lt_trans h4.1 hn
  have ho : nd.one.toNat < nodes.length := lt_trans h5.1 hn
  refine ⟨nd, by rw [List.getElem?_append_left hn]; exact h1, h2, h3, (queuedAt_append (by omega) _).mpr h4,
    (queuedAt_append (by omega) _).mpr h5, h6, ?_, ?_, by rw [weightAt_append hz, weightAt_append ho]; exact h9⟩
  · intro i hi hne
    have hi' := (queuedAt_append (by omega) _).mp hi
    exact (comesFirst_append hz (lt_trans hi'.1 hn)).mpr (h7 i hi' hne)
  · intro i hi hne hne'
    have hi' := (queuedAt_append (by omega) _).mp hi
    exact (comesFirst_append ho (lt_trans hi'.1 hn)).mpr (h8 i hi' hne hne')

/-- One merge keeps the invariant. -/
theorem Merging.step {total : Nat} {a b : PQEntry} {q : List PQEntry} (h : Merging total nodes (a :: b :: q))
    (ht : total ≤ nodes.length) (hn : nodes.length ≤ 511) (hw : a.weight + b.weight < 65536) :
    Merging total (nodes ++ [mergeNode a b])
      (pqInsert { weight := a.weight + b.weight, seq := nodes.length, node := nodes.length } q) := by
  have hlt : ∀ e ∈ a :: b :: q, e.node < nodes.length := fun e he =>
    ((h.queued e.node).mpr (List.mem_map_of_mem he)).1
  have ha := hlt a (by simp)
  have hb := hlt b (by simp)
  have hnd : ¬ a.node = b.node ∧ (∀ e ∈ q, e.node ≠ a.node ∧ e.node ≠ b.node) ∧ (q.map PQEntry.node).Nodup := by
    have := h.nodup
    simp only [List.map_cons, List.nodup_cons, List.mem_cons, List.mem_map, not_or, not_exists, not_and] at this
    exact ⟨this.1.1, fun e he => ⟨this.1.2 e he, this.2.1 e he⟩, this.2.2⟩
  have hz : (mergeNode a b).zero.toNat = a.node := by simp only [mergeNode, BitVec.toNat_ofNat]; omega
  have ho : (mergeNode a b).one.toNat = b.node := by simp only [mergeNode, BitVec.toNat_ofNat]; omega
  have hself : (nodes ++ [mergeNode a b])[nodes.length]? = some (mergeNode a b) := by simp
  have hkid : ∀ i, hasChild (nodes ++ [mergeNode a b]) nodes.length i ↔ a.node = i ∨ b.node = i := by
    intro i
    constructor
    · rintro ⟨nd, h1, _, h3⟩
      rw [hself] at h1; cases h1
      rwa [hz, ho] at h3
    · intro h1
      exact ⟨_, hself, rfl, by rwa [hz, ho]⟩
  have hseq : ∀ e ∈ q, e.seq < nodes.length := by
    intro e he
    rw [(h.entry e (by simp [he])).1, seqAt]
    have := hlt e (by simp [he])
    split <;> omega
  have hq : ∀ i, queuedAt nodes nodes.length i ↔ a.node = i ∨ b.node = i ∨ ∃ e ∈ q, e.node = i := by
    intro i
    rw [h.queued i]
    simp [eq_comm]
  obtain ⟨hab, hrest⟩ := List.pairwise_cons.mp h.order
  obtain ⟨hbq, hqq⟩ := List.pairwise_cons.mp hrest
  have first : ∀ x ∈ a :: b :: q, ∀ y ∈ a :: b :: q, x.precedes y = true →
      comesFirst (nodes ++ [mergeNode a b]) total x.node y.node := by
    intro x hx y hy hxy
    rw [comesFirst_append (hlt x hx) (hlt y hy), comesFirst, ← (h.entry x hx).1, ← (h.entry x hx).2,
      ← (h.entry y hy).1, ← (h.entry y hy).2]
    exact PQEntry.precedes_iff.mp hxy
  have hperm := pqInsert_perm { weight := a.weight + b.weight, seq := nodes.length, node := nodes.length } q
  constructor
  · exact inOrder_pqInsert hqq (fun x hx => by have := hseq x hx; simp only; omega)
  · intro e he
    rcases mem_pqInsert.mp he with rfl | he
    · refine ⟨by simp only [seqAt]; rw [if_neg (by omega)], ?_⟩
      rw [weightAt, hself]
      simp only [Option.map_some, Option.getD_some, mergeNode, BitVec.toNat_ofNat]
      omega
    · rw [weightAt_append (hlt e (by simp [he]))]
      exact h.entry e (by simp [he])
  · refine ((hperm.map PQEntry.node).nodup_iff).mpr ?_
    rw [List.map_cons, List.nodup_cons]
    refine ⟨?_, hnd.2.2⟩
    intro hmem
    obtain ⟨e, he, hen⟩ := List.mem_map.mp hmem
    have := hlt e (by simp [he])
    simp only at hen
    omega
  · intro i
    rw [(hperm.map PQEntry.node).mem_iff, List.map_cons, List.mem_cons, List.mem_map]
    simp only [List.length_append, List.length_cons, List.length_nil, Nat.zero_add]
    constructor
    · rintro ⟨h1, h2⟩
      by_cases hi : i = nodes.length
      · exact .inl hi
      · have hold : queuedAt nodes nodes.length i :=
          ⟨by omega, fun j hj hc => h2 j (by omega) ((hasChild_append hj i).mpr hc)⟩
        have hnew := h2 nodes.length (by omega)
        rw [hkid] at hnew
        rcases (hq i).mp hold with h3 | h3 | h3
        · exact absurd (.inl h3) hnew
        · exact absurd (.inr h3) hnew
        · exact .inr h3
    · rintro (rfl | ⟨e, he, rfl⟩)
      · refine ⟨by omega, fun j hj hc => ?_⟩
        by_cases hj' : j < nodes.length
        · have := h.kids _ _ ((hasChild_append hj' _).mp hc)
          omega
        · have hjn : j = nodes.length := by omega
          subst hjn
          rw [hkid] at hc
          omega
      · have hold := (hq e.node).mpr (.inr (.inr ⟨e, he, rfl⟩))
        refine ⟨by have := hold.1; omega, fun j hj hc => ?_⟩
        by_cases hj' : j < nodes.length
        · exact hold.2 j hj' ((hasChild_append hj' _).mp hc)
        · have hjn : j = nodes.length := by omega
          subst hjn
          rw [hkid] at hc
          have := hnd.2.1 e he
          omega
  · intro j i hc
    simp only [List.length_append, List.length_cons, List.length_nil]
    by_cases hj' : j < nodes.length
    · have := h.kids _ _ ((hasChild_append hj' _).mp hc)
      omega
    · have hjn : j = nodes.length := by
        obtain ⟨nd, h1, _⟩ := hc
        have := (List.getElem?_eq_some_iff.mp h1).1
        simp only [List.length_append, List.length_cons, List.length_nil] at this
        omega
      subst hjn
      rw [hkid] at hc
      omega
  · intro n h1 h2
    simp only [List.length_append, List.length_cons, List.length_nil] at h2
    by_cases hn' : n < nodes.length
    · exact (h.merged n h1 hn').append hn'
    · have hnn : n = nodes.length := by omega
      subst hnn
      have old : ∀ i, queuedAt (nodes ++ [mergeNode a b]) nodes.length i ↔ a.node = i ∨ b.node = i ∨ ∃ e ∈ q, e.node = i :=
        fun i => (queuedAt_append (Nat.le_refl _) i).trans (hq i)
      refine ⟨mergeNode a b, hself, rfl, rfl, ?_, ?_, ?_, ?_, ?_, ?_⟩
      · rw [hz, old]; exact .inl rfl
      · rw [ho, old]; exact .inr (.inl rfl)
      · intro e
        have := congrArg BitVec.toNat e
        rw [hz, ho] at this
        exact hnd.1 this
      · intro i hi hne
        rw [hz] at hne ⊢
        rcases (old i).mp hi with h3 | h3 | ⟨e, he, rfl⟩
        · exact absurd h3.symm hne
        · subst h3; exact first a (by simp) b (by simp) (hab b (by simp))
        · exact first a (by simp) e (by simp [he]) (hab e (by simp [he]))
      · intro i hi hne hne'
        rw [hz] at hne
        rw [ho] at hne' ⊢
        rcases (old i).mp hi with h3 | h3 | ⟨e, he, rfl⟩
        · exact absurd h3.symm hne
        · exact absurd h3.symm hne'
        · exact first b (by simp) e (by simp [he]) (hbq e he)
      · rw [hz, ho, weightAt_append ha, weightAt_append hb, ← (h.entry a (by simp)).2, ← (h.entry b (by simp)).2]
        simp only [mergeNode, BitVec.toNat_ofNat]
        omega

/-- The whole loop: the entries it starts from stay, and every entry it makes is merged well. -/
theorem mergeLoop_merging {total : Nat} (fuel : Nat) {nodes : List Node} {q : List PQEntry}
    (h : Merging total nodes q) (ht : total ≤ nodes.length) (hn : nodes.length + q.length ≤ 512)
    (hw : totalWeight q < 65536) :
    ∃ q' made, Merging total (mergeLoop fuel nodes q).1 q' ∧ (mergeLoop fuel nodes q).1 = nodes ++ made := by
  induction fuel generalizing nodes q with
  | zero => exact ⟨q, [], h, by simp [mergeLoop]⟩
  | succ fuel ih =>
    match q, h, hn, hw with
    | [], h, _, _ => exact ⟨[], [], h, by simp [mergeLoop]⟩
    | [r], h, _, _ => exact ⟨[r], [], h, by simp [mergeLoop]⟩
    | a :: b :: q, h, hn, hw =>
      simp only [List.length_cons, totalWeight_cons] at hn hw
      obtain ⟨q', made, h1, h2⟩ := ih (h.step ht (by omega) (by omega)) (by simp; omega) (by simp; omega)
        (by rw [totalWeight_pqInsert]; simp only; omega)
      exact ⟨q', mergeNode a b :: made, h1, by simp only [mergeLoop, h2, List.append_assoc, List.cons_append, List.nil_append]⟩

theorem totalWeight_perm {q q' : List PQEntry} (h : q.Perm q') : totalWeight q = totalWeight q' :=
  (h.map PQEntry.weight).sum_eq

theorem totalWeight_leafEntries (text : List Symbol) (total k : Nat) (ss : List Symbol) :
    totalWeight (leafEntries text total k ss) = (ss.map (fun s => (frequency text s).toNat)).sum := by
  induction ss generalizing k with
  | nil => rfl
  | cons s ss ih => simp [leafEntries, ih]

/-- The queue BUILD starts its merges from (R153, R154). -/
theorem merging_leaves (text : List Symbol) :
    Merging (presentSymbols text).length ((presentSymbols text).map (leafNode text))
      (enqueueLeaves text (presentSymbols text).length 0 (presentSymbols text) []) := by
  have hp := enqueueLeaves_perm text (presentSymbols text).length 0 (presentSymbols text) []
  rw [List.append_nil] at hp
  have hmap := (hp.map PQEntry.node)
  rw [map_node_leafEntries] at hmap
  have hno : ∀ j i, ¬ hasChild ((presentSymbols text).map (leafNode text)) j i := by
    rintro j i ⟨nd, h1, h2, _⟩
    rw [List.getElem?_map, Option.map_eq_some_iff] at h1
    obtain ⟨s, _, rfl⟩ := h1
    cases h2
  constructor
  · exact inOrder_enqueueLeaves List.Pairwise.nil (by omega) (by simp)
  · intro e he
    obtain ⟨j, s, hj, rfl⟩ := mem_leafEntries (hp.mem_iff.mp he)
    have hlt := (List.getElem?_eq_some_iff.mp hj).1
    simp only [Nat.zero_add, seqAt, hlt, if_true, true_and]
    simp [weightAt, hj, leafNode]
  · exact hmap.nodup_iff.mpr List.nodup_range'
  · intro i
    rw [hmap.mem_iff]
    simp only [queuedAt, List.length_map, List.mem_range'_1, Nat.zero_le, true_and, Nat.zero_add]
    exact ⟨fun h => h.1, fun h => ⟨h, fun j _ => hno j i⟩⟩
  · intro j i h; exact absurd h (hno j i)
  · intro n h1 h2
    rw [List.length_map] at h2
    omega

/-- BUILD's arena: the leaves of the symbols present in ascending order, then entries each merged well. -/
theorem huffmanSlot_merges {text : List Symbol} (h : text.length < 65536) :
    (∃ made, (huffmanSlot text).nodes = (presentSymbols text).map (leafNode text) ++ made) ∧
      ∀ n, (presentSymbols text).length ≤ n → n < (huffmanSlot text).nodes.length →
        MergedWell (presentSymbols text).length (huffmanSlot text).nodes n := by
  have hle := length_presentSymbols_le text
  have hp := enqueueLeaves_perm text (presentSymbols text).length 0 (presentSymbols text) []
  rw [List.append_nil] at hp
  have hw : totalWeight (enqueueLeaves text (presentSymbols text).length 0 (presentSymbols text) []) < 65536 := by
    rw [totalWeight_perm hp, totalWeight_leafEntries]
    have hs := sum_text_eq text (presentSymbols text) (nodup_presentSymbols text)
      (fun s hs => (mem_presentSymbols h s).mpr hs) (fun _ => 1)
    simp only [Nat.mul_one, List.map_const', List.sum_replicate, smul_eq_mul] at hs
    have : (presentSymbols text).map (fun s => (frequency text s).toNat) = (presentSymbols text).map (fun s => text.count s) :=
      List.map_congr_left fun s _ => frequency_toNat h s
    rw [this, ← hs]
    exact h
  obtain ⟨q', made, h1, h2⟩ := mergeLoop_merging (presentSymbols text).length (merging_leaves text) (by simp)
    (by rw [length_enqueueLeaves]; simp; omega) hw
  exact ⟨⟨made, h2⟩, h1.merged⟩

end Sys2Proof.Machine
end

