-- ==== Sys2Proof/Laws/PerInstr.lean ====
section
/-! SUPPORT. Facts about every command as syntax: its fields and its word (30_encoding.md R120, R121, R124). -/

namespace Sys2Proof.Laws.Encoding

/-- The command is well formed, its word keeps RSVD 0, and the fields of the word are the command's. -/
def Statement (i : Instr) : Prop :=
  i.wellFormed = true ∧ rsvdField (encode i) = 0#23 ∧ opField (encode i) = i.op ∧ strictField (encode i) = i.strict ∧
    1 ≤ i.op.toNat ∧ i.op.toNat ≤ 8

theorem build (b : Bool) : Statement (.build b) := by cases b <;> (unfold Statement; decide)
theorem flatten (b : Bool) : Statement (.flatten b) := by cases b <;> (unfold Statement; decide)
theorem unflatten (b : Bool) : Statement (.unflatten b) := by cases b <;> (unfold Statement; decide)
theorem encode (b : Bool) : Statement (.encode b) := by cases b <;> (unfold Statement; decide)
theorem decode (b : Bool) : Statement (.decode b) := by cases b <;> (unfold Statement; decide)
theorem compress (b : Bool) : Statement (.compress b) := by cases b <;> (unfold Statement; decide)
theorem decompress (b : Bool) : Statement (.decompress b) := by cases b <;> (unfold Statement; decide)
theorem clear (b : Bool) : Statement (.clear b) := by cases b <;> (unfold Statement; decide)

end Sys2Proof.Laws.Encoding
end

