-- ==== Sys2Proof/Laws/Step.lean ====
section
/-! SUPPORT. What one move keeps: the parts of the invariant under a host access and under a command. -/

namespace Sys2Proof.Machine

/-- The parts of the invariant, from the invariant. -/
theorem State.Inv.parts {s : State} (h : s.Inv) : Kept s ∧ s.flightOk = true ∧ s.resetOk = true := by
  simp only [State.Inv, State.inv, Bool.and_eq_true, decide_eq_true_eq] at h
  exact ⟨⟨h.1.1.1.1, h.1.1.1.2, h.1.1.2⟩, h.1.2, h.2⟩

theorem State.inv_of_parts {s : State} (h : Kept s) (h1 : s.flightOk = true) (h2 : s.resetOk = true) : s.Inv := by
  simp only [State.Inv, State.inv, h.mem, h.slot, h1, h2, Bool.and_true, Bool.true_and, decide_eq_true_eq]
  exact h.outLen

/-! ### a command -/

theorem firstFailure_cons_eq_none {c : Check} {cs : List Check} (h : firstFailure (c :: cs) = none) :
    c = none ∧ firstFailure cs = none := by
  cases c with
  | none => exact ⟨rfl, h⟩
  | some e => simp at h

/-- From a good state every command goes on and keeps the invariant's parts. -/
theorem kept_exec (i : Instr) {s : State} (h : Kept s) : ∃ t, exec i s = .next t ∧ Kept t := by
  cases i with
  | build b => exact kept_runCommand h fun _ => ⟨kept_buildOp h, buildOp_stop s⟩
  | flatten b =>
    refine kept_runCommand h fun hf => ?_
    have := kept_flattenOp h (treeCheck_eq_none.mp (firstFailure_cons_eq_none hf).1)
    exact ⟨this.1, by simp [this.2]⟩
  | unflatten b =>
    refine kept_runCommand h fun hf => ?_
    have := kept_unflattenOp b h (lenCheck_eq_none.mp (firstFailure_cons_eq_none hf).1)
    exact ⟨this.1, this.2.1⟩
  | encode b =>
    refine kept_runCommand h fun hf => ?_
    exact kept_encodeOp h (treeCheck_eq_none.mp (firstFailure_cons_eq_none (firstFailure_cons_eq_none hf).2).1)
  | decode b =>
    refine kept_runCommand h fun hf => ?_
    exact kept_decodeOp b h (treeCheck_eq_none.mp (firstFailure_cons_eq_none (firstFailure_cons_eq_none hf).2).1)
  | compress b => exact kept_runCommand h fun _ => kept_compressOp h
  | decompress b =>
    refine kept_runCommand h fun hf => ?_
    exact kept_decompressOp b h (lenCheck_eq_none.mp (firstFailure_cons_eq_none hf).1)
  | clear b => exact ⟨_, rfl, kept_complete (kept_release h) .ok 0⟩

/-- A command's registers that are never its operands' (60_exceptions.md R267, R271): what completion sets and what no
command touches. -/
theorem exec_next {i : Instr} {s t : State} (h : exec i s = .next t) :
    t.pending = none ∧ t.done = true ∧ t.doneIe = s.doneIe ∧ t.lastCmd = s.lastCmd ∧ t.textLen = s.textLen ∧
      t.rst = s.rst ∧ t.requests = s.requests ∧ t.response = s.response ∧ t.turns = s.turns := by
  cases i with
  | clear b => cases h; exact ⟨rfl, rfl, rfl, rfl, rfl, rfl, rfl, rfl, rfl⟩
  | build b =>
    obtain ⟨c, p, ⟨_, rfl⟩ | ⟨_, rfl, _⟩⟩ := runCommand_next_complete h
    · exact ⟨rfl, rfl, rfl, rfl, rfl, rfl, rfl, rfl, rfl⟩
    · rw [buildOp_frame]; exact ⟨rfl, rfl, rfl, rfl, rfl, rfl, rfl, rfl, rfl⟩
  | flatten b =>
    obtain ⟨c, p, ⟨_, rfl⟩ | ⟨_, rfl, _⟩⟩ := runCommand_next_complete h
    · exact ⟨rfl, rfl, rfl, rfl, rfl, rfl, rfl, rfl, rfl⟩
    · rw [flattenOp_frame]; exact ⟨rfl, rfl, rfl, rfl, rfl, rfl, rfl, rfl, rfl⟩
  | unflatten b =>
    obtain ⟨c, p, ⟨_, rfl⟩ | ⟨_, rfl, _⟩⟩ := runCommand_next_complete h
    · exact ⟨rfl, rfl, rfl, rfl, rfl, rfl, rfl, rfl, rfl⟩
    · rw [unflattenOp_frame]; exact ⟨rfl, rfl, rfl, rfl, rfl, rfl, rfl, rfl, rfl⟩
  | encode b =>
    obtain ⟨c, p, ⟨_, rfl⟩ | ⟨_, rfl, _⟩⟩ := runCommand_next_complete h
    · exact ⟨rfl, rfl, rfl, rfl, rfl, rfl, rfl, rfl, rfl⟩
    · rw [encodeOp_frame]; exact ⟨rfl, rfl, rfl, rfl, rfl, rfl, rfl, rfl, rfl⟩
  | decode b =>
    obtain ⟨c, p, ⟨_, rfl⟩ | ⟨_, rfl, _⟩⟩ := runCommand_next_complete h
    · exact ⟨rfl, rfl, rfl, rfl, rfl, rfl, rfl, rfl, rfl⟩
    · rw [decodeOp_frame]; exact ⟨rfl, rfl, rfl, rfl, rfl, rfl, rfl, rfl, rfl⟩
  | compress b =>
    obtain ⟨c, p, ⟨_, rfl⟩ | ⟨_, rfl, _⟩⟩ := runCommand_next_complete h
    · exact ⟨rfl, rfl, rfl, rfl, rfl, rfl, rfl, rfl, rfl⟩
    · rw [compressOp_frame]; exact ⟨rfl, rfl, rfl, rfl, rfl, rfl, rfl, rfl, rfl⟩
  | decompress b =>
    obtain ⟨c, p, ⟨_, rfl⟩ | ⟨_, rfl, _⟩⟩ := runCommand_next_complete h
    · exact ⟨rfl, rfl, rfl, rfl, rfl, rfl, rfl, rfl, rfl⟩
    · rw [decompressOp_frame]; exact ⟨rfl, rfl, rfl, rfl, rfl, rfl, rfl, rfl, rfl⟩

/-! ### a host access -/

theorem kept_writeWord {s : State} (h : Kept s) (g : Region) (v : Word) : Kept (s.writeWord g v) := by
  obtain ⟨m1, m2, m3, m4, m5, m6⟩ := Memory.wf_iff.mp h.mem
  cases g with
  | reg q =>
    cases q <;> simp only [State.writeWord, State.writeReg] <;> first | exact ⟨h.mem, h.slot, h.outLen⟩ | skip
    split <;> exact ⟨h.mem, h.slot, h.outLen⟩
  | text k => exact ⟨Memory.wf_iff.mpr ⟨Buf.wf_setMany _ m1, m2, m3, m4, m5, m6⟩, h.slot, h.outLen⟩
  | shape k => exact ⟨Memory.wf_iff.mpr ⟨m1, m2, Buf.wf_setMany _ m3, m4, m5, m6⟩, h.slot, h.outLen⟩
  | leaves k => exact ⟨Memory.wf_iff.mpr ⟨m1, m2, m3, Buf.wf_setMany _ m4, m5, m6⟩, h.slot, h.outLen⟩
  | bits k => exact ⟨Memory.wf_iff.mpr ⟨m1, m2, m3, m4, Buf.wf_setMany _ m5, m6⟩, h.slot, h.outLen⟩
  | out _ | freq _ | nodeA _ | nodeB _ => exact h

theorem writeWord_ports (s : State) (g : Region) (v : Word) :
    (s.writeWord g v).rst = s.rst ∧ (s.writeWord g v).tree = s.tree ∧ (s.writeWord g v).requests = s.requests ∧
      (s.writeWord g v).turns = s.turns := by
  cases g with
  | reg q =>
    cases q <;> simp only [State.writeWord, State.writeReg] <;> first | exact ⟨trivial, trivial, trivial, trivial⟩ | exact ⟨rfl, rfl, rfl, rfl⟩ | skip
    split <;> exact ⟨rfl, rfl, rfl, rfl⟩
  | text _ | shape _ | leaves _ | bits _ | out _ | freq _ | nodeA _ | nodeB _ => exact ⟨rfl, rfl, rfl, rfl⟩

/-- Everything an access can do: an ERROR answer, a read, a write refused while BUSY = 1, or a write performed. -/
theorem access_cases (s : State) (r : BusReq) :
    s.access r = s.respondError r ∨
      (∃ g, r.target = .ok g ∧ r.write = false ∧ s.access r = s.performRead g) ∨
      (∃ g, r.target = .ok g ∧ r.write = true ∧ s.busy = true ∧ g.writableWhileBusy = false ∧
        s.access r = { s with response := some (.write .error) }) ∨
      ∃ g, r.target = .ok g ∧ r.write = true ∧ (s.busy = false ∨ g.writableWhileBusy = true) ∧
        s.access r = { s.writeWord g r.wdata with response := some (.write .okay) } := by
  cases ht : r.target with
  | error e => exact .inl (access_error ht)
  | ok g =>
    rw [access_ok ht]
    cases hw : r.write with
    | false => exact .inr (.inl ⟨g, rfl, rfl, by simp⟩)
    | true =>
      simp only [if_true, State.performWrite]
      cases hb : s.busy <;> cases hg : g.writableWhileBusy
      · exact .inr (.inr (.inr ⟨g, rfl, trivial, .inl rfl, by simp⟩))
      · exact .inr (.inr (.inr ⟨g, rfl, trivial, .inl rfl, by simp⟩))
      · exact .inr (.inr (.inl ⟨g, rfl, trivial, rfl, hg, by simp⟩))
      · exact .inr (.inr (.inr ⟨g, rfl, trivial, .inr hg, by simp⟩))

theorem kept_access {s : State} (h : Kept s) (r : BusReq) : Kept (s.access r) := by
  rcases access_cases s r with e | ⟨g, _, _, e⟩ | ⟨g, _, _, _, _, e⟩ | ⟨g, _, _, _, e⟩ <;> rw [e]
  · exact ⟨h.mem, h.slot, h.outLen⟩
  · exact ⟨h.mem, h.slot, h.outLen⟩
  · exact ⟨h.mem, h.slot, h.outLen⟩
  · have := kept_writeWord h g r.wdata
    exact ⟨this.mem, this.slot, this.outLen⟩

theorem access_ports (s : State) (r : BusReq) :
    (s.access r).rst = s.rst ∧ (s.access r).tree = s.tree ∧ (s.access r).requests = s.requests ∧
      (s.access r).turns = s.turns := by
  rcases access_cases s r with e | ⟨g, _, _, e⟩ | ⟨g, _, _, _, _, e⟩ | ⟨g, _, _, _, e⟩ <;> rw [e]
  · exact ⟨rfl, rfl, rfl, rfl⟩
  · exact ⟨rfl, rfl, rfl, rfl⟩
  · exact ⟨rfl, rfl, rfl, rfl⟩
  · exact writeWord_ports s g r.wdata

theorem flightOk_access {s : State} (h : s.flightOk = true) (r : BusReq) : (s.access r).flightOk = true := by
  rcases access_cases s r with e | ⟨g, _, _, e⟩ | ⟨g, _, _, _, _, e⟩ | ⟨g, _, _, _, e⟩ <;> rw [e]
  · exact h
  · exact h
  · exact h
  · cases g with
    | reg q =>
      cases q <;> simp only [State.writeWord, State.writeReg] <;> first | exact h | skip
      · simp [State.flightOk, State.accept]
      · split
        · unfold State.flightOk at *
          split <;> split at h <;> simp_all
        · exact h
    | text _ | shape _ | leaves _ | bits _ | out _ | freq _ | nodeA _ | nodeB _ => exact h

end Sys2Proof.Machine
end

