-- ==== Sys2Proof/Tests/Slice0.lean ====
section
/-! SUPPORT. Tests. Expected values are the worked examples of spec/95_test_vectors.md or words written out from
spec/30_encoding.md; and witnesses of the hypotheses of the obligations. -/

open Sys2Proof Sys2Proof.Machine

-- One test after the other: each waits for the kernel, and a thread for each would exhaust the memory limit.
set_option Elab.async false

namespace Sys2Proof.Tests

/-! ### helpers -/

/-- Fresh, with a text written and its length set. -/
def withText (xs : List Symbol) : State :=
  { State.reset with mem := { Memory.unwritten with text := Buf.ofList 0 xs }, textLen := BitVec.ofNat 16 xs.length }

/-- Fresh, with SHAPE, LEAVES and BITS written and their lengths set. -/
def withCode (shape : List Bool) (leaves : List Symbol) (bits : List Bool) : State :=
  { State.reset with
    mem := { Memory.unwritten with shape := Buf.ofList 0 shape, leaves := Buf.ofList 0 leaves, bits := Buf.ofList 0 bits }
    shapeLen := BitVec.ofNat 16 shape.length
    leavesLen := BitVec.ofNat 16 leaves.length
    bitsLen := BitVec.ofNat 16 bits.length }

/-- `s` holding a tree. -/
def holding (slot : TreeSlot) (s : State) : State := { s with tree := some slot }

/-- `s` with one access presented, the host to move next. -/
def asking (r : BusReq) (s : State) : State := { s with requests := [r], turns := [.host] }

/-- The same while a command is in flight. -/
def askingBusy (r : BusReq) (s : State) : State := { asking r s with pending := some 0x1#32, lastCmd := 0x1#32 }

/-- The outcome is a next state with the property. -/
def nextWith (o : Host.Outcome State Fault Refusal) (p : State → Bool) : Bool :=
  match o with
  | .next t => p t
  | .fault _ => false
  | .refused _ => false

/-- "STREETTEST". -/
def street : List Symbol := [0x53#8, 0x54#8, 0x52#8, 0x45#8, 0x45#8, 0x54#8, 0x54#8, 0x45#8, 0x53#8, 0x54#8]

/-- "AB". -/
def textAB : List Symbol := [0x41#8, 0x42#8]

/-- 10100. -/
def shape5 : List Bool := [true, false, true, false, false]

/-- "EWK". -/
def leavesEWK : List Symbol := [0x45#8, 0x57#8, 0x4B#8]

/-- 1101110. -/
def bitsKEKW : List Bool := [true, true, false, true, true, true, false]

/-- The tree of V-U1, as UNFLATTEN holds it. -/
def slotEWK : TreeSlot :=
  { root := 0#9, nodes := [codecNode 1 2, codecLeaf 0x45#8, codecNode 3 4, codecLeaf 0x57#8, codecLeaf 0x4B#8] }

def treeEWK : Tree := .node (.leaf 0x45#8) (.node (.leaf 0x57#8) (.leaf 0x4B#8))

/-- The tree of V-U2, a single leaf A. -/
def slotA : TreeSlot := { root := 0#9, nodes := [codecLeaf 0x41#8] }

/-- The tree of V-B2 ("AB"), as UNFLATTEN holds it. -/
def slotAB : TreeSlot := { root := 0#9, nodes := [codecNode 1 2, codecLeaf 0x41#8, codecLeaf 0x42#8] }

def treeAB : Tree := .node (.leaf 0x41#8) (.leaf 0x42#8)

/-! ### the encodings, from the format of 30_encoding.md R120: 23 bits of RSVD, STRICT, 8 bits of OP -/

theorem test_decode_build : decode 0b00000000000000000000000_0_00000001#32 = .ok (.build false) := by decide
theorem test_decode_flatten : decode 0b00000000000000000000000_1_00000010#32 = .ok (.flatten true) := by decide
theorem test_decode_unflatten : decode 0b00000000000000000000000_1_00000011#32 = .ok (.unflatten true) := by decide
theorem test_decode_encode : decode 0b00000000000000000000000_0_00000100#32 = .ok (.encode false) := by decide
theorem test_decode_decode : decode 0b00000000000000000000000_1_00000101#32 = .ok (.decode true) := by decide
theorem test_decode_compress : decode 0b00000000000000000000000_0_00000110#32 = .ok (.compress false) := by decide
theorem test_decode_decompress : decode 0b00000000000000000000000_1_00000111#32 = .ok (.decompress true) := by decide
theorem test_decode_clear : decode 0b00000000000000000000000_0_00001000#32 = .ok (.clear false) := by decide
theorem test_decode_zero : decode 0b00000000000000000000000_0_00000000#32 = .error .reservedOp := by decide
theorem test_decode_op9 : decode 0b00000000000000000000000_0_00001001#32 = .error .reservedOp := by decide
theorem test_decode_rsvd : decode 0b00000000000000000000001_0_00000001#32 = .error .reservedBits := by decide
theorem test_table_word : decodeTableWord 32 0x103 = some (.unflatten true) := by decide

/-! ### well-formedness of transactions (20_memory.md R82 to R84) -/

theorem test_wf_ok : (memRead 0x6FF4).wellFormed = true := by decide
theorem test_wf_size : ({ memRead 0x0008 with size := 2 } : BusReq).wellFormed = false := by decide
theorem test_wf_aligned : (memRead 0x0002).wellFormed = false := by decide
theorem test_wf_mapped_registers : (memRead 0x0030).wellFormed = false := by decide
theorem test_wf_mapped_node : (memRead 0x6FF8).wellFormed = false := by decide
theorem test_wf_instr : (Instr.clear true).wellFormed = true := by decide

/-! ### BUILD (V-B1, W1) -/

theorem test_build_street :
    nextWith (exec (.build false) (withText street)) (fun t =>
      decide (t.statusWord = 0x0000000A#32) && decide (t.treeInfoWord = 0x00070006#32)
        && decide (t.readIdle (.nodeA 5) = 0x80000004#32) && decide (t.readIdle (.nodeA 6) = 0x80000A03#32)
        && decide (t.readIdle (.nodeB 5) = 6#32) && decide (t.readIdle (.freq 0x45) = 3#32)) = true := by decide +kernel

theorem test_build_one_symbol :
    nextWith (exec (.build false) (withText (List.replicate 4 0x41#8))) (fun t =>
      decide (t.statusWord = 0x00000406#32) && decide (t.errPos = 1#16) && decide (t.readIdle (.freq 0x41) = 4#32)) = true := by
  decide +kernel

/-! ### FLATTEN (V-S1 from the tree of V-U1, V-S4) -/

theorem test_flatten :
    nextWith (exec (.flatten false) (holding slotEWK State.reset)) (fun t =>
      decide (t.shapeLen = 5#16) && decide (t.leavesLen = 3#16) && decide (t.mem.shape = Buf.ofList 0 shape5)
        && decide (t.mem.leaves = Buf.ofList 0 leavesEWK) && decide (t.statusWord = 0x0000000A#32)) = true := by
  decide +kernel

theorem test_flatten_no_tree :
    nextWith (exec (.flatten false) State.reset) (fun t =>
      decide (t.statusWord = 0x00000306#32) && decide (t.errPos = 0#16)) = true := by decide +kernel

/-! ### UNFLATTEN (V-U1, V-U12) -/

theorem test_unflatten :
    nextWith (exec (.unflatten false) (withCode shape5 leavesEWK [])) (fun t =>
      decide (t.treeInfoWord = 0x00050000#32) && decide (t.readIdle (.nodeA 0) = 0x80000401#32)
        && decide (t.readIdle (.nodeA 1) = 0xC1140000#32) && decide (t.readIdle (.nodeA 2) = 0x80000803#32)
        && decide (t.readIdle (.nodeA 4) = 0xC12C0000#32)) = true := by decide +kernel

theorem test_unflatten_trailing :
    nextWith (exec (.unflatten true) (withCode shape5 (leavesEWK ++ [0x51#8]) [])) (fun t =>
      decide (t.statusWord = 0x00000706#32) && decide (t.errPos = 5#16) && decide (t.treeInfoWord = 0#32)) = true := by
  decide +kernel

/-! ### ENCODE (V-E10, V-E17) -/

theorem test_encode :
    nextWith (exec (.encode false) (holding slotEWK (withText [0x4B#8, 0x45#8, 0x4B#8, 0x57#8]))) (fun t =>
      decide (t.bitsLen = 7#16) && decide (t.mem.bits = Buf.ofList 0 bitsKEKW) && decide (t.statusWord = 0x0000000A#32)) =
        true := by decide +kernel

theorem test_encode_unmapped :
    nextWith (exec (.encode false) (holding slotEWK (withText [0x4B#8, 0x45#8, 0x58#8, 0x57#8]))) (fun t =>
      decide (t.statusWord = 0x0000080E#32) && decide (t.errPos = 2#16)) = true := by decide +kernel

/-! ### DECODE (V-D1, V-D3) -/

theorem test_decode :
    nextWith (exec (.decode false) (holding slotEWK (withCode [] [] bitsKEKW))) (fun t =>
      decide (t.outLen = 4#16) && decide (t.readIdle (.out 0) = 0x574B454B#32) && decide (t.statusWord = 0x0000000A#32)) =
        true := by decide +kernel

theorem test_decode_partial :
    nextWith (exec (.decode true) (holding slotEWK (withCode [] [] (bitsKEKW ++ [true])))) (fun t =>
      decide (t.statusWord = 0x00000C0E#32) && decide (t.errPos = 7#16) && decide (t.outLen = 0#16)) = true := by
  decide +kernel

/-! ### COMPRESS (V-C1), DECOMPRESS (V-X1, V-X3), CLEAR (2.8) -/

theorem test_compress :
    nextWith (exec (.compress false) (withText street)) (fun t =>
      decide (t.statusWord = 0x00000002#32) && decide (t.shapeLen = 7#16) && decide (t.bitsLen = 19#16)
        && decide (t.readIdle (.leaves 0) = 0x45535254#32)
        && decide (t.mem.bits = Buf.ofList 0 ((List.range 19).map (fun j => (0x0002E795#32).getLsbD j)))) = true := by
  decide +kernel

theorem test_decompress :
    nextWith (exec (.decompress false) (withCode shape5 leavesEWK bitsKEKW)) (fun t =>
      decide (t.statusWord = 0x00000002#32) && decide (t.outLen = 4#16) && decide (t.readIdle (.out 0) = 0x574B454B#32)
        && decide (t.treeInfoWord = 0#32)) = true := by decide +kernel

theorem test_decompress_underrun :
    nextWith (exec (.decompress false) (withCode [true, false, true] leavesEWK bitsKEKW)) (fun t =>
      decide (t.statusWord = 0x00000506#32) && decide (t.errPos = 3#16) && decide (t.mem.out = [])) = true := by decide +kernel

theorem test_clear :
    nextWith (exec (.clear false) (holding slotEWK State.reset)) (fun t =>
      decide (t.statusWord = 0x00000002#32) && decide (t.treeInfoWord = 0#32)) = true := by decide +kernel

/-! ### the host port (20_memory.md R85, R86, R94; 30_encoding.md R131) -/

theorem test_text_window :
    nextWith (step (asking (memWrite 0x1000 0x45525453#32) State.reset)) (fun t =>
      decide (t.mem.text = Buf.ofList 0 (street.take 4))) = true := by decide +kernel

theorem test_shape_last_bit :
    nextWith (step (asking (memWrite 0x303C 0xFFFFFFFF#32) State.reset)) (fun t =>
      decide (Buf.get t.mem.shape 510 = some true) && decide (Buf.get t.mem.shape 511 = none)) = true := by decide +kernel

theorem test_busy_write_refused :
    nextWith (step (askingBusy (memWrite 0x0010 0x4#32) State.reset)) (fun t =>
      decide (t.response = some (.write .error)) && decide (t.textLen = 0#16)) = true := by decide +kernel

theorem test_ldtext :
    (HostOp.ldText street).expand =
      [memWrite 0x1000 0x45525453#32, memWrite 0x1004 0x45545445#32, memWrite 0x1008 0x00005453#32,
        memWrite 0x0010 10#32] := by decide +kernel

theorem test_fetch_word : nextWith (step (State.reset.withFetchWord 32 0x8)) (fun t =>
    decide (t.statusWord = 0x00000002#32) && decide (t.lastCmd = 0x8#32)) = true := by decide +kernel

/-! ### witnesses: states and operands that meet the hypotheses of the obligations, at the bounds of their ranges -/

theorem next_of_nextWith {o : Host.Outcome State Fault Refusal} {p : State → Bool} (h : nextWith o p = true) :
    ∃ t, o = .next t ∧ p t = true := by
  cases o with
  | next t => exact ⟨t, rfl, h⟩
  | fault f => cases h
  | refused r => cases h

theorem holds_EWK (s : State) : Holds (holding slotEWK s) treeEWK := ⟨slotEWK, rfl, by decide +kernel, by decide +kernel⟩
theorem holds_AB (s : State) : Holds (holding slotAB s) treeAB := ⟨slotAB, rfl, by decide +kernel, by decide +kernel⟩
theorem holds_A (s : State) : Holds (holding slotA s) (.leaf 0x41#8) := ⟨slotA, rfl, by decide +kernel, by decide +kernel⟩

theorem toNat_ofNat_length {n : Nat} (h : n < 65536) : (BitVec.ofNat 16 n).toNat = n := by
  rw [BitVec.toNat_ofNat]; omega

theorem readMany_ofList {α : Type} (xs : List α) (draw : Nat → α) (h : xs.length < 65536) :
    Buf.readMany (Buf.ofList 0 xs) draw 0 (BitVec.ofNat 16 xs.length).toNat = xs := by
  rw [toNat_ofNat_length h]
  apply Buf.readMany_eq
  intro i hi
  rw [Buf.get_ofList]
  simp

/-- The sequences a command reads are the ones written. -/
theorem textSeq_withText {xs : List Symbol} (h : xs.length < 65536) : (withText xs).textSeq = xs := readMany_ofList _ _ h
theorem shapeSeq_withCode {a : List Bool} {b : List Symbol} {c : List Bool} (h : a.length < 65536) :
    (withCode a b c).shapeSeq = a := readMany_ofList _ _ h
theorem leavesSeq_withCode {a : List Bool} {b : List Symbol} {c : List Bool} (h : b.length < 65536) :
    (withCode a b c).leavesSeq = b := readMany_ofList _ _ h
theorem bitsSeq_withCode {a : List Bool} {b : List Symbol} {c : List Bool} (h : c.length < 65536) :
    (withCode a b c).bitsSeq = c := readMany_ofList _ _ h

/-- A tree in which every zero-child is a leaf (the shape of V-U17), of depth `n`. -/
def comb : Nat → Tree
  | 0 => .leaf 0x00#8
  | n + 1 => .node (.leaf (BitVec.ofNat 8 (n + 1))) (comb n)

/-- `comb n` as UNFLATTEN holds it. -/
def slotComb (n : Nat) : TreeSlot := { root := 0#9, nodes := (comb n).arena 0 }

theorem holds_comb {n : Nat} (h : (comb n).shape.length ≤ 511) (s : State) : Holds (holding (slotComb n) s) (comb n) :=
  ⟨slotComb n, rfl, (comb n).unflattened_wf h, (comb n).unflattened_abstract h⟩

theorem hostNext_asking (r : BusReq) (slot : TreeSlot) :
    HostNext (asking r State.reset) r ∧ HostNext (askingBusy r State.reset) r ∧
      HostNext (asking r (holding slot State.reset)) r := ⟨⟨rfl, rfl, rfl⟩, ⟨rfl, rfl, rfl⟩, ⟨rfl, rfl, rfl⟩⟩

theorem wit_ResetAbandonsTheCommand :
    ∃ (s : State) (rest : List Turn), s.turns = .assertReset :: .host :: .releaseReset :: rest ∧ s.busy = true :=
  ⟨{ State.reset with pending := some 0x1#32, turns := [.assertReset, .host, .releaseReset] }, [], rfl, rfl⟩

theorem wit_DecodeAndEncodeAgree :
    (Instr.clear true).wellFormed = true ∧ decode 0x108#32 = .ok (.clear true) := by decide

theorem wit_DecoderRefusesTheReservedWords :
    decode 0x200#32 = .error .reservedBits ∧ decode 0x0#32 = .error .reservedOp ∧ decode 0x9#32 = .error .reservedOp ∧
      decode 0x1FF#32 = .error .reservedOp := by decide

theorem wit_StepRunsTheCommandInFlight :
    ∃ (s s' : State) (w : Word) (i : Instr), s.rst = false ∧ s.pending = some w ∧ decode w = .ok i ∧ s.turns = [] ∧
      s'.rst = false ∧ s'.pending = some w ∧ s'.turns = [.engine] :=
  ⟨State.reset.accept 0x8#32, { State.reset.accept 0x8#32 with turns := [.engine] }, 0x8#32, .clear false,
    rfl, rfl, by decide, rfl, rfl, rfl, rfl⟩

theorem wit_AcceptanceOfACommand :
    ∃ (s : State) (v : Word), HostNext s (memWrite 0x0004 v) ∧ s.pending = none :=
  ⟨asking (memWrite 0x0004 0x1#32) State.reset, 0x1#32, ⟨rfl, rfl, rfl⟩, rfl⟩

theorem wit_CompletionOfACommand : ∃ t, exec (.clear false) State.reset = .next t ∧ t.errCode = .ok := ⟨_, rfl, rfl⟩

/-- Illegal words at the ends of their ranges, accepted, waiting over a host move and an idle move, and completed. -/
theorem wit_IllegalWordCompletes :
    ∀ w ∈ [0x200#32, 0xFFFFFFFF#32, 0x0#32, 0x9#32, 0xFF#32], IllegalCommand w ∧
      HostNext (asking (memWrite 0x0004 w) State.reset) (memWrite 0x0004 w) ∧
      (asking (memWrite 0x0004 w) State.reset).busy = false ∧
      ∀ m ∈ [Turn.host, Turn.idle, Turn.engine], ∃ s : State, s.rst = false ∧ s.pending = some w ∧ s.turns = m :: [] := by
  intro w hw
  refine ⟨?_, ⟨rfl, rfl, rfl⟩, rfl, fun m _ => ⟨{ State.reset.accept w with turns := [m] }, rfl, rfl, rfl⟩⟩
  fin_cases hw <;> simp [IllegalCommand]

theorem wit_PreCheckFailureChangesNothingElse :
    preCheckOf (.build false) { State.reset with textLen := 4097#16 } = some (.lenRange, 0x10) ∧
      preCheckOf (.flatten false) State.reset = some (.noTree, 0) ∧
      preCheckOf (.unflatten false) { State.reset with shapeLen := 512#16, leavesLen := 257#16 } = some (.lenRange, 0x14) ∧
      preCheckOf (.unflatten false) { State.reset with shapeLen := 511#16, leavesLen := 257#16 } = some (.lenRange, 0x18) ∧
      preCheckOf (.encode false) { State.reset with textLen := 4097#16 } = some (.lenRange, 0x10) ∧
      preCheckOf (.encode false) { State.reset with textLen := 4096#16 } = some (.noTree, 0) ∧
      preCheckOf (.decode false) { State.reset with bitsLen := 32769#16 } = some (.lenRange, 0x1C) ∧
      preCheckOf (.decode false) { State.reset with bitsLen := 32768#16 } = some (.noTree, 0) ∧
      preCheckOf (.compress false) { State.reset with textLen := 4097#16 } = some (.lenRange, 0x10) ∧
      preCheckOf (.decompress false) { State.reset with shapeLen := 512#16 } = some (.lenRange, 0x14) ∧
      preCheckOf (.decompress false) { State.reset with shapeLen := 5#16, leavesLen := 257#16, bitsLen := 40000#16 } =
        some (.lenRange, 0x18) ∧
      preCheckOf (.decompress false) { State.reset with shapeLen := 5#16, leavesLen := 3#16, bitsLen := 32769#16 } =
        some (.lenRange, 0x1C) ∧
      IllegalCommand 0x200#32 := by
  refine ⟨rfl, rfl, rfl, rfl, rfl, rfl, rfl, rfl, rfl, rfl, rfl, rfl, ?_⟩
  simp [IllegalCommand]

theorem wit_CommandFrames (b : Bool) :
    ∀ i ∈ [Instr.build b, .flatten b, .unflatten b, .encode b, .decode b, .compress b, .decompress b, .clear b],
      ∃ t, exec i (holding slotEWK State.reset) = .next t := by
  intro i hi
  have h : nextWith (exec i (holding slotEWK State.reset)) (fun _ => true) = true := by
    cases b <;> fin_cases hi <;> decide +kernel
  obtain ⟨t, ht, _⟩ := next_of_nextWith h
  exact ⟨t, ht⟩

theorem wit_StrictMattersOnlyToTheTwoChecks :
    (∃ t, exec (.unflatten true) (withCode shape5 leavesEWK bitsKEKW) = .next t ∧ t.errCode ≠ .trailingData) ∧
      (∃ t, exec (.decode true) (holding slotEWK (withCode [] [] bitsKEKW)) = .next t ∧ t.errCode ≠ .partialCode) ∧
      ∃ t, exec (.decompress true) (withCode shape5 leavesEWK bitsKEKW) = .next t ∧ t.errCode ≠ .trailingData ∧
        t.errCode ≠ .partialCode := by
  refine ⟨?_, ?_, ?_⟩
  · obtain ⟨t, h1, h2⟩ := next_of_nextWith (o := exec (.unflatten true) (withCode shape5 leavesEWK bitsKEKW))
      (p := fun t => decide (t.errCode ≠ .trailingData)) (by decide +kernel)
    exact ⟨t, h1, by simpa using h2⟩
  · obtain ⟨t, h1, h2⟩ := next_of_nextWith (o := exec (.decode true) (holding slotEWK (withCode [] [] bitsKEKW)))
      (p := fun t => decide (t.errCode ≠ .partialCode)) (by decide +kernel)
    exact ⟨t, h1, by simpa using h2⟩
  · obtain ⟨t, h1, h2⟩ := next_of_nextWith (o := exec (.decompress true) (withCode shape5 leavesEWK bitsKEKW))
      (p := fun t => decide (t.errCode ≠ .trailingData) && decide (t.errCode ≠ .partialCode)) (by decide +kernel)
    exact ⟨t, h1, by simpa using h2⟩

/-- An error after passed pre-checks, for every command that has one; a success for the two that have none. -/
theorem wit_TreeSlotAfterAnError :
    ∀ x ∈ [(Instr.build false, withText [0x41#8], true), (.unflatten false, withCode [true] [] [], true),
        (.compress false, withText [], true), (.decompress false, withCode [false] [0x5A#8] [false], true),
        (.encode false, holding slotEWK (withText [0x58#8]), true),
        (.decode false, holding slotA (withCode [] [] [false]), true),
        (.flatten false, holding slotEWK State.reset, false), (.clear false, State.reset, false)],
      preCheckOf x.1 x.2.1 = none ∧ ∃ t, exec x.1 x.2.1 = .next t ∧ t.err = x.2.2 := by
  intro x hx
  have h : preCheckOf x.1 x.2.1 = none ∧ nextWith (exec x.1 x.2.1) (fun t => t.err == x.2.2) = true := by
    fin_cases hx <;> decide +kernel
  obtain ⟨t, h1, h2⟩ := next_of_nextWith h.2
  exact ⟨h.1, t, h1, by simpa using h2⟩

theorem wit_OnlyBuildAndUnflattenMakeATree :
    (∃ t, step ((withText textAB).accept 0x1#32) = .next t ∧ t.treeValid = true) ∧
      (∃ t, step ((withCode shape5 leavesEWK []).accept 0x103#32) = .next t ∧ t.treeValid = true) ∧
      ((withText textAB).accept 0x1#32).treeValid = false ∧ ((withCode shape5 leavesEWK []).accept 0x103#32).treeValid = false :=
  ⟨next_of_nextWith (p := fun t => t.treeValid) (by decide +kernel),
    next_of_nextWith (p := fun t => t.treeValid) (by decide +kernel), rfl, rfl⟩

theorem wit_OperandsAreTheWrittenElements :
    Buf.get (withText textAB).mem.text 1 = some 0x42#8 ∧ 1 < (withText textAB).textLen.toNat ∧
      Buf.get (withCode shape5 leavesEWK bitsKEKW).mem.shape 4 = some false ∧
      4 < (withCode shape5 leavesEWK bitsKEKW).shapeLen.toNat ∧
      Buf.get (withCode shape5 leavesEWK bitsKEKW).mem.leaves 2 = some 0x4B#8 ∧
      2 < (withCode shape5 leavesEWK bitsKEKW).leavesLen.toNat ∧
      Buf.get (withCode shape5 leavesEWK bitsKEKW).mem.bits 6 = some false ∧
      6 < (withCode shape5 leavesEWK bitsKEKW).bitsLen.toNat := by decide

theorem wit_BuildCountsTheText : ({ State.reset with textLen := 4096#16 } : State).textLen.toNat ≤ 4096 := by decide

theorem wit_BuildRejectsASmallAlphabet :
    (withText []).textLen.toNat ≤ 4096 ∧ (withText []).alphabet < 2 ∧ (withText [0x41#8]).textLen.toNat ≤ 4096 ∧
      (withText [0x41#8]).alphabet < 2 := by decide +kernel

theorem wit_BuildMakesATree : (withText textAB).textLen.toNat ≤ 4096 ∧ 2 ≤ (withText textAB).alphabet := by decide +kernel

theorem wit_BuildMergesTheTwoLeast :
    ∃ t slot, exec (.build false) (withText textAB) = .next t ∧ t.tree = some slot ∧ (withText textAB).alphabet ≤ 2 ∧
      2 < slot.nodeCount := by
  obtain ⟨t, h1, h2⟩ := next_of_nextWith (o := exec (.build false) (withText textAB))
    (p := fun t => decide (t.tree = some (huffmanSlot textAB))) (by decide +kernel)
  exact ⟨t, huffmanSlot textAB, h1, by simpa using h2, by decide +kernel, by decide +kernel⟩

theorem wit_BuildAllocatesTheLeavesFirst :
    ∃ t slot, (withText textAB).textLen.toNat ≤ 4096 ∧ 2 ≤ (withText textAB).alphabet ∧
      exec (.build false) (withText textAB) = .next t ∧ t.tree = some slot := by
  obtain ⟨t, slot, h1, h2, _⟩ := wit_BuildMergesTheTwoLeast
  exact ⟨t, slot, wit_BuildMakesATree.1, wit_BuildMakesATree.2, h1, h2⟩

theorem wit_BuildDependsOnTheCountsOnly :
    (∀ x, (withText textAB).textSeq.count x = (withText [0x42#8, 0x41#8]).textSeq.count x) ∧
      (withText textAB).textLen.toNat ≤ 4096 ∧ (withText [0x42#8, 0x41#8]).textLen.toNat ≤ 4096 ∧
      (∃ t, exec (.build false) (withText textAB) = .next t) ∧ ∃ t, exec (.build true) (withText [0x42#8, 0x41#8]) = .next t := by
  refine ⟨?_, by decide, by decide, ⟨_, exec_build false (by decide)⟩, ⟨_, exec_build true (by decide)⟩⟩
  intro x
  rw [textSeq_withText (by decide), textSeq_withText (by decide)]
  simp [textAB, List.count_cons, Nat.add_comm]

theorem wit_FlattenWritesTheTree : Holds (holding slotEWK State.reset) treeEWK ∧ Holds (holding slotA State.reset) (.leaf 0x41#8) ∧
    Holds (holding (slotComb 255) State.reset) (comb 255) :=
  ⟨holds_EWK _, holds_A _, holds_comb (by decide +kernel) _⟩

theorem wit_FlattenShapeLength :
    Holds (holding slotEWK State.reset) treeEWK ∧ ∃ t, exec (.flatten false) (holding slotEWK State.reset) = .next t :=
  ⟨holds_EWK _, _, exec_flatten false rfl⟩

/-- Strict with nothing left over on the largest tree, and permissive with input left over. -/
theorem wit_UnflattenRebuildsTheTree :
    (∃ s : State, s.shapeLen.toNat = 511 ∧ s.leavesLen.toNat = 256 ∧ s.shapeSeq = (comb 255).shape ++ [] ∧
      s.leavesSeq = (comb 255).leaves ++ []) ∧
    ∃ s : State, s.shapeLen.toNat ≤ 511 ∧ s.leavesLen.toNat ≤ 256 ∧ s.shapeSeq = (Tree.leaf 0x41#8).shape ++ [true] ∧
      s.leavesSeq = (Tree.leaf 0x41#8).leaves ++ [0x42#8] := by
  refine ⟨⟨withCode (comb 255).shape (comb 255).leaves [], ?_, ?_, ?_, ?_⟩,
    ⟨withCode [false, true] textAB [], by decide, by decide, by decide, by decide⟩⟩
  · show (BitVec.ofNat 16 (comb 255).shape.length).toNat = 511
    decide +kernel
  · show (BitVec.ofNat 16 (comb 255).leaves.length).toNat = 256
    decide +kernel
  · rw [List.append_nil]; exact shapeSeq_withCode (by decide +kernel)
  · rw [List.append_nil]; exact leavesSeq_withCode (by decide +kernel)

theorem wit_UnflattenUnderruns :
    (∃ s : State, s.shapeLen.toNat ≤ 511 ∧ s.leavesLen.toNat ≤ 256 ∧
      (∀ (tr : Tree) (r : List Bool), s.shapeSeq ≠ tr.shape ++ r) ∧ s.shapeSeq.count false ≤ s.leavesSeq.length) ∧
    (∃ (s : State) (tr : Tree) (r : List Bool), s.shapeLen.toNat ≤ 511 ∧ s.leavesLen.toNat ≤ 256 ∧
      s.shapeSeq = tr.shape ++ r ∧ s.leavesSeq.length < tr.leaves.length) ∧
    ∃ s : State, s.shapeLen.toNat ≤ 511 ∧ s.leavesLen.toNat ≤ 256 ∧
      (∀ (tr : Tree) (r : List Bool), s.shapeSeq ≠ tr.shape ++ r) ∧ s.leavesSeq.length < s.shapeSeq.count false := by
  have key : ∀ (tr : Tree) (r : List Bool), [true, false] ≠ tr.shape ++ r := by
    intro tr r h
    cases tr with
    | leaf a => simp [Tree.shape] at h
    | node z o =>
      have h1 := z.shape_pos
      have h2 := o.shape_pos
      have := congrArg List.length h
      simp [Tree.shape] at this
      omega
  refine ⟨⟨withCode [true, false] textAB [], by decide, by decide, ?_, by decide⟩,
    ⟨withCode [false] [] [], .leaf 0#8, [], by decide, by decide, by decide, by decide⟩,
    ⟨withCode [true, false] [] [], by decide, by decide, ?_, by decide⟩⟩
  · rw [shapeSeq_withCode (by decide)]; exact key
  · rw [shapeSeq_withCode (by decide)]; exact key

theorem wit_UnflattenTrailingData :
    ∃ (s : State) (tr : Tree) (ms : List Bool) (ml : List Symbol), s.shapeLen.toNat ≤ 511 ∧ s.leavesLen.toNat ≤ 256 ∧
      s.shapeSeq = tr.shape ++ ms ∧ s.leavesSeq = tr.leaves ++ ml ∧ ¬ (ms = [] ∧ ml = []) :=
  ⟨withCode [false] textAB [], .leaf 0x41#8, [], [0x42#8], by decide, by decide, by decide, by decide, by decide⟩

theorem wit_FlattenUnflattenRoundTrip :
    Holds (holding slotEWK State.reset) treeEWK ∧
      ∃ t, exec (.unflatten true) (withCode shape5 leavesEWK []) = .next t ∧ t.errCode = .ok := by
  refine ⟨holds_EWK _, ?_⟩
  obtain ⟨t, h1, h2⟩ := next_of_nextWith (o := exec (.unflatten true) (withCode shape5 leavesEWK []))
    (p := fun t => decide (t.errCode = .ok)) (by decide +kernel)
  exact ⟨t, h1, by simpa using h2⟩

theorem wit_EncodeWritesTheCodes :
    ∃ (s : State) (tr : Tree), Holds s tr ∧ s.textLen.toNat ≤ 4096 ∧ AllMapped tr s.textSeq ∧
      (bitsOfText tr s.textSeq).length ≤ 32768 :=
  ⟨holding slotAB (withText textAB), treeAB, holds_AB _, by decide, by unfold AllMapped; decide, by decide⟩

/-- 3640 codes of 9 bits fill 32760 of the 32768 bits; the next one does not fit. -/
theorem wit_EncodeErrors :
    (∃ (s : State) (tr : Tree) (x : Symbol), Holds s tr ∧ s.textLen.toNat ≤ 4096 ∧ s.textSeq = textAB ++ x :: [] ∧
      AllMapped tr textAB ∧ (bitsOfText tr textAB).length ≤ 32768 ∧ tr.code x = none) ∧
    ∃ (s : State) (tr : Tree) (pre : List Symbol) (x : Symbol) (p : List Bool), Holds s tr ∧ s.textLen.toNat ≤ 4096 ∧
      s.textSeq = pre ++ x :: [] ∧ AllMapped tr pre ∧ (bitsOfText tr pre).length ≤ 32768 ∧ tr.code x = some p ∧
      32768 < (bitsOfText tr pre).length + p.length := by
  have hlen : (bitsOfText (comb 9) (List.replicate 3640 0#8)).length = 32760 := by
    have : ∀ n, (bitsOfText (comb 9) (List.replicate n 0#8)).length = n * 9 := by
      intro n
      induction n with
      | zero => rfl
      | succ n ih =>
        have h9 : (((comb 9).code 0#8).getD []).length = 9 := by decide
        simp only [bitsOfText, List.replicate_succ, List.flatMap_cons, List.length_append, h9] at ih ⊢
        rw [ih]; omega
    rw [this]
  refine ⟨⟨holding slotAB (withText (textAB ++ [0x43#8])), treeAB, 0x43#8, holds_AB _, by decide, by decide,
    by unfold AllMapped; decide, by decide, by decide⟩, ?_⟩
  refine ⟨holding (slotComb 9) (withText (List.replicate 3640 0#8 ++ [0#8])), comb 9, List.replicate 3640 0#8, 0#8,
    List.replicate 9 true, holds_comb (by decide) _, ?_, ?_, ?_, ?_, by decide, ?_⟩
  · show (BitVec.ofNat 16 (List.replicate 3640 0#8 ++ [0#8]).length).toNat ≤ 4096
    rw [List.length_append, List.length_replicate]; decide
  · show (withText (List.replicate 3640 0#8 ++ [0#8])).textSeq = _
    exact textSeq_withText (by rw [List.length_append, List.length_replicate]; decide)
  · intro y hy
    rw [List.eq_of_mem_replicate hy]; decide
  · rw [hlen]; decide
  · rw [hlen, List.length_replicate]; decide

theorem wit_CodesArePrefixFree :
    ∃ visits, slotEWK.wf = true ∧ slotEWK.paths = some visits ∧ codeOf visits 0x45#8 = some [false] ∧
      codeOf visits 0x57#8 = some [true, false] ∧ (0x45#8 : Symbol) ≠ 0x57#8 :=
  ⟨_, by decide +kernel, rfl, by decide +kernel, by decide +kernel, by decide⟩

/-- V-D2 and V-D4: with the final `1` dropped in the permissive mode, and nothing left over in the strict mode. -/
theorem wit_DecodeWritesTheSymbols :
    ∃ ws : List (Symbol × List Bool), SpelledBy treeEWK ws ∧ ws.length ≤ 4096 ∧ EndsMidPath treeEWK [true] ∧
      EndsMidPath treeEWK [] ∧ (holding slotEWK (withCode [] [] (bitsKEKW ++ [true]))).bitsSeq = joinBits ws ++ [true] ∧
      (holding slotEWK (withCode [] [] bitsKEKW)).bitsSeq = joinBits ws ++ [] ∧
      (holding slotEWK (withCode [] [] bitsKEKW)).bitsLen.toNat ≤ 32768 ∧
      Holds (holding slotEWK (withCode [] [] bitsKEKW)) treeEWK :=
  ⟨[(0x4B#8, [true, true]), (0x45#8, [false]), (0x4B#8, [true, true]), (0x57#8, [true, false])],
    by unfold SpelledBy; decide, by decide, ⟨_, _, rfl⟩, ⟨_, _, rfl⟩, by decide, by decide, by decide, holds_EWK _⟩

/-- 4097 times the code of A in the tree of A and B, one symbol more than OUT holds. -/
theorem manyA :
    List.replicate 4097 false = joinBits (List.replicate 4096 ((0x41#8 : Symbol), [false])) ++ [false] ++ [] ∧
      SpelledBy treeAB (List.replicate 4096 (0x41#8, [false]) ++ [(0x41#8, [false])]) := by
  have h : ∀ n, joinBits (List.replicate n ((0x41#8 : Symbol), [false])) = List.replicate n false := by
    intro n
    induction n with
    | zero => rfl
    | succ n ih =>
      simp only [joinBits, List.replicate_succ, List.map_cons, List.flatten_cons] at ih ⊢
      rw [ih]; rfl
  refine ⟨by rw [h, List.append_nil]; exact List.replicate_succ', ?_⟩
  intro x hx
  rcases List.mem_append.mp hx with hx | hx
  · rw [List.eq_of_mem_replicate hx]; rfl
  · rw [List.mem_singleton.mp hx]; rfl

/-- A bit at a leaf root; the 4097th symbol of one bit each; a final `1` in the strict mode. -/
theorem wit_DecodeErrors :
    ((Tree.leaf 0x41#8).isNode = false ∧ (holding slotA (withCode [] [] [false])).bitsSeq ≠ [] ∧
      Holds (holding slotA (withCode [] [] [false])) (.leaf 0x41#8)) ∧
    (∃ (s : State) (ws : List (Symbol × List Bool)) (w : Symbol × List Bool), Holds s treeAB ∧ s.bitsLen.toNat ≤ 32768 ∧
      treeAB.isNode = true ∧ s.bitsSeq = joinBits ws ++ w.2 ++ [] ∧ SpelledBy treeAB (ws ++ [w]) ∧ ws.length = 4096) ∧
    ∃ (s : State) (ws : List (Symbol × List Bool)), Holds s treeEWK ∧ s.bitsSeq = joinBits ws ++ [true] ∧
      SpelledBy treeEWK ws ∧ EndsMidPath treeEWK [true] ∧ ws.length ≤ 4096 := by
  refine ⟨⟨rfl, by decide, holds_A _⟩, ?_, ?_⟩
  · refine ⟨holding slotAB (withCode [] [] (List.replicate 4097 false)), List.replicate 4096 (0x41#8, [false]),
      (0x41#8, [false]), holds_AB _, ?_, rfl, ?_, ?_, by rw [List.length_replicate]⟩
    · show (BitVec.ofNat 16 (List.replicate 4097 false).length).toNat ≤ 32768
      rw [List.length_replicate]; decide
    · have h1 : (holding slotAB (withCode [] [] (List.replicate 4097 false))).bitsSeq = List.replicate 4097 false :=
        bitsSeq_withCode (a := []) (b := []) (by rw [List.length_replicate]; decide)
      rw [h1]; exact manyA.1
    · exact manyA.2
  · exact ⟨holding slotEWK (withCode [] [] [false, true]), [(0x45#8, [false])], holds_EWK _, by decide,
      by unfold SpelledBy; decide, ⟨_, _, rfl⟩, by decide⟩

/-- A state of each form: more codes than OUT holds, bits left over, codes alone. -/
theorem wit_EveryBitSequenceIsCodesAndARest :
    (∃ s : State, Holds s treeAB ∧ treeAB.isNode = true ∧ s.bitsLen.toNat = 4097) ∧
      (Holds (holding slotEWK (withCode [] [] (bitsKEKW ++ [true]))) treeEWK ∧ treeEWK.isNode = true ∧
        (holding slotEWK (withCode [] [] (bitsKEKW ++ [true]))).bitsLen.toNat ≤ 32768) ∧
      Holds (holding slotEWK (withCode [] [] bitsKEKW)) treeEWK ∧
      (holding slotEWK (withCode [] [] bitsKEKW)).bitsLen.toNat ≤ 32768 :=
  ⟨⟨{ holding slotAB State.reset with bitsLen := 4097#16 }, holds_AB { State.reset with bitsLen := 4097#16 }, rfl, rfl⟩,
    ⟨holds_EWK _, rfl, by decide⟩, holds_EWK _, by decide⟩

theorem wit_DecodeOfNothing :
    Holds (holding slotEWK State.reset) treeEWK ∧ Holds (holding slotA State.reset) (.leaf 0x41#8) ∧
      (holding slotA State.reset).bitsLen = 0#16 := ⟨holds_EWK _, holds_A _, rfl⟩

theorem wit_DecodeInvertsEncode :
    (∃ t, exec (.encode false) (holding slotAB (withText textAB)) = .next t ∧ t.errCode = .ok) ∧
      Holds (holding slotAB (withText textAB)) treeAB ∧ treeAB.isNode = true ∧
      AllMapped treeAB (holding slotAB (withText textAB)).textSeq ∧
      (holding slotAB (withText textAB)).textLen.toNat ≤ 4096 ∧
      Holds (holding slotA (withText [0x41#8, 0x41#8])) (.leaf 0x41#8) ∧
      (∀ y ∈ (holding slotA (withText [0x41#8, 0x41#8])).textSeq, y = 0x41#8) := by
  obtain ⟨t, h1, h2⟩ := next_of_nextWith (o := exec (.encode false) (holding slotAB (withText textAB)))
    (p := fun t => decide (t.errCode = .ok)) (by decide +kernel)
  exact ⟨⟨t, h1, by simpa using h2⟩, holds_AB _, rfl, by unfold AllMapped; decide, by decide, holds_A _, by decide⟩

theorem wit_CompressSucceeds :
    (withText textAB).textLen.toNat ≤ 4096 ∧ 2 ≤ (withText textAB).alphabet ∧
      ∃ t, exec (.compress false) (withText textAB) = .next t :=
  ⟨by decide, by decide +kernel, _, exec_compress false (by decide)⟩

theorem wit_CompressRejectsASmallAlphabet :
    (withText []).textLen.toNat ≤ 4096 ∧ (withText []).alphabet < 2 ∧ (withText [0x41#8, 0x41#8]).textLen.toNat ≤ 4096 ∧
      (withText [0x41#8, 0x41#8]).alphabet < 2 := by decide +kernel

theorem wit_CompressIsBuildFlattenEncodeClear :
    (withText textAB).textLen.toNat ≤ 4096 ∧ 2 ≤ (withText textAB).alphabet ∧
      WrittenBelow (withText textAB).mem.text (withText textAB).textLen.toNat :=
  ⟨by decide, by decide +kernel, by unfold WrittenBelow; decide⟩

theorem wit_CompressIsDeterministic :
    ∃ t t', exec (.compress false) (withText textAB) = .next t ∧
      exec (.compress true) (holding slotEWK (withText textAB)) = .next t' ∧
      (withText textAB).textSeq = (holding slotEWK (withText textAB)).textSeq :=
  ⟨_, _, exec_compress false (by decide), exec_compress true (by decide), rfl⟩

/-- V-X5 and V-X9. -/
theorem wit_DecompressWritesTheSymbols :
    (∃ ws : List (Symbol × List Bool),
      (withCode shape5 (leavesEWK ++ [0x58#8]) bitsKEKW).shapeSeq = treeEWK.shape ++ [] ∧
      (withCode shape5 (leavesEWK ++ [0x58#8]) bitsKEKW).leavesSeq = treeEWK.leaves ++ [0x58#8] ∧
      (withCode shape5 (leavesEWK ++ [0x58#8]) bitsKEKW).bitsSeq = joinBits ws ++ [] ∧ SpelledBy treeEWK ws ∧
      treeEWK.isNode = true ∧ EndsMidPath treeEWK []) ∧
    (withCode [false] [0x5A#8] []).shapeSeq = (Tree.leaf 0x5A#8).shape ++ [] ∧
      (withCode [false] [0x5A#8] []).leavesSeq = (Tree.leaf 0x5A#8).leaves ++ [] ∧
      (withCode [false] [0x5A#8] []).bitsSeq = joinBits [] ++ [] ∧ (Tree.leaf 0x5A#8).isNode = false :=
  ⟨⟨[(0x4B#8, [true, true]), (0x45#8, [false]), (0x4B#8, [true, true]), (0x57#8, [true, false])],
    by decide, by decide, by decide, by unfold SpelledBy; decide, rfl, ⟨_, _, rfl⟩⟩, by decide, by decide, by decide, rfl⟩

/-- An UNFLATTEN error; V-X6, a bit at a leaf root; the 4097th symbol of one bit each; V-X8, a final `1` in the strict
mode. -/
theorem wit_DecompressStopsAtAnUnflattenError :
    (∃ t, exec (.unflatten false) (withCode [true, false, true] leavesEWK bitsKEKW) = .next t ∧ t.errCode ≠ .ok ∧
      (withCode [true, false, true] leavesEWK bitsKEKW).bitsLen.toNat ≤ 32768) ∧
    ((withCode [false] [0x41#8] [false]).shapeSeq = (Tree.leaf 0x41#8).shape ++ [] ∧
      (withCode [false] [0x41#8] [false]).leavesSeq = (Tree.leaf 0x41#8).leaves ++ [] ∧
      (withCode [false] [0x41#8] [false]).bitsSeq ≠ [] ∧ (Tree.leaf 0x41#8).isNode = false) ∧
    (∃ (s : State) (ws : List (Symbol × List Bool)) (w : Symbol × List Bool), s.bitsLen.toNat ≤ 32768 ∧
      s.shapeSeq = treeAB.shape ++ [] ∧ s.leavesSeq = treeAB.leaves ++ [] ∧ s.bitsSeq = joinBits ws ++ w.2 ++ [] ∧
      SpelledBy treeAB (ws ++ [w]) ∧ ws.length = 4096) ∧
    (∃ ws : List (Symbol × List Bool), (withCode shape5 leavesEWK [false, true]).shapeSeq = treeEWK.shape ++ [] ∧
      (withCode shape5 leavesEWK [false, true]).leavesSeq = treeEWK.leaves ++ [] ∧
      (withCode shape5 leavesEWK [false, true]).bitsSeq = joinBits ws ++ [true] ∧ SpelledBy treeEWK ws ∧
      EndsMidPath treeEWK [true] ∧ ws.length ≤ 4096) := by
  refine ⟨?_, ⟨by decide, by decide, by decide, rfl⟩, ?_,
    [(0x45#8, [false])], by decide, by decide, by decide, by unfold SpelledBy; decide, ⟨_, _, rfl⟩, by decide⟩
  · obtain ⟨t, h1, h2⟩ := next_of_nextWith (o := exec (.unflatten false) (withCode [true, false, true] leavesEWK bitsKEKW))
      (p := fun t => decide (t.errCode ≠ .ok)) (by decide +kernel)
    exact ⟨t, h1, by simpa using h2, by decide⟩
  · obtain ⟨h1, h2⟩ := manyA
    exact ⟨withCode treeAB.shape treeAB.leaves (List.replicate 4097 false), List.replicate 4096 (0x41#8, [false]),
      (0x41#8, [false]), by show (BitVec.ofNat 16 (List.replicate 4097 false).length).toNat ≤ 32768; rw [List.length_replicate]; decide,
      by rw [List.append_nil]; exact shapeSeq_withCode (by decide), by rw [List.append_nil]; exact leavesSeq_withCode (by decide),
      by rw [bitsSeq_withCode (by rw [List.length_replicate]; decide)]; exact h1, h2, by rw [List.length_replicate]⟩

theorem wit_DecompressInvertsCompress :
    ∃ t t' : State, exec (.compress false) (withText textAB) = .next t ∧ t'.shapeLen = t.shapeLen ∧
      t'.leavesLen = t.leavesLen ∧ t'.bitsLen = t.bitsLen ∧ t'.mem.shape = t.mem.shape ∧ t'.mem.leaves = t.mem.leaves ∧
      t'.mem.bits = t.mem.bits := by
  obtain ⟨t, h, _⟩ := next_of_nextWith (o := exec (.compress false) (withText textAB)) (p := fun _ => true) (by decide +kernel)
  exact ⟨t, t, h, rfl, rfl, rfl, rfl, rfl, rfl⟩

/-- Both ends of every unmapped range, a wrong size, a misaligned offset, a write while BUSY = 1. -/
theorem wit_BusErrorsChangeNothing :
    (∀ a ∈ [0x0030, 0x0FFC, 0x3040, 0x30FC, 0x3200, 0x3FFC, 0x5400, 0x5FFC, 0x6FF8, 0xFFFC],
      OffsetUnmapped (memRead a).off.toNat) ∧
    ({ memRead 0x0008 with size := 1 } : BusReq).size ≠ 4 ∧ (memRead 0x0001).off.toNat % 4 ≠ 0 ∧
    (askingBusy (memWrite 0x0004 0x1#32) State.reset).busy = true ∧ (memWrite 0x0004 0x1#32).off ≠ 0x0008#16 ∧
    (∀ r : BusReq, HostNext (asking r State.reset) r) ∧ ∀ r : BusReq, HostNext (askingBusy r State.reset) r := by
  refine ⟨?_, by decide, by decide, rfl, by decide, fun r => ⟨rfl, rfl, rfl⟩, fun r => ⟨rfl, rfl, rfl⟩⟩
  intro a ha
  fin_cases ha <;> simp [OffsetUnmapped, memRead]

theorem wit_StatusAndIrqEnAreAlwaysWritable (v : Word) :
    HostNext (asking (memWrite 0x0008 v) State.reset) (memWrite 0x0008 v) ∧
      HostNext (askingBusy (memWrite 0x000C v) State.reset) (memWrite 0x000C v) ∧
      HostNext (askingBusy (memWrite 0x0010 v) State.reset) (memWrite 0x0010 v) ∧
      (askingBusy (memWrite 0x0010 v) State.reset).busy = true ∧ (memWrite 0x0010 v).off ≠ 0x0008#16 ∧
      (memWrite 0x0010 v).off ≠ 0x000C#16 := ⟨⟨rfl, rfl, rfl⟩, ⟨rfl, rfl, rfl⟩, ⟨rfl, rfl, rfl⟩, rfl, by simp [memWrite], by simp [memWrite]⟩

theorem wit_ReadsHaveNoSideEffect :
    HostNext (asking (memRead 0x1000) State.reset) (memRead 0x1000) ∧
      HostNext (askingBusy (memRead 0x0030) State.reset) (memRead 0x0030) ∧ (memRead 0x0030).write = false :=
  ⟨⟨rfl, rfl, rfl⟩, ⟨rfl, rfl, rfl⟩, rfl⟩

theorem wit_StatusAndTreeInfoFields :
    State.reset.treeValid = false ∧ (holding slotEWK State.reset).tree = some slotEWK := ⟨rfl, rfl⟩

theorem wit_ReadsWhileBusy :
    (∀ a ∈ [0x0000, 0x0004, 0x0008, 0x000C, 0x0010, 0x002C, 0x1000, 0x6FF4],
      ¬ OffsetUnmapped (memRead a).off.toNat ∧ (memRead a).size = 4 ∧ (memRead a).off.toNat % 4 = 0 ∧
        HostNext (askingBusy (memRead a) State.reset) (memRead a) ∧
        (askingBusy (memRead a) State.reset).busy = true ∧ (memRead a).write = false) ∧
    OffsetUnmapped (memRead 0x0030).off.toNat := by
  refine ⟨?_, by simp [OffsetUnmapped, memRead]⟩
  intro a ha
  refine ⟨?_, rfl, ?_, ⟨rfl, rfl, rfl⟩, rfl, rfl⟩ <;> fin_cases ha <;> simp [OffsetUnmapped, memRead]

theorem wit_RegistersWhileIdle (r : Reg) (v : Word) :
    HostNext (asking (memRead r.offset) State.reset) (memRead r.offset) ∧
      HostNext (asking (memWrite r.offset v) State.reset) (memWrite r.offset v) ∧
      (asking (memRead r.offset) State.reset).busy = false ∧ (asking (memWrite r.offset v) State.reset).busy = false :=
  ⟨⟨rfl, rfl, rfl⟩, ⟨rfl, rfl, rfl⟩, rfl, rfl⟩

/-- The last word of every window. -/
theorem wit_WindowWrites (v : Word) :
    ∀ a ∈ [0x1000 + 4 * 1023, 0x3100 + 4 * 63, 0x3000 + 4 * 15, 0x4000 + 4 * 1023, 0x2000 + 4 * 1023, 0x5000 + 4 * 255,
        0x6000 + 4 * 1021],
      HostNext (asking (memWrite a v) State.reset) (memWrite a v) ∧ (asking (memWrite a v) State.reset).busy = false :=
  fun _ _ => ⟨⟨rfl, rfl, rfl⟩, rfl⟩

theorem wit_WindowReadAfterWrite (v : Word) :
    ∀ off ∈ [0x1000, 0x1FFC, 0x3000, 0x303C, 0x3100, 0x31FC, 0x4000, 0x4FFC],
      off % 4 = 0 ∧ ∃ s : State, s.rst = false ∧ s.busy = false ∧ s.turns = [] ∧
        s.requests = memWrite off v :: memRead off :: [] := by
  intro off h
  refine ⟨?_, { State.reset with requests := [memWrite off v, memRead off] }, rfl, rfl, rfl, rfl⟩
  fin_cases h <;> rfl

/-- The last word of each window, its last element written; SHAPE element 511. -/
theorem wit_OutWindowReads :
    ∃ s : State, s.busy = false ∧
      (∀ a ∈ [0x1000 + 4 * 1023, 0x2000 + 4 * 1023, 0x3100 + 4 * 63, 0x3000 + 4 * 15, 0x4000 + 4 * 1023],
        HostNext (asking (memRead a) s) (memRead a) ∧ (asking (memRead a) s).busy = false) ∧
      Buf.get s.mem.text (4 * 1023 + 3) = some 1#8 ∧ Buf.get s.mem.out (4 * 1023 + 3) = some 2#8 ∧
      Buf.get s.mem.leaves (4 * 63 + 3) = some 3#8 ∧ Buf.get s.mem.shape (32 * 15 + 30) = some true ∧
      511 ≤ 32 * 15 + 31 ∧ Buf.get s.mem.bits (32 * 1023 + 31) = some true :=
  ⟨{ State.reset with mem := { Memory.unwritten with text := [(4095, 1#8)], out := [(4095, 2#8)], leaves := [(255, 3#8)]
                                                     shape := [(510, true)], bits := [(32767, true)] } },
    rfl, fun _ _ => ⟨⟨rfl, rfl, rfl⟩, rfl⟩, rfl, rfl, rfl, rfl, by decide, rfl⟩

theorem wit_FreqWindowReads :
    ∃ (s : State) (c : Half), s.busy = false ∧ HostNext s (memRead (0x5000 + 4 * 255)) ∧ Buf.get s.mem.freq 255 = some c :=
  ⟨asking (memRead (0x5000 + 4 * 255)) { State.reset with mem := { Memory.unwritten with freq := [(255, 7#16)] } },
    7#16, rfl, ⟨rfl, rfl, rfl⟩, rfl⟩

/-- An entry of a held tree, the first entry that is not allocated, and no tree. -/
theorem wit_NodeWindowReads :
    HostNext (asking (memRead (0x6000 + 8 * 4)) (holding slotEWK State.reset)) (memRead (0x6000 + 8 * 4)) ∧
      slotEWK.nodes[4]? = some (codecLeaf 0x4B#8) ∧ slotEWK.nodeCount ≤ 5 ∧
      HostNext (asking (memRead (0x6000 + 8 * 5)) (holding slotEWK State.reset)) (memRead (0x6000 + 8 * 5)) ∧
      HostNext (asking (memRead (0x6004 + 8 * 510)) State.reset) (memRead (0x6004 + 8 * 510)) ∧
      (asking (memRead (0x6004 + 8 * 510)) State.reset).tree = none :=
  ⟨⟨rfl, rfl, rfl⟩, rfl, by decide, ⟨rfl, rfl, rfl⟩, ⟨rfl, rfl, rfl⟩, rfl⟩

theorem wit_InterruptFollowsDone :
    (∃ t, exec (.clear false) State.reset = .next t) ∧ IllegalCommand 0x0#32 ∧
      (0x2#32 : Word).getLsbD 1 = true ∧ (0x0#32 : Word).getLsbD 0 = false ∧ (0x1#32 : Word).getLsbD 0 = true ∧
      (∀ r : BusReq, HostNext (asking r { State.reset with done := true }) r) ∧
      ∃ t, step (asking (memWrite 0x0008 0x2#32) { State.reset with done := true }) = .next t ∧ t.done = false := by
  refine ⟨⟨_, rfl⟩, by simp [IllegalCommand], by decide, by decide, by decide, fun r => ⟨rfl, rfl, rfl⟩, ?_⟩
  obtain ⟨t, h1, h2⟩ := next_of_nextWith (o := step (asking (memWrite 0x0008 0x2#32) { State.reset with done := true }))
    (p := fun t => !t.done) (by decide +kernel)
  exact ⟨t, h1, by simpa using h2⟩

theorem wit_HostCannotDisturbACommand :
    HostNext (askingBusy (memWrite 0x0004 0x2#32) State.reset) (memWrite 0x0004 0x2#32) ∧
      (askingBusy (memWrite 0x0004 0x2#32) State.reset).busy = true := ⟨⟨rfl, rfl, rfl⟩, rfl⟩

theorem wit_StepKeepsTheInvariant :
    (State.reset.accept 0x1#32).Inv ∧ ∃ t, step (State.reset.accept 0x1#32) = .next t := by
  refine ⟨by decide +kernel, ?_⟩
  obtain ⟨t, h, _⟩ := next_of_nextWith (o := step (State.reset.accept 0x1#32)) (p := fun _ => true) (by decide +kernel)
  exact ⟨t, h⟩

theorem wit_GoodStatesGoOn :
    (State.reset.accept 0x1#32).Inv ∧ (State.reset.accept 0x1#32).rst = false ∧ (State.reset.accept 0x1#32).busy = true ∧
      (State.reset.accept 0x1#32).turns = [] := ⟨by decide +kernel, rfl, rfl, rfl⟩

end Sys2Proof.Tests
end

section
/-! Proofs of the statements of 00_scope.md: tree equality (R20). -/

namespace Sys2Proof.Machine

/-- 00_scope.md R20, "only shape and leaf content": a tree is its two pre-order sequences, so comparing them compares the
trees. -/
theorem TreeEq_iff_shape_leaves (a b : Tree) : TreeEq a b = true ↔ a.shape = b.shape ∧ a.leaves = b.leaves := by
  rw [TreeEq_iff]
  constructor
  · rintro rfl
    exact ⟨rfl, rfl⟩
  · rintro ⟨hshape, hleaves⟩
    exact Tree.ext_of_seqs hshape hleaves

@[simp] theorem TreeEq_self (a : Tree) : TreeEq a a = true := (TreeEq_iff a a).mpr rfl

theorem State.treeValid_eq_false_iff (s : State) : s.treeValid = false ↔ s.tree = none := by
  simp [State.treeValid]

/-- 10_state.md R46: without a held slot there is no tree, the "nullTree" of 00_scope.md R20. -/
theorem State.heldTree_of_tree_eq_none {s : State} (h : s.tree = none) : s.heldTree = none := by
  simp [State.heldTree, h]

end Sys2Proof.Machine

open Sys2Proof.Machine in
/-- Settles O29: equal sequences make equal trees (induction on the trees, in `Tree.ext_of_seqs`), and TREE_VALID = 0 is
an empty slot. -/
theorem treeEqComparesShapeAndLeaves : Obligations.TreeEqComparesShapeAndLeaves :=
  ⟨TreeEq_iff_shape_leaves, TreeEq_self,
    fun s hvalid => State.heldTree_of_tree_eq_none (s.treeValid_eq_false_iff.mp hvalid)⟩
end

section
/-! Proofs of the statements of 10_state.md: what the state holds, what a step does to it, and what every step keeps. -/

namespace Sys2Proof

/-! ### command words and register offsets -/

/-- A command word is its three fields (30_encoding.md R120). -/
theorem fields_append (w : Word) : rsvdField w ++ BitVec.ofBool (strictField w) ++ opField w = w := by
  apply BitVec.eq_of_getLsbD_eq
  intro i hi
  rw [@BitVec.getLsbD_append 24 8, @BitVec.getLsbD_append 23 1]
  by_cases hop : i < 8
  · simp [hop, opField]
  · by_cases hstrict : i - 8 < 1
    · obtain rfl : i = 8 := by omega
      simp [strictField]
    · have hadd : 9 + (i - 8 - 1) = i := by omega
      have hlt : i - 8 - 1 < 23 := by omega
      simp [hop, hstrict, hlt, hadd, rsvdField]

/-- An OP value the table knows is the one of the command it gives (30_encoding.md R121). -/
theorem op_strict_of_opTable {op : BitVec 8} {b : Bool} {i : Instr} (h : opTable op b = some i) :
    i.op = op ∧ i.strict = b := by
  unfold opTable at h
  split at h <;> cases h <;> exact ⟨BitVec.eq_of_toNat_eq (Eq.symm ‹_›), rfl⟩

/-- A word that decodes to a command is that command's one word (30_encoding.md R127). -/
theorem eq_encode_of_decode {w : Word} {i : Instr} (h : decode w = .ok i) : w = encode i := by
  unfold decode at h
  split at h
  next hrsvd =>
    split at h
    next j hj =>
      cases h
      obtain ⟨hop, hstrict⟩ := op_strict_of_opTable hj
      rw [encode, hop, hstrict, ← hrsvd, fields_append]
    next => cases h
  next => cases h

theorem Reg.offset_of_regAt {n : Nat} {r : Reg} (h : regAt n = some r) : r.offset = 4 * n := by
  unfold regAt at h
  split at h <;> cases h <;> rfl

theorem ite_ne_of_ne {α : Type} {c : Prop} [Decidable c] {x y z : α} (hx : x ≠ z) (hy : y ≠ z) :
    (if c then x else y) ≠ z := by
  split <;> assumption

theorem nodeWord_ne_reg (n : Nat) (r : Reg) : nodeWord n ≠ .reg r := by
  unfold nodeWord
  split <;> simp

/-- No register is above the register block (20_memory.md R80): every window's word is another region. -/
theorem regionAt_ne_reg {a : Nat} (h : 0x0030 ≤ a) (r : Reg) : regionAt a ≠ some (.reg r) := by
  rw [regionAt, if_neg (by omega)]
  repeat' apply ite_ne_of_ne
  all_goals simp [nodeWord_ne_reg]

/-- A register's word is at the register's offset only (10_state.md R32). -/
theorem offset_of_regionAt {a : Nat} {r : Reg} (ha : a % 4 = 0) (h : regionAt a = some (.reg r)) : a = r.offset := by
  by_cases hreg : a < 0x0030
  · rw [regionAt, if_pos hreg] at h
    obtain ⟨q, hq, hqr⟩ := Option.map_eq_some_iff.mp h
    cases hqr
    have := Reg.offset_of_regAt hq
    omega
  · exact absurd h (regionAt_ne_reg (by omega) r)

theorem Reg.offset_lt (q : Reg) : q.offset < 48 := by cases q <;> decide

theorem Reg.aligned_offset (q : Reg) : q.offset % 4 = 0 := by cases q <;> rfl

/-- A transaction that addresses a register presents the register's offset. -/
theorem BusReq.off_of_target_reg {r : BusReq} {q : Reg} (h : r.target = .ok (.reg q)) :
    r.off = BitVec.ofNat 16 q.offset := by
  obtain ⟨_, haligned, hregion⟩ := BusReq.target_eq_ok.mp h
  rw [← offset_of_regionAt haligned hregion, BitVec.ofNat_toNat, BitVec.setWidth_eq]

end Sys2Proof

namespace Sys2Proof.Machine

/-! ### what one step can do -/

/-- `s` with the turn of the next move taken. -/
def State.turnTaken (s : State) : State := { s with turns := s.turns.tail }

@[simp] theorem turnTaken_rst (s : State) : s.turnTaken.rst = s.rst := rfl

theorem nextTurn_snd (s : State) : (nextTurn s).2 = s.turnTaken := by
  cases s with
  | mk => unfold nextTurn State.turnTaken; dsimp only; split <;> rfl

theorem step_eq_takeTurn (s : State) : step s = takeTurn (nextTurn s).1 s.turnTaken := by
  rw [step, nextTurn_snd]

/-- What `s` can become in one step. -/
inductive StepsTo (s : State) : State → Prop where
  | idles : StepsTo s s.turnTaken
  | accesses (r : BusReq) (h : HostNext s r) : StepsTo s (s.popped.access r)
  | completes (w : Word) (t : State) (hrst : s.rst = false) (hpending : s.pending = some w)
      (h : runPending w s.turnTaken = .next t) : StepsTo s t
  | assertsReset : StepsTo s s.turnTaken.assertReset
  | releasesReset : StepsTo s s.turnTaken.releaseReset

theorem stepsTo_of_host {s t : State} (hturn : (nextTurn s).1 = .host) (h : step s = .next t) : StepsTo s t := by
  by_cases hnext : ∃ r, HostNext s r
  · obtain ⟨r, hrst, hreq, _⟩ := hnext
    rw [step_host hrst hreq hturn] at h
    cases h
    exact .accesses r ⟨hrst, hreq, hturn⟩
  · have hwaits : hostTurn s.turnTaken = s.turnTaken := by
      unfold hostTurn
      split
      next => rfl
      next hrst =>
        split
        next => rfl
        next r rest hreq =>
          exact absurd ⟨r, by simpa using hrst, List.head?_eq_some_iff.mpr ⟨rest, hreq⟩, hturn⟩ hnext
    rw [step_eq_takeTurn, hturn, takeTurn, hwaits] at h
    cases h
    exact .idles

theorem stepsTo_of_engine {s t : State} (hturn : (nextTurn s).1 = .engine) (h : step s = .next t) : StepsTo s t := by
  rw [step_eq_takeTurn, hturn, takeTurn, engineTurn] at h
  split at h
  next => cases h; exact .idles
  next hrst =>
    split at h
    next => cases h; exact .idles
    next w hw => exact .completes w t (by simpa using hrst) hw h

/-- Everything a step can do. -/
theorem stepsTo_of_step {s t : State} (h : step s = .next t) : StepsTo s t := by
  cases hturn : (nextTurn s).1 with
  | host => exact stepsTo_of_host hturn h
  | engine => exact stepsTo_of_engine hturn h
  | assertReset => rw [step_eq_takeTurn, hturn] at h; cases h; exact .assertsReset
  | releaseReset => rw [step_eq_takeTurn, hturn] at h; cases h; exact .releasesReset
  | idle => rw [step_eq_takeTurn, hturn] at h; cases h; exact .idles

/-! ### the command in flight -/

theorem runPending_of_decode {w : Word} {i : Instr} (h : Sys2Proof.decode w = .ok i) (s : State) :
    runPending w s = exec i s := by
  simp only [runPending, h]

/-- An illegal word completes with ILLEGAL_CMD (30_encoding.md R122, R123). -/
theorem runPending_of_illegal {w : Word} (h : IllegalCommand w) (s : State) :
    runPending w s = .next (s.complete .illegalCmd 0) := by
  obtain ⟨e, he⟩ := (decode_isError w).mpr h
  simp only [runPending, he]

/-- What the command in flight can do: it is a word that is no command, or it is exec of the command the word encodes. -/
theorem runPending_next {w : Word} {s t : State} (h : runPending w s = .next t) :
    t = s.complete .illegalCmd 0 ∨ ∃ i, w = Sys2Proof.encode i ∧ exec i s = .next t := by
  cases hdec : Sys2Proof.decode w with
  | error e =>
    simp only [runPending, hdec] at h
    cases h
    exact .inl rfl
  | ok i => exact .inr ⟨i, eq_encode_of_decode hdec, by rwa [runPending_of_decode hdec] at h⟩

theorem kept_runPending {w : Word} {s t : State} (hs : Kept s) (h : runPending w s = .next t) : Kept t := by
  rcases runPending_next h with rfl | ⟨i, _, hi⟩
  · exact kept_complete hs _ _
  · obtain ⟨u, hu, hkept⟩ := kept_exec i hs
    cases hi.symm.trans hu
    exact hkept

/-- The flags of completion (60_exceptions.md R267), whatever word was in flight. -/
theorem runPending_flags {w : Word} {s t : State} (h : runPending w s = .next t) :
    t.pending = none ∧ t.done = true ∧ t.rst = s.rst := by
  rcases runPending_next h with rfl | ⟨i, _, hi⟩
  · exact ⟨rfl, rfl, rfl⟩
  · obtain ⟨hpending, hdone, _, _, _, hrst, _⟩ := exec_next hi
    exact ⟨hpending, hdone, hrst⟩

theorem step_of_turns_nil {s : State} {w : Word} (hrst : s.rst = false) (hpending : s.pending = some w)
    (hturns : s.turns = []) : step s = runPending w s := by
  simp [step, nextTurn, hturns, defaultTurn, State.busy, hpending, takeTurn, engineTurn, hrst]

theorem step_of_turns_engine {s : State} {w : Word} {rest : List Turn} (hrst : s.rst = false)
    (hpending : s.pending = some w) (hturns : s.turns = .engine :: rest) :
    step s = runPending w { s with turns := rest } := by
  simp [step, nextTurn, hturns, hpending, takeTurn, engineTurn, hrst]

/-! ### the invariant -/

theorem resetOk_of_rst {s : State} (h : s.rst = false) : s.resetOk = true := by simp [State.resetOk, h]

theorem flightOk_of_pending {s : State} (h : s.pending = none) : s.flightOk = true := by simp [State.flightOk, h]

/-- The invariant says nothing of the coming moves. -/
theorem inv_turnTaken {s : State} (h : s.Inv) : s.turnTaken.Inv := h

theorem inv_access {s : State} (hrst : s.rst = false) (h : s.Inv) (r : BusReq) : (s.popped.access r).Inv := by
  obtain ⟨hkept, hflight, _⟩ := h.parts
  have hpopped : Kept s.popped := ⟨hkept.mem, hkept.slot, hkept.outLen⟩
  refine State.inv_of_parts (kept_access hpopped r) (flightOk_access (s := s.popped) hflight r) (resetOk_of_rst ?_)
  rw [(access_ports s.popped r).1]
  exact hrst

theorem inv_runPending {w : Word} {s t : State} (hrst : s.rst = false) (hs : s.Inv) (h : runPending w s = .next t) :
    t.Inv := by
  obtain ⟨hpending, _, ht⟩ := runPending_flags h
  exact State.inv_of_parts (kept_runPending hs.parts.1 h) (flightOk_of_pending hpending)
    (resetOk_of_rst (ht.trans hrst))

theorem inv_reset : State.reset.Inv := State.inv_of_parts kept_reset rfl rfl

theorem core_assertReset (s : State) : s.assertReset.core = State.reset := rfl

theorem inv_assertReset (s : State) : s.assertReset.Inv :=
  State.inv_of_parts ⟨kept_reset.mem, kept_reset.slot, kept_reset.outLen⟩ rfl
    (by simp [State.resetOk, core_assertReset])

theorem inv_releaseReset {s : State} (h : s.Inv) : s.releaseReset.Inv := by
  obtain ⟨hkept, hflight, _⟩ := h.parts
  exact State.inv_of_parts ⟨hkept.mem, hkept.slot, hkept.outLen⟩ hflight (resetOk_of_rst rfl)

/-! ### the tree slot -/

/-- A command whose operation phase keeps or empties the slot does so itself. -/
theorem runCommand_tree {cs : List Check} {op : State → OpEnd} {s t : State}
    (hop : (op s).state.tree = s.tree ∨ (op s).state.tree = none) (h : runCommand cs op s = .next t) :
    t.tree = s.tree ∨ t.tree = none := by
  obtain ⟨c, p, ⟨_, rfl⟩ | ⟨_, rfl, _⟩⟩ := runCommand_next_complete h
  · exact .inl rfl
  · exact hop

/-- Every command keeps the slot or empties it, but for BUILD and UNFLATTEN (10_state.md R47). -/
theorem exec_tree {i : Instr} {s t : State} (h : exec i s = .next t) :
    (t.tree = s.tree ∨ t.tree = none) ∨ ∃ b, i = .build b ∨ i = .unflatten b := by
  cases i with
  | build b => exact .inr ⟨b, .inl rfl⟩
  | unflatten b => exact .inr ⟨b, .inr rfl⟩
  | flatten b => exact .inl (runCommand_tree (.inl (by rw [flattenOp_frame])) h)
  | encode b => exact .inl (runCommand_tree (.inl (by rw [encodeOp_frame])) h)
  | decode b => exact .inl (runCommand_tree (.inl (by rw [decodeOp_frame])) h)
  | compress b => exact .inl (runCommand_tree (.inr (by rw [compressOp_frame])) h)
  | decompress b => exact .inl (runCommand_tree (.inr (by rw [decompressOp_frame])) h)
  | clear b => exact .inl (runCommand_tree (cs := []) (op := clearOp) (.inr rfl) h)

/-- The command that makes a tree is BUILD or UNFLATTEN. -/
theorem runPending_makes_tree {w : Word} {s t : State} (h : runPending w s = .next t) (hs : s.tree = none)
    (ht : t.tree ≠ none) : ∃ b, w = Sys2Proof.encode (.build b) ∨ w = Sys2Proof.encode (.unflatten b) := by
  rcases runPending_next h with rfl | ⟨i, rfl, hi⟩
  · exact absurd hs ht
  · rcases exec_tree hi with (hkept | hnone) | ⟨b, rfl | rfl⟩
    · exact absurd (hkept.trans hs) ht
    · exact absurd hnone ht
    · exact ⟨b, .inl rfl⟩
    · exact ⟨b, .inr rfl⟩

/-! ### DONE and IRQ -/

theorem irq_of_done {s : State} (h : s.done = true) : s.irq = s.doneIe := by simp [State.irq, h]

theorem irq_of_not_done {s : State} (h : s.done = false) : s.irq = false := by simp [State.irq, h]

theorem irq_of_masked {s : State} (h : s.doneIe = false) : s.irq = false := by simp [State.irq, h]

theorem exec_irq {i : Instr} {s t : State} (h : exec i s = .next t) : t.irq = s.doneIe := by
  obtain ⟨_, hdone, hie, _⟩ := exec_next h
  rw [irq_of_done hdone, hie]

/-- A write at a register's offset addresses the register. -/
theorem target_memWrite_offset (q : Reg) (v : Word) : (memWrite q.offset v).target = .ok (.reg q) := by
  have hoff : (memWrite q.offset v).off.toNat = q.offset :=
    Nat.mod_eq_of_lt (q.offset_lt.trans (by decide))
  exact BusReq.target_eq_ok.mpr ⟨rfl, by rw [hoff, q.aligned_offset], by rw [hoff, regionAt_offset]⟩

/-- A write to a register that may be written now is performed and answered OKAY (20_memory.md R89, R93). -/
theorem step_writeReg {s : State} {q : Reg} {v : Word} (h : HostNext s (memWrite q.offset v))
    (hw : s.busy = false ∨ (Region.reg q).writableWhileBusy = true) :
    step s = .next { s.popped.writeReg q v with response := some (.write .okay) } := by
  obtain ⟨hrst, hreq, hturn⟩ := h
  have hperformed : (s.popped.busy && !(Region.reg q).writableWhileBusy) = false := by
    rcases hw with hw | hw
    · rw [show s.popped.busy = s.busy from rfl, hw, Bool.false_and]
    · rw [hw, Bool.not_true, Bool.and_false]
  rw [step_host hrst hreq hturn]
  change Host.Outcome.next (s.popped.access _) = _
  rw [access_ok (target_memWrite_offset q v)]
  simp [State.performWrite, hperformed, memWrite, State.writeWord]

theorem writeReg_status_done {s : State} {v : Word} (h : v.getLsbD 1 = true) : (s.writeReg .status v).done = false := by
  simp [State.writeReg, h]

theorem writeReg_status_keeps {s : State} {v : Word} (h : v.getLsbD 1 = false) : s.writeReg .status v = s := by
  rw [State.writeReg, h, if_neg Bool.false_ne_true]

/-- The writes that lower DONE: a STATUS write with bit 1, and the acceptance of a command. -/
theorem writeWord_lowers_done {s : State} {g : Region} {v : Word} (hs : s.done = true)
    (ht : (s.writeWord g v).done = false) : (g = .reg .status ∧ v.getLsbD 1 = true) ∨ g = .reg .cmd := by
  cases g with
  | reg q =>
    cases q with
    | cmd => exact .inr rfl
    | status =>
      cases hv : v.getLsbD 1 with
      | true => exact .inl ⟨rfl, rfl⟩
      | false =>
        rw [State.writeWord, writeReg_status_keeps hv, hs] at ht
        cases ht
    | _ => exact absurd hs (ne_true_of_eq_false ht)
  | _ => exact absurd hs (ne_true_of_eq_false ht)

/-- The accesses that lower DONE. -/
theorem access_lowers_done {s : State} {r : BusReq} (hs : s.done = true) (ht : (s.access r).done = false) :
    r.write = true ∧ (r.off = 0x0008#16 ∧ r.wdata.getLsbD 1 = true ∨ r.off = 0x0004#16 ∧ s.busy = false) := by
  rcases access_cases s r with e | ⟨g, _, _, e⟩ | ⟨g, _, _, _, _, e⟩ | ⟨g, htarget, hwrite, hperformed, e⟩ <;> rw [e] at ht
  · exact absurd hs (ne_true_of_eq_false ht)
  · exact absurd hs (ne_true_of_eq_false ht)
  · exact absurd hs (ne_true_of_eq_false ht)
  · refine ⟨hwrite, ?_⟩
    rcases writeWord_lowers_done hs ht with ⟨rfl, hbit⟩ | rfl
    · exact .inl ⟨BusReq.off_of_target_reg htarget, hbit⟩
    · exact .inr ⟨BusReq.off_of_target_reg htarget, hperformed.resolve_right (by decide)⟩

/-- How DONE falls in a step (70_reset_and_hazards.md R298). -/
theorem step_lowers_done {s t : State} (h : step s = .next t) (hs : s.done = true) (ht : t.done = false) :
    t.rst = true ∨ ∃ r, HostNext s r ∧ r.write = true ∧
      (r.off = 0x0008#16 ∧ r.wdata.getLsbD 1 = true ∨ r.off = 0x0004#16 ∧ s.busy = false) := by
  cases stepsTo_of_step h with
  | idles | releasesReset => exact absurd hs (ne_true_of_eq_false ht)
  | accesses r hnext => exact .inr ⟨r, hnext, access_lowers_done (s := s.popped) hs ht⟩
  | completes w _ _ _ hrun => exact absurd (runPending_flags hrun).2.1 (ne_true_of_eq_false ht)
  | assertsReset => exact .inl rfl

/-! ### operands and fields -/

/-- A written element of a sequence is read as written. -/
theorem Buf.getElem?_readMany_of_get {α : Type} {b : Buf α} {draw : Nat → α} {n i : Nat} {x : α} (hi : i < n)
    (h : Buf.get b i = some x) : (Buf.readMany b draw 0 n)[i]? = some x := by
  simp [Buf.getElem?_readMany, hi, Buf.read, h]

theorem extractLsb'_eq_of_getLsbD {n start len : Nat} {x : BitVec n} {y : BitVec len}
    (h : ∀ i, i < len → x.getLsbD (start + i) = y.getLsbD i) : x.extractLsb' start len = y := by
  apply BitVec.eq_of_getLsbD_eq
  intro i hi
  simp [hi, h i hi]

theorem getLsbD_statusWord_of_four_le {s : State} {i : Nat} (h : 4 ≤ i) :
    s.statusWord.getLsbD i = if i < 8 then false else s.errCode.bits.getLsbD (i - 8) := by
  rw [getLsbD_statusWord, if_neg (by omega), if_neg (by omega), if_neg (by omega), if_neg (by omega)]

theorem treeInfoWord_of_tree_eq_none {s : State} (h : s.tree = none) : s.treeInfoWord = 0#32 := by
  simp [State.treeInfoWord, h]

/-- The fields of TREE_INFO while a tree is held (10_state.md R44). -/
theorem treeInfoWord_fields {s : State} {slot : TreeSlot} (h : s.tree = some slot) :
    s.treeInfoWord.extractLsb' 0 9 = slot.root ∧ s.treeInfoWord.extractLsb' 9 7 = 0#7 ∧
      (s.treeInfoWord.extractLsb' 16 10).toNat = slot.nodeCount % 1024 ∧ s.treeInfoWord.extractLsb' 26 6 = 0#6 := by
  have hcount : s.treeInfoWord.extractLsb' 16 10 = BitVec.ofNat 10 slot.nodeCount :=
    extractLsb'_eq_of_getLsbD fun i hi => by
      rw [getLsbD_treeInfoWord h, if_neg (by omega), if_neg (by omega), if_pos (by omega), Nat.add_sub_cancel_left]
  refine ⟨extractLsb'_eq_of_getLsbD fun i hi => ?root, extractLsb'_eq_of_getLsbD fun i hi => ?gap,
    by rw [hcount, BitVec.toNat_ofNat], extractLsb'_eq_of_getLsbD fun i hi => ?high⟩
  case root => rw [getLsbD_treeInfoWord h, Nat.zero_add, if_pos hi]
  case gap => rw [getLsbD_treeInfoWord h, if_neg (by omega), if_pos (by omega), BitVec.getLsbD_zero]
  case high =>
    rw [getLsbD_treeInfoWord h, if_neg (by omega), if_neg (by omega), if_neg (by omega), BitVec.getLsbD_zero]

end Sys2Proof.Machine

open Sys2Proof.Machine

/-- Settles O59: by cases on what the step does (`StepsTo`), each of which keeps the parts of the invariant. -/
theorem stepKeepsTheInvariant : Obligations.StepKeepsTheInvariant := by
  intro s t hs h
  cases stepsTo_of_step h with
  | idles => exact inv_turnTaken hs
  | accesses r hnext => exact inv_access hnext.1 hs r
  | completes w _ hrst _ hrun => exact inv_runPending (s := s.turnTaken) hrst (inv_turnTaken hs) hrun
  | assertsReset => exact inv_assertReset _
  | releasesReset => exact inv_releaseReset (inv_turnTaken hs)

/-- Settles O15: no access and no reset makes a tree, and the only commands that do are the two. -/
theorem onlyBuildAndUnflattenMakeATree : Obligations.OnlyBuildAndUnflattenMakeATree := by
  intro s t h hs ht
  rw [State.treeValid_eq_false_iff] at hs
  have ht : t.tree ≠ none := by simpa [State.treeValid, Option.isSome_iff_ne_none] using ht
  cases stepsTo_of_step h with
  | idles | releasesReset => exact absurd hs ht
  | assertsReset => exact absurd rfl ht
  | accesses r _ => exact absurd ((access_ports s.popped r).2.1.trans hs) ht
  | completes w _ _ hpending hrun =>
    obtain ⟨b, hw⟩ := runPending_makes_tree hrun hs ht
    exact ⟨by simp [State.busy, hpending], b, by simpa [hpending] using hw⟩

/-- Settles O57: completion sets DONE (`exec_next`), a register write is `step_writeReg`, and `step_lowers_done` lists
what lowers DONE. -/
theorem interruptFollowsDone : Obligations.InterruptFollowsDone := by
  refine ⟨fun _ => rfl, fun _ _ _ => exec_irq, ?illegal, ?clearing, ?masking, ?accepting, ?enabling,
    fun _ _ => step_lowers_done⟩
  case illegal => exact fun s w hw => ⟨_, runPending_of_illegal hw s, irq_of_done rfl⟩
  case clearing =>
    exact fun s v hnext hv =>
      ⟨_, step_writeReg (q := .status) hnext (.inr rfl), irq_of_not_done (writeReg_status_done hv)⟩
  case masking =>
    exact fun s v hnext hv => ⟨_, step_writeReg (q := .irqEn) hnext (.inr rfl), irq_of_masked hv, rfl⟩
  case accepting =>
    exact fun s v hnext hidle => ⟨_, step_writeReg (q := .cmd) hnext (.inl hidle), irq_of_not_done rfl⟩
  case enabling =>
    exact fun s v hnext hv hdone =>
      ⟨_, step_writeReg (q := .irqEn) hnext (.inr rfl), Eq.trans (irq_of_done hdone) hv⟩

/-- Settles O1: `State.reset` and `Memory.unwritten`, field by field. -/
theorem resetValues : Obligations.ResetValues := by
  unfold Obligations.ResetValues
  exact ⟨rfl, by decide, by decide, by decide, by decide, by decide, by decide, by decide, by decide, by decide, rfl,
    rfl, rfl, rfl, rfl, rfl, rfl, Buf.get_nil, Buf.get_nil, Buf.get_nil, Buf.get_nil, Buf.get_nil, Buf.get_nil⟩

/-- Settles O2: the parts of the invariant after reset. -/
theorem resetMeetsInvariant : Obligations.ResetMeetsInvariant := inv_reset

/-- Settles O7: the engine's move, by default and in its turn, is `runPending`, and that is exec of a word that decodes. -/
theorem stepRunsTheCommandInFlight : Obligations.StepRunsTheCommandInFlight := by
  intro s w i hrst hpending hdec
  constructor
  · intro hturns
    rw [step_of_turns_nil hrst hpending hturns, runPending_of_decode hdec]
  · intro rest hturns
    rw [step_of_turns_engine hrst hpending hturns, runPending_of_decode hdec]

/-- Settles O16: each sequence is `Buf.readMany` of its buffer. -/
theorem operandsAreTheWrittenElements : Obligations.OperandsAreTheWrittenElements := fun s =>
  ⟨length_textSeq s, length_shapeSeq s, length_leavesSeq s, length_bitsSeq s,
    fun _ _ => Buf.getElem?_readMany_of_get, fun _ _ => Buf.getElem?_readMany_of_get,
    fun _ _ => Buf.getElem?_readMany_of_get, fun _ _ => Buf.getElem?_readMany_of_get⟩

/-- Settles O50: from the two words' bits (`getLsbD_statusWord`, `getLsbD_treeInfoWord`). -/
theorem statusAndTreeInfoFields : Obligations.StatusAndTreeInfoFields := by
  intro s
  refine ⟨getLsbD_statusWord s 0, getLsbD_statusWord s 1, getLsbD_statusWord s 2, getLsbD_statusWord s 3,
    extractLsb'_eq_of_getLsbD fun i hi => ?reserved, extractLsb'_eq_of_getLsbD fun i hi => ?errCode,
    extractLsb'_eq_of_getLsbD fun i hi => ?high,
    fun hvalid => treeInfoWord_of_tree_eq_none (s.treeValid_eq_false_iff.mp hvalid), ?tree⟩
  case reserved => rw [getLsbD_statusWord_of_four_le (by omega), if_pos (by omega), BitVec.getLsbD_zero]
  case errCode => rw [getLsbD_statusWord_of_four_le (by omega), if_neg (by omega), Nat.add_sub_cancel_left]
  case high =>
    rw [getLsbD_statusWord_of_four_le (by omega), if_neg (by omega), BitVec.getLsbD_of_ge _ _ (by omega),
      BitVec.getLsbD_zero]
  case tree => exact fun slot => treeInfoWord_fields
end

section
/-! Proofs of the statements of 20_memory.md: what the host reads and writes through the window, and that nothing it does
disturbs a command. -/

namespace Sys2Proof

/-! ### offsets and words -/

theorem regionAt_lt {a : Nat} {g : Region} (h : regionAt a = some g) : a < 0x6FF8 := by
  by_contra hge
  have hnone : regionAt a = none := (regionAt_eq_none a).mpr (by omega)
  exact absurd (hnone.symm.trans h) (by simp)

/-- A one-word transaction at an aligned mapped offset addresses the region there. -/
theorem BusReq.target_of_off {r : BusReq} {a : Nat} {g : Region} (hsize : r.size = 4) (hoff : r.off = BitVec.ofNat 16 a)
    (halign : a % 4 = 0) (hg : regionAt a = some g) : r.target = .ok g := by
  have hlt := regionAt_lt hg
  have ha : r.off.toNat = a := by rw [hoff, BitVec.toNat_ofNat]; omega
  exact BusReq.target_eq_ok.mpr ⟨hsize, by rw [ha, halign], by rw [ha, hg]⟩

/-- A transaction that presents a register's offset addresses the register. -/
theorem BusReq.target_reg_of_off {r : BusReq} {g : Region} {q : Reg} (h : r.target = .ok g)
    (hoff : r.off = BitVec.ofNat 16 q.offset) : g = .reg q := by
  have hq := BusReq.target_of_off (BusReq.target_eq_ok.mp h).1 hoff q.aligned_offset (regionAt_offset q)
  exact Except.ok.inj (h.symm.trans hq)

theorem nodeWord_even (i : Nat) : nodeWord (2 * i) = .nodeA i := by
  rw [nodeWord, if_pos (by omega), Nat.mul_div_cancel_left i (by omega)]

theorem nodeWord_odd (i : Nat) : nodeWord (2 * i + 1) = .nodeB i := by
  rw [nodeWord, if_neg (by omega), show (2 * i + 1) / 2 = i by omega]

theorem regionAt_nodeA {i : Nat} (h : i < 511) : regionAt (0x6000 + 8 * i) = some (.nodeA i) := by
  rw [show 0x6000 + 8 * i = 0x6000 + 4 * (2 * i) by omega, regionAt_node (by omega), nodeWord_even]

theorem regionAt_nodeB {i : Nat} (h : i < 511) : regionAt (0x6004 + 8 * i) = some (.nodeB i) := by
  rw [show 0x6004 + 8 * i = 0x6000 + 4 * (2 * i + 1) by omega, regionAt_node (by omega), nodeWord_odd]

end Sys2Proof

namespace Sys2Proof.Machine

/-! ### a host move -/

@[simp] theorem popped_busy (s : State) : s.popped.busy = s.busy := rfl

theorem step_of_hostNext {s : State} {r : BusReq} (h : HostNext s r) : step s = .next (s.popped.access r) := by
  obtain ⟨hrst, hreq, hturn⟩ := h
  exact step_host hrst hreq hturn

/-- An access that R82 to R84 refuse. -/
theorem step_target_error {s : State} {r : BusReq} (h : HostNext s r)
    (hbad : OffsetUnmapped r.off.toNat ∨ r.size ≠ 4 ∨ r.off.toNat % 4 ≠ 0) :
    step s = .next (s.popped.respondError r) := by
  obtain ⟨e, he⟩ : ∃ e, r.target = .error e := by
    refine BusReq.target_isError.mpr ?_
    rcases hbad with hunmapped | hsize | halign
    · exact .inr (.inr ((regionAt_eq_none _).mpr hunmapped))
    · exact .inl hsize
    · exact .inr (.inl halign)
  rw [step_of_hostNext h, access_error he]

/-! ### reads -/

/-- A read of a mapped word answers OKAY with what the word reads, and changes nothing else (20_memory.md R92). -/
theorem answersRead_of_target {s : State} {r : BusReq} {g : Region} {p : Word → Prop} (h : HostNext s r)
    (hread : r.write = false) (ht : r.target = .ok g) (hp : p (s.readWord g)) : AnswersRead s p := by
  refine ⟨s.popped.performRead g, s.readWord g, ?_, rfl, hp⟩
  rw [step_of_hostNext h, access_ok ht, hread, if_neg Bool.false_ne_true]

theorem answersRead_memRead {s : State} {a : Nat} {g : Region} {p : Word → Prop} (h : HostNext s (memRead a))
    (hidle : s.busy = false) (halign : a % 4 = 0) (hg : regionAt a = some g) (hp : p (s.readIdle g)) :
    AnswersRead s p :=
  answersRead_of_target h rfl (BusReq.target_of_off rfl rfl halign hg) (by rwa [readWord_idle hidle])

/-- What an answered read shows on the response port. -/
theorem AnswersRead.response {s : State} {p : Word → Prop} (h : AnswersRead s p) :
    ∃ t d, step s = .next t ∧ t.response = some (.read d .okay) ∧ p d := by
  obtain ⟨t, d, hstep, ht, hp⟩ := h
  exact ⟨t, d, hstep, by rw [ht], hp⟩

theorem readWord_readable {s : State} {g : Region} (h : g.readableWhileBusy = true) : s.readWord g = s.readIdle g := by
  simp [State.readWord, h]

/-- A register that R94 lists reads its current value in every state. -/
theorem readWord_of_off {s : State} {r : BusReq} {g : Region} {q : Reg} (ht : r.target = .ok g)
    (hq : q.readableWhileBusy = true) (hoff : r.off = BitVec.ofNat 16 q.offset) : s.readWord g = s.readReg q := by
  rw [BusReq.target_reg_of_off ht hoff]
  exact readWord_readable hq

theorem halfWord_fields (v : Half) : (halfWord v).extractLsb' 0 16 = v ∧ (halfWord v).extractLsb' 16 16 = 0#16 := by
  rw [halfWord_eq]
  constructor
  · exact extractLsb'_eq_of_getLsbD fun i hi => by simp [hi]; omega
  · exact extractLsb'_eq_of_getLsbD fun i hi => by simp

theorem irqEnWord_fields (s : State) :
    s.irqEnWord.getLsbD 0 = s.doneIe ∧ s.irqEnWord.extractLsb' 1 31 = 0#31 := by
  refine ⟨getLsbD_irqEnWord s 0, extractLsb'_eq_of_getLsbD fun i hi => ?_⟩
  rw [getLsbD_irqEnWord, decide_eq_false (by omega), Bool.false_and, BitVec.getLsbD_zero]

theorem Buf.read_of_get {α : Type} {b : Buf α} {draw : Nat → α} {i : Nat} {x : α} (h : Buf.get b i = some x) :
    Buf.read b draw i = x := by simp [Buf.read, h]

theorem showsSymbols_symbolWindowWord (b : Buf Symbol) (draw : Nat → Symbol) (k : Nat) :
    ShowsSymbols b k (symbolWindowWord b draw k) := fun j x hj hx => by
  rw [extractLsb'_symbolWindowWord b draw k j hj, Buf.read_of_get hx]

theorem showsBits_bitWindowWord (cap : Nat) (b : Buf Bool) (draw : Nat → Bool) (k : Nat) :
    ShowsBits cap b k (bitWindowWord cap b draw k) := fun j hj => by
  rw [getLsbD_bitWindowWord cap b draw k j hj]
  constructor
  · intro x hcap hx
    rw [decide_eq_true hcap, Bool.true_and, Buf.read_of_get hx]
  · intro hcap
    rw [decide_eq_false (by omega), Bool.false_and]

/-! ### the NODE window -/

theorem nodeWindowWord_of_get {s : State} {slot : TreeSlot} {nd : Node} {i : Nat} (word : Node → Word)
    (hs : s.tree = some slot) (hnd : slot.nodes[i]? = some nd) : s.nodeWindowWord word i = word nd := by
  simp only [State.nodeWindowWord, hs, hnd]

theorem nodeWindowWord_of_no_tree {s : State} (word : Node → Word) (i : Nat) (hs : s.tree = none) :
    s.nodeWindowWord word i = 0#32 := by
  simp only [State.nodeWindowWord, hs]

theorem nodeWindowWord_of_nodeCount_le {s : State} {slot : TreeSlot} {i : Nat} (word : Node → Word)
    (hs : s.tree = some slot) (hi : slot.nodeCount ≤ i) : s.nodeWindowWord word i = 0#32 := by
  simp only [State.nodeWindowWord, hs, List.getElem?_eq_none hi]

/-- The fields of word A (20_memory.md R88). -/
theorem wordA_fields (nd : Node) :
    nd.wordA.extractLsb' 0 9 = (if nd.leaf then 0#9 else nd.zero) ∧
      nd.wordA.extractLsb' 9 9 = (if nd.leaf then 0#9 else nd.one) ∧
      nd.wordA.extractLsb' 18 8 = (if nd.leaf then nd.sym else 0#8) ∧ nd.wordA.extractLsb' 26 4 = 0#4 ∧
      nd.wordA.getLsbD 30 = nd.leaf ∧ nd.wordA.getLsbD 31 = true := by
  refine ⟨extractLsb'_eq_of_getLsbD fun i hi => ?zero, extractLsb'_eq_of_getLsbD fun i hi => ?one,
    extractLsb'_eq_of_getLsbD fun i hi => ?sym, extractLsb'_eq_of_getLsbD fun i hi => ?gap,
    getLsbD_wordA nd 30 (by omega), getLsbD_wordA nd 31 (by omega)⟩
  case zero =>
    rw [getLsbD_wordA nd _ (by omega), Nat.zero_add, if_pos hi]
    cases nd.leaf <;> simp
  case one =>
    rw [getLsbD_wordA nd _ (by omega), if_neg (by omega), if_pos (by omega), Nat.add_sub_cancel_left]
    cases nd.leaf <;> simp
  case sym =>
    rw [getLsbD_wordA nd _ (by omega), if_neg (by omega), if_neg (by omega), if_pos (by omega), Nat.add_sub_cancel_left]
    cases nd.leaf <;> simp
  case gap =>
    rw [getLsbD_wordA nd _ (by omega), if_neg (by omega), if_neg (by omega), if_neg (by omega), if_pos (by omega),
      BitVec.getLsbD_zero]

/-! ### writes -/

/-- A write of a mapped word while BUSY = 0 is performed and answered OKAY. -/
theorem step_memWrite_idle {s : State} {a : Nat} {v : Word} {g : Region} (h : HostNext s (memWrite a v))
    (hidle : s.busy = false) (halign : a % 4 = 0) (hg : regionAt a = some g) :
    step s = .next { s.popped.writeWord g v with response := some (.write .okay) } := by
  rw [step_of_hostNext h, access_ok (BusReq.target_of_off rfl rfl halign hg)]
  exact congrArg Host.Outcome.next (performWrite_idle (s := s.popped) hidle)

/-- A STATUS write clears DONE by a 1 in bit 1, and does nothing else (10_state.md R36). -/
theorem writeReg_status (s : State) (v : Word) :
    s.writeReg .status v = { s with done := if v.getLsbD 1 then false else s.done } := by
  simp only [State.writeReg]
  split <;> rfl

/-- A STATUS write is performed in every state (20_memory.md R93). -/
theorem step_writeStatus {s : State} {v : Word} (h : HostNext s (memWrite Reg.status.offset v)) :
    step s = .next
      { s.popped with done := if v.getLsbD 1 then false else s.done, response := some (.write .okay) } := by
  rw [step_writeReg h (.inr rfl), writeReg_status]
  rfl

/-- While BUSY = 1 every write but to STATUS and IRQ_EN is answered ERROR and changes nothing (20_memory.md R93). -/
theorem step_write_refused {s : State} {r : BusReq} (h : HostNext s r) (hbusy : s.busy = true) (hwrite : r.write = true)
    (hstatus : r.off ≠ 0x0008#16) (hirqEn : r.off ≠ 0x000C#16) :
    step s = .next { s.popped with response := some (.write .error) } := by
  rw [step_of_hostNext h]
  rcases access_cases s.popped r with e | ⟨g, _, hread, _⟩ | ⟨g, _, _, _, _, e⟩ | ⟨g, htarget, _, hperformed, _⟩
  · rw [e, State.respondError, hwrite, if_pos rfl]
  · exact absurd hwrite (ne_true_of_eq_false hread)
  · rw [e]
  · have hg := hperformed.resolve_left (by simp [hbusy])
    rcases Region.writableWhileBusy_iff.mp hg with rfl | rfl
    · exact absurd (BusReq.off_of_target_reg htarget) hstatus
    · exact absurd (BusReq.off_of_target_reg htarget) hirqEn

/-- No write but to CMD puts a command in flight. -/
theorem writeWord_busy {s : State} {g : Region} {v : Word} (hg : g ≠ .reg .cmd) : (s.writeWord g v).busy = s.busy := by
  cases g with
  | reg q =>
    cases q with
    | cmd => exact absurd rfl hg
    | status => rw [State.writeWord, writeReg_status]; rfl
    | _ => rfl
  | _ => rfl

/-- The elements a symbol window write sets (20_memory.md R85, R90). -/
theorem Buf.get_setMany_wordSymbols {cap k : Nat} (b : Buf Symbol) (v : Word) (h : 4 * k + 4 ≤ cap) (i : Nat) :
    Buf.get (Buf.setMany cap b (4 * k) (wordSymbols v)) i =
      if 4 * k ≤ i ∧ i < 4 * k + 4 then some (v.extractLsb' (8 * (i - 4 * k)) 8) else Buf.get b i := by
  rw [Buf.get_setMany, show (wordSymbols v).length = 4 from rfl]
  by_cases hi : 4 * k ≤ i ∧ i < 4 * k + 4
  · rw [if_pos (by omega), if_pos hi, getElem?_wordSymbols v _ (by omega)]
  · rw [if_neg (by omega), if_neg hi]

/-- The elements a bit window write sets (20_memory.md R86, R90). -/
theorem Buf.get_setMany_wordBits (cap k : Nat) (b : Buf Bool) (v : Word) (i : Nat) :
    Buf.get (Buf.setMany cap b (32 * k) (wordBits v)) i =
      if 32 * k ≤ i ∧ i < 32 * k + 32 ∧ i < cap then some (v.getLsbD (i - 32 * k)) else Buf.get b i := by
  rw [Buf.get_setMany, length_wordBits]
  by_cases hi : 32 * k ≤ i ∧ i < 32 * k + 32 ∧ i < cap
  · rw [if_pos hi, if_pos hi, getElem?_wordBits v _ (by omega)]
  · rw [if_neg hi, if_neg hi]

/-- The bits of a bit window write that is wholly within the capacity. -/
theorem Buf.get_setMany_wordBits_of_le {cap k : Nat} (b : Buf Bool) (v : Word) (h : 32 * k + 32 ≤ cap) (i : Nat) :
    Buf.get (Buf.setMany cap b (32 * k) (wordBits v)) i =
      if 32 * k ≤ i ∧ i < 32 * k + 32 then some (v.getLsbD (i - 32 * k)) else Buf.get b i := by
  rw [Buf.get_setMany_wordBits]
  exact if_congr (by omega) rfl rfl

/-! ### a read after a write -/

/-- By default the host moves while no command is in flight. -/
theorem hostNext_of_turns_nil {s : State} {r : BusReq} {rest : List BusReq} (hrst : s.rst = false)
    (hidle : s.busy = false) (hturns : s.turns = []) (hreq : s.requests = r :: rest) : HostNext s r :=
  ⟨hrst, by rw [hreq, List.head?_cons], by simp [nextTurn, hturns, defaultTurn, hidle]⟩

/-- A performed write of a word other than CMD leaves the next transaction to the host, with BUSY = 0. -/
theorem hostNext_after_write {s : State} {g : Region} {v : Word} {q r : BusReq} {rest : List BusReq}
    (hrst : s.rst = false) (hidle : s.busy = false) (hturns : s.turns = []) (hcmd : g ≠ .reg .cmd)
    (hreq : s.requests = q :: r :: rest) :
    HostNext { s.popped.writeWord g v with response := some (.write .okay) } r ∧
      ({ s.popped.writeWord g v with response := some (.write .okay) } : State).busy = false := by
  obtain ⟨prst, _, preq, pturns⟩ := writeWord_ports s.popped g v
  have hbusy : (s.popped.writeWord g v).busy = false := (writeWord_busy hcmd).trans hidle
  refine ⟨hostNext_of_turns_nil (rest := rest) (prst.trans hrst) hbusy (pturns.trans ?_) (preq.trans ?_), hbusy⟩
  · rw [State.popped, hturns, List.tail_nil]
  · rw [State.popped, hreq, List.tail_cons]

/-- The host's two moves, a write and then a read of one mapped word other than CMD. -/
theorem step_step_write_read {s : State} {off : Nat} {v : Word} {rest : List BusReq} {g : Region} (hrst : s.rst = false)
    (hidle : s.busy = false) (hturns : s.turns = []) (halign : off % 4 = 0) (hg : regionAt off = some g)
    (hcmd : g ≠ .reg .cmd) (hreq : s.requests = memWrite off v :: memRead off :: rest) :
    ∃ t u, step s = .next t ∧ step t = .next u ∧
      u.response = some (.read ((s.popped.writeWord g v).readIdle g) .okay) := by
  have hwrite := step_memWrite_idle (hostNext_of_turns_nil hrst hidle hturns hreq) hidle halign hg
  obtain ⟨hnext, hstill⟩ := hostNext_after_write (v := v) hrst hidle hturns hcmd hreq
  obtain ⟨u, _, hread, hresponse, rfl⟩ :=
    (answersRead_memRead (p := (· = (s.popped.writeWord g v).readIdle g)) hnext hstill halign hg rfl).response
  exact ⟨_, u, hwrite, hread, hresponse⟩

/-- A bit window's word that is wholly storage reads back as written. -/
theorem bitWindowWord_set {cap k : Nat} (b : Buf Bool) (draw : Nat → Bool) (v : Word) (h : 32 * k + 32 ≤ cap) :
    bitWindowWord cap (Buf.setMany cap b (32 * k) (wordBits v)) draw k = v := by
  apply BitVec.eq_of_getLsbD_eq
  intro j hj
  rw [getLsbD_bitWindowWord_set cap b draw k v j hj, decide_eq_true (by omega), Bool.true_and]

theorem getLsbD_mask31 : ∀ j, j < 32 → (0x7FFFFFFF#32).getLsbD j = decide (j < 31) := by decide

/-- The last word of SHAPE reads back as written but for bit 511, which is not storage (20_memory.md R86). -/
theorem bitWindowWord_set_last_shape {k : Nat} (b : Buf Bool) (draw : Nat → Bool) (v : Word) (h : k = 15) :
    bitWindowWord 511 (Buf.setMany 511 b (32 * k) (wordBits v)) draw k = v &&& 0x7FFFFFFF#32 := by
  apply BitVec.eq_of_getLsbD_eq
  intro j hj
  rw [getLsbD_bitWindowWord_set 511 b draw k v j hj, BitVec.getLsbD_and, getLsbD_mask31 j hj, Bool.and_comm,
    show decide (32 * k + j < 511) = decide (j < 31) from decide_eq_decide.mpr (by omega)]

theorem readIdle_writeWord_text (s : State) (v : Word) {k : Nat} (h : k < 1024) :
    (s.writeWord (.text k) v).readIdle (.text k) = v :=
  symbolWindowWord_set 4096 s.mem.text _ k v (by omega)

theorem readIdle_writeWord_leaves (s : State) (v : Word) {k : Nat} (h : k < 64) :
    (s.writeWord (.leaves k) v).readIdle (.leaves k) = v :=
  symbolWindowWord_set 256 s.mem.leaves _ k v (by omega)

theorem readIdle_writeWord_bits (s : State) (v : Word) {k : Nat} (h : k < 1024) :
    (s.writeWord (.bits k) v).readIdle (.bits k) = v :=
  bitWindowWord_set (cap := 32768) s.mem.bits _ v (by omega)

theorem readIdle_writeWord_shape (s : State) (v : Word) {k : Nat} (h : k < 15) :
    (s.writeWord (.shape k) v).readIdle (.shape k) = v :=
  bitWindowWord_set (cap := 511) s.mem.shape _ v (by omega)

theorem readIdle_writeWord_last_shape (s : State) (v : Word) {k : Nat} (h : k = 15) :
    (s.writeWord (.shape k) v).readIdle (.shape k) = v &&& 0x7FFFFFFF#32 :=
  bitWindowWord_set_last_shape s.mem.shape _ v h

/-! ### every good state goes on -/

/-- From a good state the command in flight completes, whatever word it is. -/
theorem runPending_goesOn {s : State} (h : Kept s) (w : Word) : ∃ t, runPending w s = .next t := by
  cases hdec : Sys2Proof.decode w with
  | error e => exact ⟨s.complete .illegalCmd 0, by simp only [runPending, hdec]⟩
  | ok i =>
    obtain ⟨t, ht, _⟩ := kept_exec i h
    exact ⟨t, by rw [runPending_of_decode hdec, ht]⟩

theorem engineTurn_goesOn {s : State} (h : Kept s) : ∃ t, engineTurn s = .next t := by
  unfold engineTurn
  split
  · exact ⟨_, rfl⟩
  · split
    · exact ⟨_, rfl⟩
    · exact runPending_goesOn h _

theorem goesOn_of_inv {s : State} (h : s.Inv) : goesOn s := by
  unfold goesOn
  rw [step_eq_takeTurn]
  cases (nextTurn s).1 with
  | engine => exact engineTurn_goesOn (inv_turnTaken h).parts.1
  | _ => exact ⟨_, rfl⟩

/-- An engine move, in its turn or by default, runs the command in flight. -/
theorem step_runs_pending {s : State} {w : Word} (hrst : s.rst = false) (hpending : s.pending = some w)
    (hturn : s.turns = [] ∨ s.turns.head? = some .engine) : ∃ u, step s = runPending w u := by
  rcases hturn with hnil | hhead
  · exact ⟨s, step_of_turns_nil hrst hpending hnil⟩
  · obtain ⟨rest, hrest⟩ := List.head?_eq_some_iff.mp hhead
    exact ⟨_, step_of_turns_engine hrst hpending hrest⟩

end Sys2Proof.Machine

open Sys2Proof Sys2Proof.Machine

/-- Settles O47: the two registers' writes are `step_writeReg` in every state, the others are `step_write_refused`. -/
theorem statusAndIrqEnAreAlwaysWritable : Obligations.StatusAndIrqEnAreAlwaysWritable := by
  exact ⟨fun s v h => step_writeStatus h, fun s v h => step_writeReg (q := .irqEn) h (.inr rfl),
    fun s r => step_write_refused⟩

/-- Settles O48: a mapped word is answered OKAY, and the five registers of R94 read as while idle. -/
theorem readsWhileBusy : Obligations.ReadsWhileBusy := by
  intro s r h _ hread
  constructor
  · intro hmapped hsize halign
    obtain ⟨g, hg⟩ := Option.ne_none_iff_exists'.mp (mt (regionAt_eq_none _).mp hmapped)
    have ht : r.target = .ok g := BusReq.target_eq_ok.mpr ⟨hsize, halign, hg⟩
    exact answersRead_of_target h hread ht ⟨readWord_of_off (q := .id) ht rfl, readWord_of_off (q := .cmd) ht rfl,
      readWord_of_off (q := .status) ht rfl, readWord_of_off (q := .irqEn) ht rfl, readWord_of_off (q := .lastCmd) ht rfl⟩
  · intro hbad
    rw [step_target_error h hbad, State.respondError, hread, if_neg Bool.false_ne_true]

/-- Settles O49: a read is answered ERROR or performed (`access_cases`), and neither changes more than the response. -/
theorem readsHaveNoSideEffect : Obligations.ReadsHaveNoSideEffect := by
  intro s r h hread
  rcases access_cases s.popped r with e | ⟨g, _, _, e⟩ | ⟨_, _, hwrite, _⟩ | ⟨_, _, hwrite, _⟩
  · refine ⟨_, 0#32, .error, step_of_hostNext h, ?_⟩
    rw [e, State.respondError, hread, if_neg Bool.false_ne_true]
  · refine ⟨_, s.readWord g, .okay, step_of_hostNext h, ?_⟩
    rw [e]
    rfl
  · exact absurd hwrite (ne_true_of_eq_false hread)
  · exact absurd hwrite (ne_true_of_eq_false hread)

/-- Settles O51: register by register, from `answersRead_memRead`, `step_writeReg` and `step_writeStatus`. -/
theorem registersWhileIdle : Obligations.RegistersWhileIdle := by
  constructor
  · intro s r h hidle
    refine answersRead_memRead h hidle r.aligned_offset (regionAt_offset r) ?_
    cases r with
    | irqEn => exact irqEnWord_fields s
    | textLen | shapeLen | leavesLen | bitsLen | outLen | errPos => exact halfWord_fields _
    | id | cmd | status | treeInfo | lastCmd => rfl
  · intro s r v h hidle
    cases r with
    | status => exact ⟨_, step_writeStatus h, rfl⟩
    | _ => exact ⟨_, step_writeReg h (.inl hidle), rfl⟩

/-- Settles O52: each window word's write is `step_memWrite_idle`, and the elements it sets are `Buf.setMany`'s. -/
theorem windowWrites : Obligations.WindowWrites := by
  intro s k v hidle
  refine ⟨fun hk h => ⟨_, step_memWrite_idle h hidle (by omega) (regionAt_text hk), rfl, ?text⟩,
    fun hk h => ⟨_, step_memWrite_idle h hidle (by omega) (regionAt_leaves hk), rfl, ?leaves⟩,
    fun hk h => ⟨_, step_memWrite_idle h hidle (by omega) (regionAt_shape hk), rfl, ?shape⟩,
    fun hk h => ⟨_, step_memWrite_idle h hidle (by omega) (regionAt_bits hk), rfl, ?bits⟩,
    fun hk h => step_memWrite_idle h hidle (by omega) (regionAt_out hk),
    fun hk h => step_memWrite_idle h hidle (by omega) (regionAt_freq hk), fun hk h => ?node⟩
  case text => exact Buf.get_setMany_wordSymbols (cap := 4096) s.mem.text v (by omega)
  case leaves => exact Buf.get_setMany_wordSymbols (cap := 256) s.mem.leaves v (by omega)
  case shape => exact Buf.get_setMany_wordBits Config.SHAPE_MAX k s.mem.shape v
  case bits => exact Buf.get_setMany_wordBits_of_le (cap := 32768) s.mem.bits v (by omega)
  case node =>
    rw [step_memWrite_idle h hidle (by omega) (regionAt_node hk), nodeWord]
    split <;> rfl

/-- Settles O53: the two moves are `step_step_write_read`, and each window's word reads back as written. -/
theorem windowReadAfterWrite : Obligations.WindowReadAfterWrite := by
  intro s off v rest hrst hidle hturns halign hwindow hreq
  suffices hback : ∃ g, regionAt off = some g ∧ g ≠ .reg .cmd ∧
      (s.popped.writeWord g v).readIdle g = if off = 0x303C then v &&& 0x7FFFFFFF#32 else v by
    obtain ⟨g, hg, hcmd, hword⟩ := hback
    rw [← hword]
    exact step_step_write_read hrst hidle hturns halign hg hcmd hreq
  rcases hwindow with htext | hshape | hleaves | hbits
  · obtain ⟨k, rfl⟩ : ∃ k, off = 0x1000 + 4 * k := ⟨(off - 0x1000) / 4, by omega⟩
    rw [if_neg (by omega)]
    exact ⟨.text k, regionAt_text (by omega), by simp, readIdle_writeWord_text _ v (by omega)⟩
  · obtain ⟨k, rfl⟩ : ∃ k, off = 0x3000 + 4 * k := ⟨(off - 0x3000) / 4, by omega⟩
    refine ⟨.shape k, regionAt_shape (by omega), by simp, ?_⟩
    by_cases hlast : k = 15
    · rw [if_pos (by omega), readIdle_writeWord_last_shape _ v hlast]
    · rw [if_neg (by omega), readIdle_writeWord_shape _ v (by omega)]
  · obtain ⟨k, rfl⟩ : ∃ k, off = 0x3100 + 4 * k := ⟨(off - 0x3100) / 4, by omega⟩
    rw [if_neg (by omega)]
    exact ⟨.leaves k, regionAt_leaves (by omega), by simp, readIdle_writeWord_leaves _ v (by omega)⟩
  · obtain ⟨k, rfl⟩ : ∃ k, off = 0x4000 + 4 * k := ⟨(off - 0x4000) / 4, by omega⟩
    rw [if_neg (by omega)]
    exact ⟨.bits k, regionAt_bits (by omega), by simp, readIdle_writeWord_bits _ v (by omega)⟩

/-- Settles O54: each window's word shows the elements it holds (`showsSymbols_symbolWindowWord`,
`showsBits_bitWindowWord`). -/
theorem outWindowReads : Obligations.OutWindowReads := by
  intro s k hidle
  exact ⟨
    fun hk h => answersRead_memRead h hidle (by omega) (regionAt_text hk) (showsSymbols_symbolWindowWord _ _ k),
    fun hk h => answersRead_memRead h hidle (by omega) (regionAt_out hk) (showsSymbols_symbolWindowWord _ _ k),
    fun hk h => answersRead_memRead h hidle (by omega) (regionAt_leaves hk) (showsSymbols_symbolWindowWord _ _ k),
    fun hk h => answersRead_memRead h hidle (by omega) (regionAt_shape hk) (showsBits_bitWindowWord _ _ _ k),
    fun hk h => answersRead_memRead h hidle (by omega) (regionAt_bits hk) (showsBits_bitWindowWord _ _ _ k)⟩

/-- Settles O55: the word is `halfWord` of the count. -/
theorem freqWindowReads : Obligations.FreqWindowReads := by
  intro s x hidle hx h
  refine (answersRead_memRead h hidle (by omega) (regionAt_freq hx) ⟨fun c hc => ?_, (halfWord_fields _).2⟩).response
  rw [State.readIdle, Buf.read_of_get hc, halfWord_eq]

/-- Settles O56: words A and B are `nodeWindowWord`, whose three cases are the three clauses. -/
theorem nodeWindowReads : Obligations.NodeWindowReads := by
  intro s i hidle hi
  refine ⟨fun h => (answersRead_memRead h hidle (by omega) (regionAt_nodeA hi) ⟨fun slot nd hs hnd => ?wordA,
      nodeWindowWord_of_no_tree _ i, fun slot => nodeWindowWord_of_nodeCount_le _⟩).response,
    fun h => (answersRead_memRead h hidle (by omega) (regionAt_nodeB hi) ⟨fun slot nd hs hnd => ?wordB,
      nodeWindowWord_of_no_tree _ i, fun slot => nodeWindowWord_of_nodeCount_le _⟩).response⟩
  case wordA =>
    rw [State.readIdle, nodeWindowWord_of_get _ hs hnd]
    exact wordA_fields nd
  case wordB => rw [State.readIdle, nodeWindowWord_of_get _ hs hnd, Node.wordB, halfWord_eq]

/-- Settles O58: the only accesses that do more than answer are the writes of STATUS and IRQ_EN (`access_cases`). -/
theorem hostCannotDisturbACommand : Obligations.HostCannotDisturbACommand := by
  intro s r h hbusy
  refine ⟨_, step_of_hostNext h, ?_⟩
  rcases access_cases s.popped r with e | ⟨g, _, _, e⟩ | ⟨g, _, _, _, _, e⟩ | ⟨g, _, _, hperformed, e⟩ <;> rw [e]
  · rfl
  · rfl
  · have hg := hperformed.resolve_left (by simp [hbusy])
    rcases Region.writableWhileBusy_iff.mp hg with rfl | rfl
    · rw [State.writeWord, writeReg_status]
    · rfl

/-- Settles O60: no turn stops in a good state (`goesOn_of_inv`), and an engine move ends in a completion. -/
theorem goodStatesGoOn : Obligations.GoodStatesGoOn := by
  intro s hinv
  obtain ⟨t, ht⟩ := goesOn_of_inv hinv
  refine ⟨t, ht, fun hrst hbusy hturn => ?_⟩
  obtain ⟨w, hw⟩ := Option.isSome_iff_exists.mp hbusy
  obtain ⟨u, hu⟩ := step_runs_pending hrst hw hturn
  obtain ⟨hpending, hdone, _⟩ := runPending_flags (hu.symm.trans ht)
  exact ⟨by simp [State.busy, hpending], hdone⟩
end

section
/-! Proofs of the statements of 30_encoding.md: the decoder and its encoder, the illegal words, what each command may
write, and what STRICT changes. -/

namespace Sys2Proof

/-! ### the decoder -/

/-- The fields of every command's word (30_encoding.md R120, R124). -/
theorem encode_fields (i : Instr) : Laws.Encoding.Statement i := by
  cases i with
  | build b => exact Laws.Encoding.build b
  | flatten b => exact Laws.Encoding.flatten b
  | unflatten b => exact Laws.Encoding.unflatten b
  | encode b => exact Laws.Encoding.encode b
  | decode b => exact Laws.Encoding.decode b
  | compress b => exact Laws.Encoding.compress b
  | decompress b => exact Laws.Encoding.decompress b
  | clear b => exact Laws.Encoding.clear b

/-- The table gives back the command of its OP and STRICT (30_encoding.md R121). -/
theorem opTable_op_strict (i : Instr) : opTable i.op i.strict = some i := by
  cases i <;> rfl

@[simp] theorem decode_encode (i : Instr) : decode (encode i) = .ok i := by
  obtain ⟨_, hrsvd, hop, hstrict, _⟩ := encode_fields i
  simp only [decode, hrsvd, hop, hstrict, opTable_op_strict, if_true]

/-- A reserved bit is looked at first (30_encoding.md R122, R127). -/
theorem decode_eq_reservedBits_iff (w : Word) : decode w = .error .reservedBits ↔ 512 ≤ w.toNat := by
  rw [← Nat.not_lt, ← rsvdField_eq_zero, decode]
  split
  next hzero => split <;> simp [hzero]
  next hset => simp [hset]

/-- A reserved OP is refused where no reserved bit is set (30_encoding.md R123, R127). -/
theorem decode_eq_reservedOp_iff (w : Word) :
    decode w = .error .reservedOp ↔ w.toNat < 512 ∧ (w.toNat % 256 = 0 ∨ 9 ≤ w.toNat % 256) := by
  rw [← rsvdField_eq_zero, ← opTable_eq_none w (strictField w), decode]
  split
  next hzero => split <;> next hop => simp [hzero, hop]
  next hset => simp [hset]

end Sys2Proof

namespace Sys2Proof.Machine

/-! ### a command waiting in flight -/

theorem step_of_turns_idle {s : State} {rest : List Turn} (hturns : s.turns = .idle :: rest) :
    step s = .next { s with turns := rest } := by
  simp only [step, nextTurn, hturns, takeTurn]

/-- A host move with nothing presented does nothing. -/
theorem step_of_turns_host_nil {s : State} {rest : List Turn} (hturns : s.turns = .host :: rest)
    (hreq : s.requests = []) : step s = .next { s with turns := rest } := by
  simp [step, nextTurn, hturns, takeTurn, hostTurn, hreq]

theorem hostNext_of_turns_host {s : State} {r : BusReq} {reqs : List BusReq} {rest : List Turn} (hrst : s.rst = false)
    (hturns : s.turns = .host :: rest) (hreq : s.requests = r :: reqs) : HostNext s r :=
  ⟨hrst, by rw [hreq, List.head?_cons], by simp only [nextTurn, hturns]⟩

/-- A host move leaves the command in flight as it is (20_memory.md R93, R99), and takes its turn. -/
theorem step_host_keeps_command {s : State} {rest : List Turn} (hrst : s.rst = false) (hbusy : s.busy = true)
    (hturns : s.turns = .host :: rest) :
    ∃ t, step s = .next t ∧
      t = { s with done := t.done, doneIe := t.doneIe, requests := t.requests, response := t.response, turns := rest
                   draws := t.draws } := by
  cases hreq : s.requests with
  | nil => exact ⟨_, step_of_turns_host_nil hturns hreq, rfl⟩
  | cons r reqs =>
    obtain ⟨t, hstep, ht⟩ := hostCannotDisturbACommand s r (hostNext_of_turns_host hrst hturns hreq) hbusy
    have hrest : s.popped.turns = rest := by rw [State.popped, hturns, List.tail_cons]
    refine ⟨t, hstep, ?_⟩
    rw [ht, ← hrest]
    rfl

/-! ### what a command may write -/

/-- A command completes the state it started in, or the one its operation phase left. -/
theorem runCommand_completes {cs : List Check} {op : State → OpEnd} {s t : State} (h : runCommand cs op s = .next t) :
    ∃ c p, t = s.complete c p ∨ t = (op s).state.complete c p := by
  obtain ⟨c, p, ⟨_, ht⟩ | ⟨_, ht, _⟩⟩ := runCommand_next_complete h
  · exact ⟨c, p, .inl ht⟩
  · exact ⟨c, p, .inr ht⟩

/-! ### STRICT -/

/-- The strict phase ends as the permissive one does, unless it raises one of the codes `codes`. -/
def OpEnd.AgreesUnless (codes : List ErrCode) (strict permissive : OpEnd) : Prop :=
  strict = permissive ∨ ∃ c ∈ codes, ∃ p, strict.stop = some (.raised c p)

/-- A command whose strict phase raises none of the codes is its permissive one. -/
theorem OpEnd.AgreesUnless.runCommand {codes : List ErrCode} {cs : List Check} {strict permissive : State → OpEnd}
    {s t : State} (hagree : (strict s).AgreesUnless codes (permissive s)) (h : runCommand cs strict s = .next t)
    (hcode : t.errCode ∉ codes) : runCommand cs permissive s = .next t := by
  obtain ⟨c, p, ⟨hcheck, rfl⟩ | ⟨hpass, rfl, hstop⟩⟩ := runCommand_next_complete h
  · exact runCommand_fail hcheck
  · rcases hagree with heq | ⟨c', hc', p', hraised⟩
    · rw [runCommand_pass hpass, ← heq, ← runCommand_pass hpass, h]
    · rcases hstop with hstop | ⟨hstop, _⟩
      · cases hraised.symm.trans hstop
        exact absurd hc' hcode
      · cases hraised.symm.trans hstop

/-- The trailing-data check is all that STRICT adds to the build (41_tree_codec.md R189). -/
theorem unflattenSeqs_permissive (shape : List Bool) (leaves : List Symbol) :
    unflattenSeqs true shape leaves = unflattenSeqs false shape leaves ∨
      ∃ p, unflattenSeqs true shape leaves = .error (.raised .trailingData p) := by
  unfold unflattenSeqs
  split
  next => exact .inl rfl
  next r _ =>
    cases hused : r.rest.shape.isEmpty && r.rest.leaves.isEmpty
    · exact .inr ⟨r.rest.sp, rfl⟩
    · exact .inl rfl

theorem unflattenOp_agreesUnless (s : State) :
    (unflattenOp true s).AgreesUnless [.trailingData] (unflattenOp false s) := by
  rcases unflattenSeqs_permissive s.shapeSeq s.leavesSeq with heq | ⟨p, hraised⟩
  · exact .inl (by rw [unflattenOp, heq, unflattenOp])
  · exact .inr ⟨_, List.mem_singleton_self _, p, by rw [unflattenOp, hraised]⟩

theorem decodeOp_agreesUnless (s : State) : (decodeOp true s).AgreesUnless [.partialCode] (decodeOp false s) := by
  cases hs : s.tree with
  | none => exact .inl (by simp only [decodeOp, hs])
  | some slot =>
    rw [decodeOp_eq true hs, decodeOp_eq false hs]
    rcases decodeFrom_permissive slot.nodes slot.root.toNat s.bitsSeq 0 slot.root.toNat 0 0 with heq | ⟨p, hraised⟩
    · exact .inl (by rw [TreeSlot.decodeBits, heq, TreeSlot.decodeBits])
    · exact .inr ⟨_, List.mem_singleton_self _, p, by rw [TreeSlot.decodeBits, hraised]⟩

/-- The two stages of DECOMPRESS have one check each that STRICT adds (43_top_level.md R244, R245). -/
theorem decompressOp_agreesUnless (s : State) :
    (decompressOp true s).AgreesUnless [.trailingData, .partialCode] (decompressOp false s) := by
  rcases unflattenOp_agreesUnless s with heq | ⟨c, hc, p, hraised⟩
  · cases hstop : (unflattenOp true s).stop with
    | some st => exact .inl (by rw [decompressOp_stop true hstop, heq, decompressOp_stop false (heq ▸ hstop)])
    | none =>
      rw [decompressOp, decompressOp, ← heq, andThen_ok hstop, andThen_ok hstop]
      rcases decodeOp_agreesUnless (unflattenOp true s).state with hdec | ⟨c, hc, p, hraised⟩
      · exact .inl (by rw [hdec])
      · exact .inr ⟨c, List.mem_cons_of_mem _ hc, p, hraised⟩
  · obtain rfl := List.mem_singleton.mp hc
    rw [decompressOp_stop true hraised]
    exact .inr ⟨_, List.mem_cons_self, p, hraised⟩

end Sys2Proof.Machine

open Sys2Proof Sys2Proof.Machine

/-- Settles O4: `decode_encode`, and `eq_encode_of_decode` for the converse. -/
theorem decodeAndEncodeAgree : Obligations.DecodeAndEncodeAgree :=
  ⟨fun i _ => decode_encode i, fun _ _ => eq_encode_of_decode⟩

/-- Settles O5: the decoder's two tests, in its order. -/
theorem decoderRefusesTheReservedWords : Obligations.DecoderRefusesTheReservedWords := fun w =>
  ⟨decode_eq_reservedBits_iff w, decode_eq_reservedOp_iff w⟩

/-- Settles O10: acceptance is the write of CMD (`step_writeReg`), a host or idle move leaves PENDING alone, and the
engine completes a word that is no command (`runPending_of_illegal`). -/
theorem illegalWordCompletes : Obligations.IllegalWordCompletes := by
  intro w hillegal
  refine ⟨?accepted, ?waits, ?completes⟩
  case accepted =>
    intro s hnext hidle
    exact ⟨_, step_writeReg (q := .cmd) hnext (.inl hidle), rfl, rfl⟩
  case waits =>
    rintro s m rest hrst hpending hturns (rfl | rfl)
    · exact step_host_keeps_command hrst (by rw [State.busy, hpending, Option.isSome_some]) hturns
    · exact ⟨_, step_of_turns_idle hturns, rfl⟩
  case completes =>
    intro s rest hrst hpending hturns
    exact ⟨_, by rw [step_of_turns_engine hrst hpending hturns, runPending_of_illegal hillegal], rfl⟩

/-- Settles O12: a command completes the state it started in or the one its operation phase left, whose frame is the
command's `…Op_frame`. -/
theorem commandFrames : Obligations.CommandFrames := by
  refine ⟨fun b s t h => ?build, fun b s t h => ?flatten, fun b s t h => ?unflatten, fun b s t h => ?encode,
    fun b s t h => ?decode, fun b s t h => ?compress, fun b s t h => ?decompress, fun b s t h => ?clear⟩
  case build =>
    obtain ⟨c, p, rfl | rfl⟩ := runCommand_completes h
    · rfl
    · rw [buildOp_frame]
      rfl
  case flatten =>
    obtain ⟨c, p, rfl | rfl⟩ := runCommand_completes h
    · rfl
    · rw [flattenOp_frame]
      rfl
  case unflatten =>
    obtain ⟨c, p, rfl | rfl⟩ := runCommand_completes h
    · rfl
    · rw [unflattenOp_frame]
      rfl
  case encode =>
    obtain ⟨c, p, rfl | rfl⟩ := runCommand_completes h
    · rfl
    · rw [encodeOp_frame]
      rfl
  case decode =>
    obtain ⟨c, p, rfl | rfl⟩ := runCommand_completes h
    · rfl
    · rw [decodeOp_frame]
      rfl
  case compress =>
    obtain ⟨c, p, rfl | rfl⟩ := runCommand_completes h
    · rfl
    · rw [compressOp_frame]
      rfl
  case decompress =>
    obtain ⟨c, p, rfl | rfl⟩ := runCommand_completes h
    · rfl
    · rw [decompressOp_frame]
      rfl
  case clear =>
    cases h
    rfl

/-- Settles O13: five commands ignore STRICT, and the phases of the other three agree but for the two checks
(`OpEnd.AgreesUnless`). -/
theorem strictMattersOnlyToTheTwoChecks : Obligations.StrictMattersOnlyToTheTwoChecks :=
  ⟨fun _ => rfl, fun _ => rfl, fun _ => rfl, fun _ => rfl, fun _ => rfl,
    fun s _ h hcode => (unflattenOp_agreesUnless s).runCommand h (by simpa using hcode),
    fun s _ h hcode => (decodeOp_agreesUnless s).runCommand h (by simpa using hcode),
    fun s _ h htrailing hpartial => (decompressOp_agreesUnless s).runCommand h (by simp [htrailing, hpartial])⟩

/-- Settles O6: each word is the encoding of its command, and so decodes to it. -/
theorem commandWords : Obligations.CommandWords := by
  intro x hx
  suffices hrow : x.1 = Sys2Proof.encode x.2.1 ∧ mnemonic x.2.1 = x.2.2 by
    obtain ⟨hword, hspelling⟩ := hrow
    exact ⟨by rw [hword, decode_encode], hspelling⟩
  revert x
  decide
end

section
/-! Proofs of the statements of 40_tree_builder.md: what BUILD counts, which texts it rejects, the tree it makes and the
order it makes it in. -/

namespace Sys2Proof.Machine

/-! ### how BUILD completes -/

/-- The state in which BUILD has released the slot and counted its text (40_tree_builder.md R150, R151). -/
def State.counted (s : State) : State :=
  { s.release with mem := { s.mem with freq := Buf.ofList 0 (allSymbols.map (frequency s.textSeq)) } }

theorem holdsCounts_counted (s : State) : HoldsCounts s.counted.mem.freq s.textSeq := fun x =>
  ⟨frequency s.textSeq x, get_counts x, frequency_toNat (length_textSeq_lt s) x⟩

/-- BUILD of fewer than two distinct symbols stops after counting (R152). -/
theorem exec_build_small {s : State} (b : Bool) (hlen : s.textLen.toNat ≤ 4096) (hL : s.alphabet < 2) :
    exec (.build b) s = .next (s.counted.complete .alphabet s.alphabet) := by
  rw [exec_build b hlen, buildOp_small hL, finish_raised]
  rfl

/-- BUILD of at least two distinct symbols commits the tree (R159). -/
theorem exec_build_large {s : State} (b : Bool) (hlen : s.textLen.toNat ≤ 4096) (hL : 2 ≤ s.alphabet) :
    exec (.build b) s =
      .next (State.complete { s.counted with tree := some (huffmanSlot s.textSeq) } .ok 0) := by
  rw [exec_build b hlen, buildOp_large hL, finish_ok]
  rfl

/-- The slot that a BUILD of at least two distinct symbols leaves. -/
theorem slot_of_exec_build {b : Bool} {s t : State} {slot : TreeSlot} (hlen : s.textLen.toNat ≤ 4096)
    (hL : 2 ≤ s.alphabet) (hexec : exec (.build b) s = .next t) (hslot : t.tree = some slot) :
    slot = huffmanSlot s.textSeq := by
  rw [exec_build_large b hlen hL] at hexec
  cases hexec
  exact (Option.some.inj hslot).symm

/-! ### the arena: the leaves, then the merges -/

theorem length_presentSymbols_textSeq (s : State) : (presentSymbols s.textSeq).length = s.alphabet :=
  length_presentSymbols (length_textSeq_lt s)

/-- Entries 0 .. L - 1 are the leaves of the symbols present, in ascending order (R150, R153). -/
theorem take_huffmanSlot_nodes (s : State) :
    (huffmanSlot s.textSeq).nodes.take s.alphabet = (presentSymbols s.textSeq).map (leafNode s.textSeq) := by
  obtain ⟨⟨made, hnodes⟩, _⟩ := huffmanSlot_merges (length_textSeq_lt s)
  rw [hnodes, List.take_left' (by rw [List.length_map, length_presentSymbols_textSeq])]

/-- Every entry from L on was made by a merge that followed R155 and R156. -/
theorem mergedWell_huffmanSlot (s : State) {n : Nat} (hn : s.alphabet ≤ n)
    (hlt : n < (huffmanSlot s.textSeq).nodes.length) : MergedWell s.alphabet (huffmanSlot s.textSeq).nodes n := by
  obtain ⟨_, hmerged⟩ := huffmanSlot_merges (length_textSeq_lt s)
  rw [length_presentSymbols_textSeq] at hmerged
  exact hmerged n hn hlt

theorem internal_of_mem_drop_huffmanSlot (s : State) {nd : Node}
    (hnd : nd ∈ (huffmanSlot s.textSeq).nodes.drop s.alphabet) : nd.leaf = false ∧ nd.sym = 0#8 := by
  obtain ⟨k, hk⟩ := List.mem_iff_getElem?.mp hnd
  rw [List.getElem?_drop] at hk
  have hlt := (List.getElem?_eq_some_iff.mp hk).1
  obtain ⟨nd', hget, hleaf, hsym, _⟩ := mergedWell_huffmanSlot s (Nat.le_add_right _ _) hlt
  cases hk.symm.trans hget
  exact ⟨hleaf, hsym⟩

/-! ### the tree -/

/-- A tree with L leaves has depth at most L - 1 (R160). -/
theorem Tree.depth_lt_length_leaves (t : Tree) : t.depth < t.leaves.length := by
  have hdepth := t.depth_le
  have hnodes := t.shape_length
  omega

/-- `huffmanSlot_tree` for the text of a state, with L as its alphabet. -/
theorem huffmanSlot_tree_of_alphabet {s : State} (hL : 2 ≤ s.alphabet) :
    ∃ tr, (huffmanSlot s.textSeq).wf = true ∧ (huffmanSlot s.textSeq).abstract = some tr ∧
      (huffmanSlot s.textSeq).nodeCount = 2 * s.alphabet - 1 ∧
      (huffmanSlot s.textSeq).root.toNat = 2 * s.alphabet - 2 ∧ tr.leaves.Nodup ∧
      (∀ x, x ∈ tr.leaves ↔ x ∈ s.textSeq) ∧ tr.isNode = true ∧ tr.leaves.length = s.alphabet ∧ s.alphabet ≤ 256 := by
  obtain ⟨tr, hwf, htr, hcount, hroot, hnodup, hmem, hnode, hleaves, hmax, _⟩ :=
    huffmanSlot_tree (length_textSeq_lt s) hL
  exact ⟨tr, hwf, htr, hcount, hroot, hnodup, hmem, hnode, hleaves, hmax⟩

/-! ### texts with equal counts -/

theorem alphabet_congr {s s' : State} (hcount : ∀ x, s.textSeq.count x = s'.textSeq.count x) :
    s.alphabet = s'.alphabet := by
  rw [← length_presentSymbols_textSeq s, ← length_presentSymbols_textSeq s', (huffmanSlot_congr hcount).2]

end Sys2Proof.Machine

open Sys2Proof Sys2Proof.Machine

/-- Settles O17: both ways BUILD completes keep the counts (`holdsCounts_counted`). -/
theorem buildCountsTheText : Obligations.BuildCountsTheText := by
  intro b s hlen
  rcases Nat.lt_or_ge s.alphabet 2 with hL | hL
  · exact ⟨_, exec_build_small b hlen hL, holdsCounts_counted s⟩
  · exact ⟨_, exec_build_large b hlen hL, holdsCounts_counted s⟩

/-- Settles O18: the completion of `exec_build_small`. -/
theorem buildRejectsASmallAlphabet : Obligations.BuildRejectsASmallAlphabet := fun b s hlen hL =>
  ⟨_, exec_build_small b hlen hL, holdsCounts_counted s, rfl, rfl⟩

/-- Settles O19: the completion of `exec_build_large` with the tree of `huffmanSlot_tree_of_alphabet`; its inner nodes
and its depth follow from its number of leaves. -/
theorem buildMakesATree : Obligations.BuildMakesATree := by
  intro b s hlen hL
  obtain ⟨tr, hwf, htr, hcount, hroot, hnodup, hmem, hnode, hleaves, hmax⟩ := huffmanSlot_tree_of_alphabet hL
  have hinner := tr.shape_count_true
  have hdepth := tr.depth_lt_length_leaves
  exact ⟨_, huffmanSlot s.textSeq, tr, exec_build_large b hlen hL, rfl, hroot, hcount, hwf, htr, hmem, hnodup, hleaves,
    by omega, hnode, by omega, by omega, holdsCounts_counted s, rfl⟩

/-- Settles O20: the arena starts with the leaves (`take_huffmanSlot_nodes`), and what follows was made by merges. -/
theorem buildAllocatesTheLeavesFirst : Obligations.BuildAllocatesTheLeavesFirst := by
  intro b s t slot hlen hL hexec hslot
  cases slot_of_exec_build hlen hL hexec hslot
  rw [take_huffmanSlot_nodes]
  refine ⟨?ascending, ?leaves, fun nd => internal_of_mem_drop_huffmanSlot s⟩
  case ascending => exact List.pairwise_map.mpr (sorted_presentSymbols s.textSeq)
  case leaves =>
    intro nd hnd
    obtain ⟨x, hx, rfl⟩ := List.mem_map.mp hnd
    exact ⟨rfl, (mem_presentSymbols (length_textSeq_lt s) x).mp hx, rfl, rfl, frequency_toNat (length_textSeq_lt s) x⟩

/-- Settles O21: every entry from L on is `MergedWell`, whose `queuedAt` and `comesFirst` are the statement's `LiveAt` and
`Beats` by definition. -/
theorem buildMergesTheTwoLeast : Obligations.BuildMergesTheTwoLeast := by
  intro b s t slot n hlen hL hexec hslot hn hlt
  cases slot_of_exec_build hlen hL hexec hslot
  obtain ⟨nd, hget, hleaf, _, hmerge⟩ := mergedWell_huffmanSlot s hn hlt
  exact ⟨nd, hget, hleaf, hmerge⟩

/-- Settles O22: equal counts give equal alphabets, so both runs complete the same way, and with the same slot
(`huffmanSlot_congr`). -/
theorem buildDependsOnTheCountsOnly : Obligations.BuildDependsOnTheCountsOnly := by
  intro b b' s s' t t' hlen hlen' hcount hexec hexec'
  have halphabet := alphabet_congr hcount
  rcases Nat.lt_or_ge s.alphabet 2 with hL | hL
  · rw [exec_build_small b hlen hL] at hexec
    rw [exec_build_small b' hlen' (halphabet ▸ hL), ← halphabet] at hexec'
    cases hexec
    cases hexec'
    exact ⟨rfl, rfl, rfl⟩
  · rw [exec_build_large b hlen hL] at hexec
    rw [exec_build_large b' hlen' (halphabet ▸ hL), ← (huffmanSlot_congr hcount).1] at hexec'
    cases hexec
    cases hexec'
    exact ⟨rfl, rfl, rfl⟩
end

section
/-! Proofs of the statements of 41_tree_codec.md: how FLATTEN and UNFLATTEN complete, the arena UNFLATTEN allocates, and
that the two commands invert each other. -/

namespace Sys2Proof.Machine

/-! ### how FLATTEN completes -/

/-- The state in which FLATTEN has written the two sequences of the tree `tr` (41_tree_codec.md R182). -/
def State.flattened (s : State) (tr : Tree) : State :=
  { s with mem := { s.mem with shape := Buf.overwrite s.mem.shape tr.shape
                               leaves := Buf.overwrite s.mem.leaves tr.leaves }
           shapeLen := BitVec.ofNat 16 tr.shape.length
           leavesLen := BitVec.ofNat 16 tr.leaves.length }

theorem wrote_overwrite {α : Type} (b : Buf α) (xs : List α) : Wrote b (Buf.overwrite b xs) xs := Buf.get_overwrite b xs

/-- The sizes of a held tree (R191). -/
theorem Holds.sizes {s : State} {tr : Tree} (h : Holds s tr) : tr.shape.length ≤ 511 ∧ tr.leaves.length ≤ 256 := by
  obtain ⟨slot, _, hwf, htr⟩ := h
  obtain ⟨_, hshape, hleaves, _⟩ := TreeSlot.sizes hwf htr
  exact ⟨hshape, hleaves⟩

theorem exec_flatten_of_holds {s : State} {tr : Tree} (b : Bool) (h : Holds s tr) :
    exec (.flatten b) s = .next ((s.flattened tr).complete .ok 0) := by
  obtain ⟨slot, hslot, _, htr⟩ := h
  rw [exec_flatten b hslot, flattenOp_of_tree hslot htr, finish_ok]
  rfl

section
variable {tr : Tree} (s : State)

theorem flattened_shapeLen_toNat (h : tr.shape.length ≤ 511) : (s.flattened tr).shapeLen.toNat = tr.shape.length :=
  (BitVec.toNat_ofNat _ _).trans (Nat.mod_eq_of_lt (by omega))

theorem flattened_leavesLen_toNat (h : tr.leaves.length ≤ 256) : (s.flattened tr).leavesLen.toNat = tr.leaves.length :=
  (BitVec.toNat_ofNat _ _).trans (Nat.mod_eq_of_lt (by omega))

/-- The next command reads the shape FLATTEN wrote, whatever the draws. -/
theorem shapeSeq_flattened (c : ErrCode) (p : Nat) (h : tr.shape.length ≤ 511) :
    ((s.flattened tr).complete c p).shapeSeq = tr.shape :=
  Buf.readMany_overwrite s.mem.shape tr.shape _ _ rfl (by omega)

/-- The next command reads the leaf symbols FLATTEN wrote. -/
theorem leavesSeq_flattened (c : ErrCode) (p : Nat) (h : tr.leaves.length ≤ 256) :
    ((s.flattened tr).complete c p).leavesSeq = tr.leaves :=
  Buf.readMany_overwrite s.mem.leaves tr.leaves _ _ rfl (by omega)

end

/-! ### the slot UNFLATTEN makes -/

/-- The slot UNFLATTEN makes of a tree's two sequences (R190). -/
def Tree.unflattened (t : Tree) : TreeSlot := { root := 0#9, nodes := t.arena 0 }

theorem Tree.nodeCount_unflattened (t : Tree) : t.unflattened.nodeCount = t.shape.length := t.length_arena 0

/-- The state in which UNFLATTEN has committed the tree `tr`. -/
def State.unflattened (s : State) (tr : Tree) : State := { s with tree := some tr.unflattened }

theorem holds_unflattened (s : State) {tr : Tree} (c : ErrCode) (p : Nat) (h : tr.shape.length ≤ 511) :
    Holds ((s.unflattened tr).complete c p) tr :=
  ⟨tr.unflattened, rfl, tr.unflattened_wf h, tr.unflattened_abstract h⟩

/-- The pre-order allocation (R190), `Tree.arena_children` at the root: the tree of the zero-child fits in the slot, so
the fuel of `treeAt` suffices. -/
theorem Tree.children_unflattened {t : Tree} (h : t.shape.length ≤ 511) {i : Nat} {nd : Node}
    (hget : t.unflattened.nodes[i]? = some nd) (hleaf : nd.leaf = false) :
    nd.zero.toNat = i + 1 ∧
      ∃ z, treeAt t.unflattened.nodes 511 (i + 1) = some z ∧ nd.one.toNat = i + 1 + z.shape.length := by
  obtain ⟨hzero, z, hz, ⟨v, hv⟩, hone⟩ := t.arena_children [] [] (by simpa using h) i nd hget hleaf
  simp only [List.length_nil, List.nil_append, List.append_nil, Nat.zero_add] at hzero hv hone
  have hdepth := z.depth_le
  exact ⟨hzero, z, hv.treeAt 511 (by omega), hone⟩

/-! ### how UNFLATTEN completes -/

/-- No tree's shape is a beginning of the bits. -/
def NoTreeBegins (shape : List Bool) : Prop := ∀ (t : Tree) (r : List Bool), shape ≠ t.shape ++ r

/-- A shape begins with at most one tree's, so with one number of leaves. -/
theorem Tree.length_leaves_eq_of_shape {t u : Tree} {a b : List Bool} (h : t.shape ++ a = u.shape ++ b) :
    t.leaves.length = u.leaves.length := by
  rw [← t.shape_count_false, ← u.shape_count_false, (Tree.shape_append_inj h).1]

section
variable {s : State} (hshape : s.shapeLen.toNat ≤ 511) (hleaves : s.leavesLen.toNat ≤ 256)

/-- A tree whose shape stands in SHAPE is no larger than SHAPE. -/
theorem length_shape_le {tr : Tree} {rs : List Bool} (hs : s.shapeSeq = tr.shape ++ rs) :
    tr.shape.length ≤ s.shapeLen.toNat := by
  have hlen := congrArg List.length hs
  rw [length_shapeSeq, List.length_append] at hlen
  omega

theorem length_leaves_le {tr : Tree} {rl : List Symbol} (hl : s.leavesSeq = tr.leaves ++ rl) :
    tr.leaves.length ≤ s.leavesLen.toNat := by
  have hlen := congrArg List.length hl
  rw [length_leavesSeq, List.length_append] at hlen
  omega

include hshape hleaves

/-- UNFLATTEN of a tree's sequences, in the strict mode with nothing left over (R185). -/
theorem exec_unflatten_of_tree {strict : Bool} {tr : Tree} {rs : List Bool} {rl : List Symbol}
    (hs : s.shapeSeq = tr.shape ++ rs) (hl : s.leavesSeq = tr.leaves ++ rl)
    (hrest : strict = true → rs = [] ∧ rl = []) :
    exec (.unflatten strict) s = .next ((s.unflattened tr).complete .ok 0) := by
  have hnot : ¬(strict = true ∧ ¬(rs = [] ∧ rl = [])) := fun ⟨hstrict, hleft⟩ => hleft (hrest hstrict)
  rw [exec_unflatten strict hshape hleaves, unflattenOp_of_tree strict hs hl, if_neg hnot, finish_ok]
  rfl

/-- UNFLATTEN.S with input left over (R189). -/
theorem exec_unflatten_trailing {tr : Tree} {rs : List Bool} {rl : List Symbol}
    (hs : s.shapeSeq = tr.shape ++ rs) (hl : s.leavesSeq = tr.leaves ++ rl) (hleft : ¬(rs = [] ∧ rl = [])) :
    exec (.unflatten true) s = .next (s.release.complete .trailingData tr.shape.length) := by
  rw [exec_unflatten true hshape hleaves, unflattenOp_of_tree true hs hl, if_pos ⟨rfl, hleft⟩, finish_raised]

/-- UNFLATTEN out of shape bits (R187): of the ways it can end, the others need a tree's shape or more leaf symbols. -/
theorem exec_unflatten_shapeUnderrun (strict : Bool) (hno : NoTreeBegins s.shapeSeq)
    (hcount : s.shapeSeq.count false ≤ s.leavesSeq.length) :
    exec (.unflatten strict) s = .next (s.release.complete .shapeUnderrun s.shapeSeq.length) := by
  rcases unflattenOp_cases strict s with ⟨u, _, _, hu, _⟩ | ⟨hop, _⟩ | ⟨_, ⟨u, _, hu, _⟩ | ⟨_, hlt⟩⟩
  · exact absurd hu (hno u _)
  · rw [exec_unflatten strict hshape hleaves, hop, finish_raised]
  · exact absurd hu (hno u _)
  · omega

/-- UNFLATTEN out of leaf symbols (R188), with or without a tree's shape at the beginning of SHAPE. -/
theorem exec_unflatten_leavesUnderrun (strict : Bool)
    (hshort : (∃ (tr : Tree) (r : List Bool), s.shapeSeq = tr.shape ++ r ∧ s.leavesSeq.length < tr.leaves.length) ∨
      (NoTreeBegins s.shapeSeq ∧ s.leavesSeq.length < s.shapeSeq.count false)) :
    exec (.unflatten strict) s = .next (s.release.complete .leavesUnderrun s.leavesSeq.length) := by
  rcases unflattenOp_cases strict s with ⟨u, _, _, hu, hl⟩ | ⟨_, hno, hcount⟩ | ⟨hop, _⟩
  · rcases hshort with ⟨tr, r, hs, hlt⟩ | ⟨hno, _⟩
    · have hsame := Tree.length_leaves_eq_of_shape (hs.symm.trans hu)
      have henough := length_leaves_le hl
      rw [length_leavesSeq] at hlt
      omega
    · exact absurd hu (hno u _)
  · rcases hshort with ⟨tr, r, hs, _⟩ | ⟨_, hlt⟩
    · exact absurd hs (hno tr r)
    · omega
  · rw [exec_unflatten strict hshape hleaves, hop, finish_raised]

end

/-! ### what a successful UNFLATTEN consumed -/

theorem mem_of_firstFailure {cs : List Check} {e : ErrCode × Nat} (h : firstFailure cs = some e) : some e ∈ cs := by
  induction cs with
  | nil => cases h
  | cons c cs ih =>
    cases c with
    | none => exact List.mem_cons_of_mem _ (ih h)
    | some e' => exact h ▸ List.mem_cons_self

/-- UNFLATTEN succeeds only if its length checks pass: each of them reports LEN_RANGE (60_exceptions.md R266). -/
theorem lengths_of_exec_unflatten {strict : Bool} {s t : State} (h : exec (.unflatten strict) s = .next t)
    (hok : t.errCode = .ok) : s.shapeLen.toNat ≤ 511 ∧ s.leavesLen.toNat ≤ 256 := by
  rcases runCommand_next h with ⟨c, p, hfail, rfl⟩ | ⟨hpass, _⟩
  · have hmem := mem_of_firstFailure hfail
    simp only [List.mem_cons, List.not_mem_nil, or_false] at hmem
    have hcode : c = .lenRange := by
      rcases hmem with hcheck | hcheck <;> exact congrArg Prod.fst (lenCheck_eq_some.mp hcheck.symm).2
    exact absurd (hcode.symm.trans hok) (by decide)
  · obtain ⟨hshape, hrest⟩ := firstFailure_cons_eq_none hpass
    exact ⟨lenCheck_eq_none.mp hshape, lenCheck_eq_none.mp (firstFailure_cons_eq_none hrest).1⟩

/-- Whatever UNFLATTEN accepts begins with a tree's two sequences, and that tree is what it holds. -/
theorem tree_of_exec_unflatten {strict : Bool} {s t : State} (h : exec (.unflatten strict) s = .next t)
    (hok : t.errCode = .ok) :
    ∃ (tr : Tree) (rs : List Bool) (rl : List Symbol), s.shapeSeq = tr.shape ++ rs ∧ s.leavesSeq = tr.leaves ++ rl ∧
      t = (s.unflattened tr).complete .ok 0 := by
  obtain ⟨hshape, hleaves⟩ := lengths_of_exec_unflatten h hok
  rw [exec_unflatten strict hshape hleaves] at h
  rcases unflattenOp_cases strict s with ⟨tr, rs, rl, hs, hl⟩ | ⟨hop, _⟩ | ⟨hop, _⟩
  · refine ⟨tr, rs, rl, hs, hl, ?_⟩
    rw [unflattenOp_of_tree strict hs hl] at h
    split at h
    · cases h
      cases hok
    · cases h
      rfl
  · rw [hop] at h
    cases h
    cases hok
  · rw [hop] at h
    cases h
    cases hok

end Sys2Proof.Machine

open Sys2Proof Sys2Proof.Machine

/-- Settles O23: the completion of `exec_flatten_of_holds`, with the reads of `wrote_overwrite`. -/
theorem flattenWritesTheTree : Obligations.FlattenWritesTheTree := by
  intro b s tr hheld
  obtain ⟨hshape, hleaves⟩ := hheld.sizes
  exact ⟨_, exec_flatten_of_holds b hheld, wrote_overwrite _ _, wrote_overwrite _ _, flattened_shapeLen_toNat s hshape,
    flattened_leavesLen_toNat s hleaves, rfl⟩

/-- Settles O24: FLATTEN's SHAPE is the tree's shape, whose 0 and 1 bits are counted by induction on the tree
(`Tree.shape_count_false`, `Tree.shape_count_true`). -/
theorem flattenShapeLength : Obligations.FlattenShapeLength := by
  intro b s t tr hheld hexec
  obtain ⟨hshape, hleaves⟩ := hheld.sizes
  rw [exec_flatten_of_holds b hheld] at hexec
  cases hexec
  rw [shapeSeq_flattened s _ _ hshape, complete_shapeLen, complete_leavesLen, flattened_shapeLen_toNat s hshape,
    flattened_leavesLen_toNat s hleaves]
  have hlength := tr.shape_length
  have hones := tr.shape_count_true
  exact ⟨by omega, by omega, tr.shape_count_false⟩

/-- Settles O25: the completion of `exec_unflatten_of_tree`, with the slot `Tree.unflattened`. -/
theorem unflattenRebuildsTheTree : Obligations.UnflattenRebuildsTheTree := by
  intro strict s tr rs rl hshape hleaves hs hl hrest
  have hsize := (length_shape_le hs).trans hshape
  exact ⟨_, tr.unflattened, exec_unflatten_of_tree hshape hleaves hs hl hrest, rfl, tr.unflattened_wf hsize,
    tr.unflattened_abstract hsize, rfl, tr.nodeCount_unflattened, tr.weight_arena 0,
    fun i nd => tr.children_unflattened hsize, rfl⟩

/-- Settles O26: the two underruns (`exec_unflatten_shapeUnderrun`, `exec_unflatten_leavesUnderrun`), each at the length
of the sequence that ran out. -/
theorem unflattenUnderruns : Obligations.UnflattenUnderruns := by
  intro strict s hshape hleaves
  constructor
  · intro hno hcount
    refine ⟨_, exec_unflatten_shapeUnderrun hshape hleaves strict hno hcount, ?_⟩
    rw [length_shapeSeq, State.complete, BitVec.ofNat_toNat, BitVec.setWidth_eq]
    rfl
  · intro hshort
    refine ⟨_, exec_unflatten_leavesUnderrun hshape hleaves strict hshort, ?_⟩
    rw [length_leavesSeq, State.complete, BitVec.ofNat_toNat, BitVec.setWidth_eq]
    rfl

/-- Settles O27: the same input completes by `exec_unflatten_of_tree` in the permissive mode and by
`exec_unflatten_trailing` in the strict one. -/
theorem unflattenTrailingData : Obligations.UnflattenTrailingData := by
  intro s tr rs rl hshape hleaves hs hl hleft
  have hsize := (length_shape_le hs).trans hshape
  exact ⟨⟨_, exec_unflatten_of_tree hshape hleaves hs hl nofun, rfl,
    holds_unflattened s _ _ hsize⟩, _, exec_unflatten_trailing hshape hleaves hs hl hleft, rfl⟩

/-- Settles O28: FLATTEN leaves exactly the tree's two sequences, so UNFLATTEN rebuilds that tree with nothing left
over; and UNFLATTEN holds the tree whose sequences it consumed (`tree_of_exec_unflatten`), which FLATTEN writes. -/
theorem flattenUnflattenRoundTrip : Obligations.FlattenUnflattenRoundTrip := by
  constructor
  · intro b strict s tr hheld
    obtain ⟨hshape, hleaves⟩ := hheld.sizes
    refine ⟨_, _, tr, exec_flatten_of_holds b hheld, exec_unflatten_of_tree (rs := []) (rl := []) ?_ ?_ ?_ ?_ ?_, rfl,
      holds_unflattened _ _ _ hshape, TreeEq_self tr⟩
    · exact (flattened_shapeLen_toNat s hshape).trans_le hshape
    · exact (flattened_leavesLen_toNat s hleaves).trans_le hleaves
    · rw [shapeSeq_flattened s _ _ hshape, List.append_nil]
    · rw [leavesSeq_flattened s _ _ hleaves, List.append_nil]
    · exact fun _ => ⟨rfl, rfl⟩
  · intro b strict s t hexec hok
    obtain ⟨hshape, _⟩ := lengths_of_exec_unflatten hexec hok
    obtain ⟨tr, rs, rl, hs, hl, rfl⟩ := tree_of_exec_unflatten hexec hok
    have hheld := holds_unflattened s .ok 0 ((length_shape_le hs).trans hshape)
    obtain ⟨hshape', hleaves'⟩ := hheld.sizes
    refine ⟨_, tr.unflattened, exec_flatten_of_holds b hheld, rfl, rfl, ?_⟩
    rw [complete_shapeLen, complete_leavesLen, flattened_shapeLen_toNat _ hshape', flattened_leavesLen_toNat _ hleaves',
      shapeSeq_flattened _ _ _ hshape', leavesSeq_flattened _ _ _ hleaves', hs, hl, List.take_left, List.take_left]
    exact ⟨tr.nodeCount_unflattened.symm, (tr.countP_leaf_arena 0).symm, length_shape_le hs,
      length_leaves_le hl, rfl, rfl⟩
end

section
/-! Proofs of the statements of 42_message_codec.md: how ENCODE and DECODE complete, that no code of the code map begins
another, and that DECODE inverts ENCODE. -/

namespace Sys2Proof.Machine

/-! ### codes, and bits that end on the way to one -/

/-- The code map of a well-formed slot is the code of the tree it denotes (R211 to R213). -/
theorem TreeSlot.codeOf_paths_of_wf {slot : TreeSlot} {visits : List (Symbol × List Bool)} (hwf : slot.wf = true)
    (hvisits : slot.paths = some visits) : ∃ tr : Tree, codeOf visits = tr.code := by
  obtain ⟨tr, htr⟩ := TreeSlot.abstract_of_wf hwf
  rw [TreeSlot.paths_eq, htr] at hvisits
  cases hvisits
  exact ⟨tr, codeOf_paths_nil tr⟩

/-- A code that begins a code is that code, since leaves have no descendants; so its symbol is the same (R217). -/
theorem Tree.symbol_eq_of_code_begins {t : Tree} {x y : Symbol} {p q : List Bool} (hx : t.code x = some p)
    (hy : t.code y = some q) (h : p <+: q) : x = y := by
  have hleaf := Tree.sub_code hx
  obtain rfl := Tree.sub_leaf_prefix hleaf (Tree.sub_code hy) h
  simpa using hleaf.symm.trans (Tree.sub_code hy)

theorem EndsMidPath.isNode {t : Tree} {p : List Bool} (h : EndsMidPath t p) : t.isNode = true := by
  obtain ⟨z, o, hsub⟩ := h
  cases t with
  | node => rfl
  | leaf => cases p <;> simp [Tree.sub] at hsub

theorem endsMidPath_of_sub {t u : Tree} {p : List Bool} (hsub : t.sub p = some u) (hnode : u.isNode = true) :
    EndsMidPath t p := by
  cases u with
  | leaf => cases hnode
  | node z o => exact ⟨z, o, hsub⟩

theorem endsMidPath_nil {t : Tree} (h : t.isNode = true) : EndsMidPath t [] := endsMidPath_of_sub t.sub_nil h

/-- More than `n` codes: the bits of the first `n`, of the next one, and of the others. -/
theorem joinBits_cut {ws : List (Symbol × List Bool)} {n : Nat} (h : n < ws.length) :
    joinBits ws = joinBits (ws.take n) ++ ws[n].2 ++ joinBits (ws.drop (n + 1)) ∧
      (joinBits (ws.take (n + 1))).length = (joinBits (ws.take n)).length + ws[n].2.length := by
  obtain ⟨hcut, hlast⟩ := spelledBits_cut ws n h
  exact ⟨hcut, (congrArg List.length hlast).trans List.length_append⟩

/-! ### how ENCODE completes -/

/-- The state in which ENCODE has written `bits` (R210). -/
def State.encoded (s : State) (bits : List Bool) : State :=
  { s with mem := { s.mem with bits := Buf.overwrite s.mem.bits bits }, bitsLen := BitVec.ofNat 16 bits.length }

/-- The state a failed ENCODE leaves: BITS is UNSPEC, BITS_LEN is kept (60_exceptions.md R269). -/
def State.bitsLost (s : State) : State := { s with mem := { s.mem with bits := [] } }

theorem encoded_bitsLen_toNat (s : State) {bits : List Bool} (h : bits.length ≤ 32768) :
    (s.encoded bits).bitsLen.toNat = bits.length := (BitVec.toNat_ofNat _ _).trans (Nat.mod_eq_of_lt (by omega))

/-- The next command reads the bits ENCODE wrote, whatever the draws. -/
theorem bitsSeq_encoded (s : State) {bits : List Bool} (c : ErrCode) (p : Nat) (h : bits.length ≤ 32768) :
    ((s.encoded bits).complete c p).bitsSeq = bits := Buf.readMany_overwrite s.mem.bits bits _ _ rfl (by omega)

theorem Holds.encoded {s : State} {tr : Tree} (h : Holds s tr) (bits : List Bool) (c : ErrCode) (p : Nat) :
    Holds ((s.encoded bits).complete c p) tr := h

section
variable {s : State} {tr : Tree} (b : Bool) (hheld : Holds s tr) (hlen : s.textLen.toNat ≤ 4096)
include hheld hlen

theorem exec_encode_of_ok {bits : List Bool} (h : encodeFrom tr.code s.textSeq 0 0 = .ok bits) :
    exec (.encode b) s = .next ((s.encoded bits).complete .ok 0) := by
  obtain ⟨slot, hslot, _, htr⟩ := hheld
  rw [exec_encode b hlen hslot, encodeOp_eq hslot htr, h]
  rfl

theorem exec_encode_of_raised {c : ErrCode} {p : Nat} (h : encodeFrom tr.code s.textSeq 0 0 = .error (.raised c p)) :
    exec (.encode b) s = .next (s.bitsLost.complete c p) := by
  obtain ⟨slot, hslot, _, htr⟩ := hheld
  rw [exec_encode b hlen hslot, encodeOp_eq hslot htr, h]
  rfl

/-- ENCODE of a text that is mapped and fits (R210). -/
theorem exec_encode_of_mapped (hmapped : AllMapped tr s.textSeq) (hfits : (bitsOfText tr s.textSeq).length ≤ 32768) :
    exec (.encode b) s = .next ((s.encoded (bitsOfText tr s.textSeq)).complete .ok 0) :=
  exec_encode_of_ok b hheld hlen (encodeFrom_ok s.textSeq hmapped hfits)

/-- ENCODE succeeds only on such a text: every other end of its loop raises an error (R214, R215). -/
theorem exec_encode_ok_inv {t : State} (hexec : exec (.encode b) s = .next t) (hok : t.errCode = .ok) :
    (bitsOfText tr s.textSeq).length ≤ 32768 ∧ t = (s.encoded (bitsOfText tr s.textSeq)).complete .ok 0 := by
  rcases encodeFrom_cases tr.code s.textSeq 0 0 (Nat.zero_le _) with ⟨h, _, hfits⟩ | ⟨c, p, h, hcode⟩
  · rw [exec_encode_of_ok b hheld hlen h] at hexec
    cases hexec
    rw [Nat.zero_add] at hfits
    exact ⟨hfits, rfl⟩
  · rw [exec_encode_of_raised b hheld hlen h] at hexec
    cases hexec
    rcases hcode with rfl | rfl <;> cases hok

end

/-! ### how DECODE completes -/

/-- The state in which DECODE has written the symbols `out` (R218). -/
def State.decoded (s : State) (out : List Symbol) : State :=
  { s with mem := { s.mem with out := Buf.overwrite s.mem.out out }, outLen := BitVec.ofNat 16 out.length }

/-- The state a failed DECODE leaves: OUT is UNSPEC, OUT_LEN is kept (60_exceptions.md R269). -/
def State.outLost (s : State) : State := { s with mem := { s.mem with out := [] } }

theorem get_decoded_nil (s : State) (i : Nat) : Buf.get (s.decoded []).mem.out i = Buf.get s.mem.out i :=
  (Buf.get_overwrite s.mem.out [] i).trans (if_neg (Nat.not_lt_zero i))

theorem decoded_outLen_toNat (s : State) {out : List Symbol} (h : out.length ≤ 4096) :
    (s.decoded out).outLen.toNat = out.length := (BitVec.toNat_ofNat _ _).trans (Nat.mod_eq_of_lt (by omega))

/-- A walk of no bits ends where it began, at ROOT (R224). -/
theorem TreeSlot.decodeBits_nil (slot : TreeSlot) (strict : Bool) : slot.decodeBits strict [] = .ok [] := by
  simp [TreeSlot.decodeBits, decodeFrom]

section
variable {s : State} {strict : Bool} (hlen : s.bitsLen.toNat ≤ 32768)
include hlen

section
variable {slot : TreeSlot} (hslot : s.tree = some slot)
include hslot

theorem exec_decode_of_ok {out : List Symbol} (h : slot.decodeBits strict s.bitsSeq = .ok out) :
    exec (.decode strict) s = .next ((s.decoded out).complete .ok 0) := by
  rw [exec_decode strict hlen hslot, decodeOp_eq strict hslot, h]
  rfl

theorem exec_decode_of_raised {c : ErrCode} {p : Nat} (h : slot.decodeBits strict s.bitsSeq = .error (.raised c p)) :
    exec (.decode strict) s = .next (s.outLost.complete c p) := by
  rw [exec_decode strict hlen hslot, decodeOp_eq strict hslot, h]
  rfl

end

variable {tr : Tree} (hheld : Holds s tr)
include hheld

/-- A bit at a leaf root (R221). -/
theorem exec_decode_leafRoot (hleaf : tr.isNode = false) (hbits : s.bitsSeq ≠ []) :
    exec (.decode strict) s = .next (s.outLost.complete .leafRootDecode 0) := by
  obtain ⟨slot, hslot, hwf, htr⟩ := hheld
  cases tr with
  | node => cases hleaf
  | leaf x =>
    apply exec_decode_of_raised hlen hslot
    rw [TreeSlot.decodeBits_leaf hwf htr, if_neg hbits]

/-- One code more than OUT holds (R223). -/
theorem exec_decode_outOverflow {ws : List (Symbol × List Bool)} {w : Symbol × List Bool} {rest : List Bool}
    (hnode : tr.isNode = true) (hbits : s.bitsSeq = joinBits ws ++ w.2 ++ rest) (hws : SpelledBy tr ws)
    (hw : tr.sub w.2 = some (.leaf w.1)) (hfull : ws.length = 4096) :
    exec (.decode strict) s = .next (s.outLost.complete .outOverflow ((joinBits ws).length + w.2.length - 1)) := by
  obtain ⟨slot, hslot, hwf, htr⟩ := hheld
  apply exec_decode_of_raised hlen hslot
  rw [hbits]
  exact TreeSlot.decodeBits_overflow hwf htr hnode strict ws hws hfull w hw rest

/-- More codes than OUT holds: the last bit of the first that does not fit is reported (R223). -/
theorem exec_decode_of_outMax_lt {ws : List (Symbol × List Bool)} {p : List Bool} (hnode : tr.isNode = true)
    (hbits : s.bitsSeq = joinBits ws ++ p) (hws : SpelledBy tr ws) (hover : 4096 < ws.length) :
    exec (.decode strict) s = .next (s.outLost.complete .outOverflow ((joinBits (ws.take 4097)).length - 1)) := by
  obtain ⟨hcut, hlength⟩ := joinBits_cut hover
  rw [hcut, List.append_assoc _ _ p] at hbits
  rw [hlength]
  exact exec_decode_outOverflow hlen hheld hnode hbits (fun w hw => hws w (List.mem_of_mem_take hw))
    (hws _ (List.getElem_mem hover)) (List.length_take_of_le hover.le)

variable {ws : List (Symbol × List Bool)} {p : List Bool} (hbits : s.bitsSeq = joinBits ws ++ p)
  (hws : SpelledBy tr ws) (hp : EndsMidPath tr p) (hfits : ws.length ≤ 4096)
include hbits hws hp hfits

/-- Codes that fit in OUT, with a partial final code in the permissive mode only (R220, R222). -/
theorem exec_decode_symbols (hwhole : ¬(strict = true ∧ p ≠ [])) :
    exec (.decode strict) s = .next ((s.decoded (ws.map Prod.fst)).complete .ok 0) := by
  have hnode := hp.isNode
  obtain ⟨slot, hslot, hwf, htr⟩ := hheld
  obtain ⟨z, o, hsub⟩ := hp
  apply exec_decode_of_ok hlen hslot
  rw [hbits]
  exact (TreeSlot.decodeBits_codes hwf htr hnode strict ws hws p hsub rfl hfits).trans (if_neg hwhole)

/-- A partial final code in the strict mode (R222). -/
theorem exec_decode_partialCode (hpartial : strict = true ∧ p ≠ []) :
    exec (.decode strict) s = .next (s.outLost.complete .partialCode (joinBits ws).length) := by
  have hnode := hp.isNode
  obtain ⟨slot, hslot, hwf, htr⟩ := hheld
  obtain ⟨z, o, hsub⟩ := hp
  apply exec_decode_of_raised hlen hslot
  rw [hbits]
  exact (TreeSlot.decodeBits_codes hwf htr hnode strict ws hws p hsub rfl hfits).trans (if_pos hpartial)

end

/-- DECODE of no bits (R224). -/
theorem exec_decode_nothing {s : State} {strict : Bool} {tr : Tree} (hheld : Holds s tr) (hzero : s.bitsLen = 0#16) :
    exec (.decode strict) s = .next ((s.decoded []).complete .ok 0) := by
  obtain ⟨slot, hslot, _, _⟩ := hheld
  have hnone : s.bitsSeq = [] := List.length_eq_zero_iff.mp (by rw [length_bitsSeq, hzero]; rfl)
  exact exec_decode_of_ok (by simp [hzero]) hslot (by rw [hnone, TreeSlot.decodeBits_nil])

/-! ### DECODE after ENCODE -/

/-- The symbols of a text with their codes: what the bits of the text are the codes of. -/
def Tree.spelling (t : Tree) (text : List Symbol) : List (Symbol × List Bool) := text.map (fun x => (x, (t.code x).getD []))

theorem spelledBy_spelling {t : Tree} {text : List Symbol} (h : AllMapped t text) : SpelledBy t (t.spelling text) :=
  (t.spells_text text h).1

theorem joinBits_spelling {t : Tree} {text : List Symbol} (h : AllMapped t text) :
    joinBits (t.spelling text) = bitsOfText t text := (t.spells_text text h).2

theorem Tree.map_fst_spelling (t : Tree) (text : List Symbol) : (t.spelling text).map Prod.fst = text := by
  simp [Tree.spelling, Function.comp_def]

/-- The code of the only symbol of a single-leaf tree is empty (R216). -/
theorem bitsOfText_leaf {x : Symbol} {text : List Symbol} (h : ∀ y ∈ text, y = x) : bitsOfText (.leaf x) text = [] :=
  List.flatMap_eq_nil_iff.mpr fun y hy => by rw [h y hy]; simp [Tree.code]

theorem allMapped_leaf {x : Symbol} {text : List Symbol} (h : ∀ y ∈ text, y = x) : AllMapped (.leaf x) text :=
  fun y hy => by rw [h y hy]; simp [Tree.code]

/-- Bits that are the codes of a text decode to the text (R225). -/
theorem exec_decode_bitsOfText {s : State} {strict : Bool} {tr : Tree} {text : List Symbol}
    (hlen : s.bitsLen.toNat ≤ 32768) (hheld : Holds s tr) (hbits : s.bitsSeq = bitsOfText tr text)
    (hnode : tr.isNode = true) (hmapped : AllMapped tr text) (htext : text.length ≤ 4096) :
    exec (.decode strict) s = .next ((s.decoded text).complete .ok 0) := by
  rw [← joinBits_spelling hmapped, ← List.append_nil (joinBits _)] at hbits
  have hcount : (tr.spelling text).length ≤ 4096 := (List.length_map _).trans_le htext
  have hexec := exec_decode_symbols (strict := strict) hlen hheld hbits (spelledBy_spelling hmapped)
    (endsMidPath_nil hnode) hcount fun hleft => hleft.2 rfl
  rwa [Tree.map_fst_spelling] at hexec

end Sys2Proof.Machine

open Sys2Proof Sys2Proof.Machine

/-- Settles O30: the completion of `exec_encode_of_mapped`. -/
theorem encodeWritesTheCodes : Obligations.EncodeWritesTheCodes := by
  intro b s tr hheld hlen hmapped hfits
  exact ⟨_, exec_encode_of_mapped b hheld hlen hmapped hfits, wrote_overwrite _ _, encoded_bitsLen_toNat s hfits, rfl⟩

/-- Settles O31: the loop passes the mapped symbols that fit and stops at the next one (`encodeFrom_unmapped`,
`encodeFrom_overflow`). -/
theorem encodeErrors : Obligations.EncodeErrors := by
  intro b s tr pre rest x hheld hlen htext hmapped hfits
  constructor
  · intro hnone
    have hloop := encodeFrom_unmapped pre rest x hmapped hfits hnone
    rw [← htext] at hloop
    exact ⟨_, exec_encode_of_raised b hheld hlen hloop, fun _ => rfl, rfl⟩
  · intro p hcode hover
    have hloop := encodeFrom_overflow pre rest x p hmapped hfits hcode hover
    rw [← htext] at hloop
    exact ⟨_, exec_encode_of_raised b hheld hlen hloop, fun _ => rfl, rfl⟩

/-- Settles O32: codes lead to leaves, and no leaf is below another (`Tree.symbol_eq_of_code_begins`). -/
theorem codesArePrefixFree : Obligations.CodesArePrefixFree := by
  intro s slot visits x y p q _ hwf hvisits hx hy hne hbegins
  obtain ⟨tr, hcode⟩ := TreeSlot.codeOf_paths_of_wf hwf hvisits
  rw [hcode] at hx hy
  exact hne (Tree.symbol_eq_of_code_begins hx hy hbegins)

/-- Settles O33: the completion of `exec_decode_symbols`. -/
theorem decodeWritesTheSymbols : Obligations.DecodeWritesTheSymbols := by
  intro strict s tr ws p hheld hlen hbits hws hp hfits hwhole
  have hout : (ws.map Prod.fst).length = ws.length := List.length_map _
  refine ⟨_, exec_decode_symbols hlen hheld hbits hws hp hfits fun ⟨hstrict, hne⟩ => hne (hwhole hstrict),
    wrote_overwrite _ _, ?_, rfl⟩
  exact (decoded_outLen_toNat s (hout.trans_le hfits)).trans hout

/-- Settles O34: one completion for each error (`exec_decode_leafRoot`, `exec_decode_outOverflow`,
`exec_decode_partialCode`). -/
theorem decodeErrors : Obligations.DecodeErrors := by
  intro strict s tr hheld hlen
  refine ⟨?_, ?_, ?_⟩
  · intro hleaf hbits
    exact ⟨_, exec_decode_leafRoot hlen hheld hleaf hbits, fun _ => rfl, rfl⟩
  · intro ws w rest hnode hbits hws hfull
    exact ⟨_, exec_decode_outOverflow hlen hheld hnode hbits (fun v hv => hws v (List.mem_append_left _ hv))
      (hws w (by simp)) hfull, fun _ => rfl, rfl⟩
  · intro ws p hstrict hne hbits hws hp hfits
    exact ⟨_, exec_decode_partialCode hlen hheld hbits hws hp hfits ⟨hstrict, hne⟩, fun _ => rfl, rfl⟩

/-- Settles O35: the bits are codes and a rest by `Tree.spell_total`, and DECODE answers by how many codes there are
and what is left over (`exec_decode_of_outMax_lt`, `exec_decode_partialCode`, O33). -/
theorem everyBitSequenceIsCodesAndARest : Obligations.EveryBitSequenceIsCodesAndARest := by
  intro strict s tr hheld hnode hlen
  obtain ⟨ws, p, u, hws, hbits, hsub, hu⟩ := tr.spell_total hnode s.bitsSeq
  have hp := endsMidPath_of_sub hsub hu
  by_cases hover : 4096 < ws.length
  · refine ⟨ws, p, _, hbits, hws, hp, exec_decode_of_outMax_lt hlen hheld hnode hbits hws hover, ?_⟩
    rw [if_pos hover]
    exact ⟨fun _ => rfl, rfl⟩
  · have hfits : ws.length ≤ 4096 := Nat.le_of_not_lt hover
    by_cases hpartial : strict = true ∧ p ≠ []
    · refine ⟨ws, p, _, hbits, hws, hp, exec_decode_partialCode hlen hheld hbits hws hp hfits hpartial, ?_⟩
      rw [if_neg hover, if_pos hpartial]
      exact ⟨fun _ => rfl, rfl⟩
    · obtain ⟨t, hexec, hout, houtLen, hframe⟩ := decodeWritesTheSymbols strict s tr ws p hheld hlen hbits hws hp hfits
        fun hstrict => not_not.mp fun hne => hpartial ⟨hstrict, hne⟩
      refine ⟨ws, p, t, hbits, hws, hp, hexec, ?_⟩
      rw [if_neg hover, if_neg hpartial]
      exact ⟨hout, houtLen, hframe⟩

/-- Settles O36: the completion of `exec_decode_nothing`, which overwrites no element of OUT (`get_decoded_nil`). -/
theorem decodeOfNothing : Obligations.DecodeOfNothing := by
  intro strict s tr hheld hzero
  exact ⟨_, exec_decode_nothing hheld hzero, get_decoded_nil s, rfl⟩

/-- Settles O37: a successful ENCODE left the bits of the text (`exec_encode_ok_inv`), which decode to it
(`exec_decode_bitsOfText`); under a single leaf it left none. -/
theorem decodeInvertsEncode : Obligations.DecodeInvertsEncode := by
  constructor
  · intro b strict s t tr hheld hnode hmapped hlen hexec hok
    obtain ⟨hfits, rfl⟩ := exec_encode_ok_inv b hheld hlen hexec hok
    have htext : s.textSeq.length ≤ 4096 := (length_textSeq s).trans_le hlen
    refine ⟨_, exec_decode_bitsOfText ((encoded_bitsLen_toNat s hfits).trans_le hfits) (hheld.encoded _ .ok 0)
      (bitsSeq_encoded s .ok 0 hfits) hnode hmapped htext, rfl, decoded_outLen_toNat s htext, fun i hi => ?_⟩
    exact (wrote_overwrite s.mem.out s.textSeq i).trans (if_pos hi)
  · intro b strict s x hheld hall hlen
    have hnone := bitsOfText_leaf hall
    have hexec := exec_encode_of_mapped b hheld hlen (allMapped_leaf hall) (by simp [hnone])
    rw [hnone] at hexec
    exact ⟨_, _, hexec, rfl, rfl, exec_decode_nothing (hheld.encoded [] .ok 0) rfl, rfl, rfl⟩
end

section
/-! Proofs of the statements of 43_top_level.md: COMPRESS as the state its stages leave one after the other, DECOMPRESS
as a DECODE on the tree UNFLATTEN made, and CLEAR. -/

namespace Sys2Proof.Machine

/-! ### how COMPRESS completes -/

/-- The state BUILD_op leaves of a text with at least two distinct symbols (40_tree_builder.md R159). -/
def State.built (s : State) : State := { s.counted with tree := some (huffmanSlot s.textSeq) }

/-- The state the stages of COMPRESS leave after the release, `tr` being the tree BUILD_op made (43_top_level.md R240,
R242). -/
def State.compressed (s : State) (tr : Tree) : State := (s.counted.flattened tr).encoded (bitsOfText tr s.textSeq)

/-- The bits of a text of at most TEXT_MAX symbols fit in BITS, at 8 bits a symbol (R243). -/
theorem bitsOfText_fits {s : State} {tr : Tree} (hlen : s.textLen.toNat ≤ 4096)
    (hbound : (bitsOfText tr s.textSeq).length ≤ 8 * s.textLen.toNat) : (bitsOfText tr s.textSeq).length ≤ 32768 := by
  omega

/-- The tree BUILD_op made has a code for every symbol of the text, of at most 8 bits a symbol on average. -/
theorem exists_holds_built {s : State} (hL : 2 ≤ s.alphabet) :
    ∃ tr, Holds s.built tr ∧ tr.isNode = true ∧ AllMapped tr s.textSeq ∧
      (bitsOfText tr s.textSeq).length ≤ 8 * s.textLen.toNat := by
  obtain ⟨tr, hwf, htr, _, _, _, _, hnode, _, _, hmapped, hbound⟩ := huffmanSlot_tree (length_textSeq_lt s) hL
  exact ⟨tr, ⟨huffmanSlot s.textSeq, rfl, hwf, htr⟩, hnode, hmapped, length_textSeq s ▸ hbound⟩

/-- That tree depends on the text alone (40_tree_builder.md R161). -/
theorem holds_built_congr {s s' : State} {tr : Tree} (htext : s.textSeq = s'.textSeq) (h : Holds s.built tr) :
    Holds s'.built tr := by
  have hsame : s'.built.tree = s.built.tree := congrArg (fun text => some (huffmanSlot text)) htext.symm
  rwa [Holds, hsame]

section
variable {s : State} (b : Bool)

/-- The pre-check of COMPRESS (60_exceptions.md R266). -/
theorem exec_compress_lenRange (hlen : 4096 < s.textLen.toNat) :
    exec (.compress b) s = .next (s.complete .lenRange 0x0010) := by
  have hcheck : s.checkTextLen = some (.lenRange, 0x0010) := lenCheck_eq_some.mpr ⟨hlen, rfl⟩
  exact runCommand_fail (by rw [hcheck, firstFailure_some])

variable (hlen : s.textLen.toNat ≤ 4096)
include hlen

/-- COMPRESS of fewer than two distinct symbols stops in BUILD_op. -/
theorem exec_compress_small (hL : s.alphabet < 2) :
    exec (.compress b) s = .next (s.counted.complete .alphabet s.alphabet) := by
  rw [exec_compress b hlen, compressOp_small hL, finish_raised]
  rfl

/-- COMPRESS of at least two distinct symbols runs all its stages (R243). -/
theorem exec_compress_large {tr : Tree} (hL : 2 ≤ s.alphabet) (hbuilt : Holds s.built tr) :
    exec (.compress b) s = .next ((s.compressed tr).complete .ok 0) := by
  obtain ⟨slot, hslot, _, htr⟩ := hbuilt
  cases hslot
  rw [exec_compress b hlen, compressOp_large hL hlen htr, finish_ok]
  rfl

end

/-- COMPRESS ends in LEN_RANGE, in ALPHABET or in success, whatever the state. -/
theorem errCode_of_exec_compress {b : Bool} {s t : State} (h : exec (.compress b) s = .next t) :
    t.errCode = .lenRange ∨ t.errCode = .alphabet ∨ t.errCode = .ok := by
  rcases Nat.lt_or_ge 4096 s.textLen.toNat with hlen | hlen
  · rw [exec_compress_lenRange b hlen] at h
    cases h
    exact .inl rfl
  · rcases Nat.lt_or_ge s.alphabet 2 with hL | hL
    · rw [exec_compress_small b hlen hL] at h
      cases h
      exact .inr (.inl rfl)
    · obtain ⟨tr, hbuilt, _⟩ := exists_holds_built hL
      rw [exec_compress_large b hlen hL hbuilt] at h
      cases h
      exact .inr (.inr rfl)

/-! ### what COMPRESS leaves for DECOMPRESS -/

/-- SHAPE, LEAVES and BITS hold the sequences of `tr` and the bits of `text`, within their capacities. -/
structure CarriesText (s : State) (tr : Tree) (text : List Symbol) : Prop where
  shapeLen_le : s.shapeLen.toNat ≤ 511
  leavesLen_le : s.leavesLen.toNat ≤ 256
  bitsLen_le : s.bitsLen.toNat ≤ 32768
  shapeSeq_eq : s.shapeSeq = tr.shape
  leavesSeq_eq : s.leavesSeq = tr.leaves
  bitsSeq_eq : s.bitsSeq = bitsOfText tr text

/-- A state that keeps what COMPRESS wrote carries the text: every element below a length is written, so the draws do not
matter. -/
theorem carriesText_of_compressed {s t : State} {tr : Tree} (hbuilt : Holds s.built tr)
    (hfits : (bitsOfText tr s.textSeq).length ≤ 32768) (hshapeLen : t.shapeLen = (s.compressed tr).shapeLen)
    (hleavesLen : t.leavesLen = (s.compressed tr).leavesLen) (hbitsLen : t.bitsLen = (s.compressed tr).bitsLen)
    (hshape : t.mem.shape = (s.compressed tr).mem.shape) (hleaves : t.mem.leaves = (s.compressed tr).mem.leaves)
    (hbits : t.mem.bits = (s.compressed tr).mem.bits) : CarriesText t tr s.textSeq := by
  obtain ⟨hnodes, hsymbols⟩ := hbuilt.sizes
  refine ⟨?_, ?_, ?_, ?_, ?_, ?_⟩
  · exact hshapeLen ▸ (flattened_shapeLen_toNat s.counted hnodes).trans_le hnodes
  · exact hleavesLen ▸ (flattened_leavesLen_toNat s.counted hsymbols).trans_le hsymbols
  · exact hbitsLen ▸ (encoded_bitsLen_toNat (s.counted.flattened tr) hfits).trans_le hfits
  · rw [State.shapeSeq, hshape]
    exact Buf.readMany_overwrite _ _ _ _ hshapeLen (by omega)
  · rw [State.leavesSeq, hleaves]
    exact Buf.readMany_overwrite _ _ _ _ hleavesLen (by omega)
  · rw [State.bitsSeq, hbits]
    exact Buf.readMany_overwrite _ _ _ _ hbitsLen (by omega)

/-- A completion draws anew, but a text that is written is read as before. -/
theorem textSeq_of_written {s t : State} (hwritten : WrittenBelow s.mem.text s.textLen.toNat)
    (hlen : t.textLen = s.textLen) (htext : t.mem.text = s.mem.text) : t.textSeq = s.textSeq := by
  rw [State.textSeq, hlen, htext]
  exact Buf.readMany_written _ _ _ _ hwritten

/-! ### how DECOMPRESS completes -/

/-- The release that ends a command can come after its completion. -/
theorem OpEnd.finish_thenRelease {e : OpEnd} {t : State} (h : e.finish = .next t) :
    e.thenRelease.finish = .next t.release := by
  obtain ⟨u, stop⟩ := e
  cases stop with
  | none => cases h; rfl
  | some st =>
    cases st with
    | raised c p => cases h; rfl
    | brokenTree => cases h

/-- A failed UNFLATTEN_op leaves only the slot released (60_exceptions.md R270). -/
theorem unflattenOp_of_stop {strict : Bool} {s : State} {st : Stop} (h : (unflattenOp strict s).stop = some st) :
    unflattenOp strict s = { state := s.release, stop := some st } := by
  unfold unflattenOp at h ⊢
  split at h
  next => cases h; rfl
  next => cases h

section
variable {strict : Bool} {s : State} (hshapeLen : s.shapeLen.toNat ≤ 511) (hleavesLen : s.leavesLen.toNat ≤ 256)
  (hbitsLen : s.bitsLen.toNat ≤ 32768)
include hshapeLen hleavesLen hbitsLen

/-- An UNFLATTEN that ends in an error ends DECOMPRESS: the release at its end does nothing more (R244). -/
theorem exec_decompress_of_unflatten_error {t : State} (h : exec (.unflatten strict) s = .next t)
    (herr : t.errCode ≠ .ok) : exec (.decompress strict) s = .next t ∧ ∃ c p, t = s.release.complete c p := by
  rw [exec_unflatten strict hshapeLen hleavesLen] at h
  cases hstop : (unflattenOp strict s).stop with
  | none =>
    rw [OpEnd.finish, hstop] at h
    cases h
    exact absurd rfl herr
  | some st =>
    have hop := unflattenOp_of_stop hstop
    rw [exec_decompress strict hshapeLen hleavesLen hbitsLen, decompressOp_stop strict hstop, hop]
    rw [hop] at h
    cases st with
    | brokenTree => cases h
    | raised c p =>
      cases h
      exact ⟨rfl, c, p, rfl⟩

/-- On sequences that begin with a tree's, DECOMPRESS is a DECODE on that tree, and then the release (R244, R245). -/
theorem exec_decompress_of_decode {tr : Tree} {rs : List Bool} {rl : List Symbol} {t : State}
    (hs : s.shapeSeq = tr.shape ++ rs) (hl : s.leavesSeq = tr.leaves ++ rl)
    (hrest : strict = true → rs = [] ∧ rl = []) (h : exec (.decode strict) (s.unflattened tr) = .next t) :
    exec (.decompress strict) s = .next t.release := by
  have hnot : ¬(strict = true ∧ ¬(rs = [] ∧ rl = [])) := fun ⟨hstrict, hleft⟩ => hleft (hrest hstrict)
  rw [exec_decompress strict hshapeLen hleavesLen hbitsLen, decompressOp, unflattenOp_of_tree strict hs hl, if_neg hnot,
    andThen_ok rfl]
  exact OpEnd.finish_thenRelease ((exec_decode (s := s.unflattened tr) strict hbitsLen rfl).symm.trans h)

end

/-! ### how CLEAR completes -/

/-- CLEAR has no pre-check and cannot stop (R248). -/
theorem exec_clear (b : Bool) (s : State) : exec (.clear b) s = .next (s.release.complete .ok 0) := rfl

end Sys2Proof.Machine

open Sys2Proof Sys2Proof.Machine

/-- Settles O38: the completion of `exec_compress_large` on the tree BUILD makes, whose codes fit
(`exists_holds_built`); and `errCode_of_exec_compress` lists every end of COMPRESS. -/
theorem compressSucceeds : Obligations.CompressSucceeds := by
  constructor
  · intro b s hlen hL
    obtain ⟨tr, hbuilt, _, hmapped, hbound⟩ := exists_holds_built hL
    obtain ⟨hshape, hleaves⟩ := hbuilt.sizes
    exact ⟨_, tr, exec_compress_large b hlen hL hbuilt, ⟨_, exec_build_large b hlen hL, hbuilt⟩, holdsCounts_counted s,
      hmapped, wrote_overwrite _ _, flattened_shapeLen_toNat s.counted hshape, wrote_overwrite _ _,
      flattened_leavesLen_toNat s.counted hleaves, wrote_overwrite _ _,
      encoded_bitsLen_toNat (s.counted.flattened tr) (bitsOfText_fits hlen hbound), hbound, rfl⟩
  · intro b s t hexec hover
    rcases errCode_of_exec_compress hexec with hcode | hcode | hcode <;> cases hcode.symm.trans hover

/-- Settles O39: the completion of `exec_compress_small`. -/
theorem compressRejectsASmallAlphabet : Obligations.CompressRejectsASmallAlphabet := fun b s hlen hL =>
  ⟨_, exec_compress_small b hlen hL, holdsCounts_counted s, rfl⟩

/-- Settles O40: the four commands complete one after the other, and ENCODE reads the text BUILD counted
(`textSeq_of_written`). -/
theorem compressIsBuildFlattenEncodeClear : Obligations.CompressIsBuildFlattenEncodeClear := by
  intro b s hlen hL hwritten
  obtain ⟨tr, hbuilt, _, hmapped, hbound⟩ := exists_holds_built hL
  have hheld : Holds (s.built.complete .ok 0) tr := hbuilt
  have htext : (((s.built.complete .ok 0).flattened tr).complete .ok 0).textSeq = s.textSeq :=
    textSeq_of_written hwritten rfl rfl
  have hencode := exec_encode_of_mapped (s := ((s.built.complete .ok 0).flattened tr).complete .ok 0) b hheld hlen
    (htext ▸ hmapped) (htext ▸ bitsOfText_fits hlen hbound)
  refine ⟨_, _, _, _, _, exec_compress_large b hlen hL hbuilt, exec_build_large b hlen hL,
    exec_flatten_of_holds b hheld, hencode, exec_clear b _, ?_⟩
  rw [htext]
  rfl

/-- Settles O41: equal texts have equal trees and codes, and both runs leave exactly those
(`carriesText_of_compressed`). -/
theorem compressIsDeterministic : Obligations.CompressIsDeterministic := by
  intro b b' s s' t t' hlen hL htext hexec hexec'
  have hlen' : s'.textLen.toNat ≤ 4096 := by rwa [← length_textSeq, ← htext, length_textSeq]
  have hL' : 2 ≤ s'.alphabet := by rwa [State.alphabet, ← htext]
  obtain ⟨tr, hbuilt, _, hmapped, hbound⟩ := exists_holds_built hL
  have hfits := bitsOfText_fits hlen hbound
  have hbuilt' := holds_built_congr htext hbuilt
  rw [exec_compress_large b hlen hL hbuilt] at hexec
  rw [exec_compress_large b' hlen' hL' hbuilt'] at hexec'
  cases hexec
  cases hexec'
  have hleft := carriesText_of_compressed (t := (s.compressed tr).complete .ok 0) hbuilt hfits rfl rfl rfl rfl rfl rfl
  have hleft' := carriesText_of_compressed (t := (s'.compressed tr).complete .ok 0) hbuilt' (htext ▸ hfits) rfl rfl rfl
    rfl rfl rfl
  rw [← htext] at hleft'
  exact ⟨rfl, rfl, congrArg (fun text => BitVec.ofNat 16 (bitsOfText tr text).length) htext,
    hleft.shapeSeq_eq.trans hleft'.shapeSeq_eq.symm, hleft.leavesSeq_eq.trans hleft'.leavesSeq_eq.symm,
    hleft.bitsSeq_eq.trans hleft'.bitsSeq_eq.symm⟩

/-- Settles O42: DECOMPRESS is a DECODE on the tree of the sequences (`exec_decompress_of_decode`), of codes under an
internal root or of nothing under a leaf. -/
theorem decompressWritesTheSymbols : Obligations.DecompressWritesTheSymbols := by
  intro strict s tr rs rl ws p hshapeLen hleavesLen hbitsLen hs hl hbits hws hfits hroot hrest
  have hheld : Holds (s.unflattened tr) tr := holds_unflattened s .ok 0 ((length_shape_le hs).trans hshapeLen)
  have hdecode : exec (.decode strict) (s.unflattened tr) =
      .next (((s.unflattened tr).decoded (ws.map Prod.fst)).complete .ok 0) := by
    rcases hroot with ⟨_, hp⟩ | ⟨_, rfl, rfl⟩
    · exact exec_decode_symbols (s := s.unflattened tr) hbitsLen hheld hbits hws hp hfits
        fun ⟨hstrict, hne⟩ => hne (hrest hstrict).2.2
    · have hzero : s.bitsLen = 0#16 :=
        BitVec.eq_of_toNat_eq ((length_bitsSeq s).symm.trans (congrArg List.length hbits))
      exact exec_decode_nothing hheld hzero
  have hout : (ws.map Prod.fst).length = ws.length := List.length_map _
  exact ⟨_, exec_decompress_of_decode hshapeLen hleavesLen hbitsLen hs hl
    (fun hstrict => ⟨(hrest hstrict).1, (hrest hstrict).2.1⟩) hdecode, wrote_overwrite _ _,
    (decoded_outLen_toNat (s.unflattened tr) (hout.trans_le hfits)).trans hout, rfl⟩

/-- Settles O43: an error of UNFLATTEN_op is the end of both commands (`exec_decompress_of_unflatten_error`); the errors
of DECODE_op are those of a DECODE on the tree of the sequences. -/
theorem decompressStopsAtAnUnflattenError : Obligations.DecompressStopsAtAnUnflattenError := by
  constructor
  · intro strict s t hbitsLen hshapeLen hleavesLen hexec herr
    obtain ⟨hsame, c, p, rfl⟩ := exec_decompress_of_unflatten_error hshapeLen hleavesLen hbitsLen hexec herr
    exact ⟨hsame, rfl, rfl, rfl⟩
  · intro strict s tr rs rl hshapeLen hleavesLen hbitsLen hs hl hrest
    have hheld : Holds (s.unflattened tr) tr := holds_unflattened s .ok 0 ((length_shape_le hs).trans hshapeLen)
    have hlen : (s.unflattened tr).bitsLen.toNat ≤ 32768 := hbitsLen
    have hstage {t : State} (h : exec (.decode strict) (s.unflattened tr) = .next t) :=
      exec_decompress_of_decode hshapeLen hleavesLen hbitsLen hs hl hrest h
    refine ⟨?leafRoot, ?outOverflow, ?partialCode⟩
    case leafRoot =>
      intro hleaf hbits
      exact ⟨_, hstage (exec_decode_leafRoot hlen hheld hleaf hbits), fun _ => rfl, rfl⟩
    case outOverflow =>
      intro ws w rest hnode hbits hws hfull
      exact ⟨_, hstage (exec_decode_outOverflow hlen hheld hnode hbits (fun v hv => hws v (List.mem_append_left _ hv))
        (hws w (by simp)) hfull), fun _ => rfl, rfl⟩
    case partialCode =>
      intro ws p hstrict hne hbits hws hp hfits
      exact ⟨_, hstage (exec_decode_partialCode hlen hheld hbits hws hp hfits ⟨hstrict, hne⟩), fun _ => rfl, rfl⟩

/-- Settles O44: the kept buffers carry the tree's sequences and the bits of the text (`carriesText_of_compressed`), and
those bits decode to the text on that tree (`exec_decode_bitsOfText`). -/
theorem decompressInvertsCompress : Obligations.DecompressInvertsCompress := by
  intro b strict s t t' hlen hL hexec hshapeLen hleavesLen hbitsLen hshape hleaves hbits
  obtain ⟨tr, hbuilt, hnode, hmapped, hbound⟩ := exists_holds_built hL
  rw [exec_compress_large b hlen hL hbuilt] at hexec
  cases hexec
  have hkept := carriesText_of_compressed hbuilt (bitsOfText_fits hlen hbound) hshapeLen hleavesLen hbitsLen hshape
    hleaves hbits
  have hheld : Holds (t'.unflattened tr) tr := holds_unflattened t' .ok 0 hbuilt.sizes.1
  have htext : s.textSeq.length ≤ 4096 := (length_textSeq s).trans_le hlen
  have hdecode := exec_decode_bitsOfText (s := t'.unflattened tr) (strict := strict) hkept.bitsLen_le hheld
    hkept.bitsSeq_eq hnode hmapped htext
  refine ⟨_, exec_decompress_of_decode hkept.shapeLen_le hkept.leavesLen_le hkept.bitsLen_le (rs := []) (rl := [])
    (by rw [hkept.shapeSeq_eq, List.append_nil]) (by rw [hkept.leavesSeq_eq, List.append_nil]) (fun _ => ⟨rfl, rfl⟩)
    hdecode, rfl, BitVec.eq_of_toNat_eq ?_, fun i hi => ?_⟩
  · exact (decoded_outLen_toNat (t'.unflattened tr) htext).trans (length_textSeq s)
  · exact (wrote_overwrite t'.mem.out s.textSeq i).trans (if_pos hi)

/-- Settles O45: the completion of `exec_clear`, after which there is no entry to read. -/
theorem clearReleasesTheTree : Obligations.ClearReleasesTheTree := by
  intro b s
  have hnone : (s.release.complete .ok 0).tree = none := rfl
  exact ⟨_, exec_clear b s, rfl, rfl,
    fun i => ⟨nodeWindowWord_of_no_tree Node.wordA i hnone, nodeWindowWord_of_no_tree Node.wordB i hnone⟩, rfl⟩
end

section
/-! Proofs of the statements of 60_exceptions.md: what acceptance and completion set, what a failed pre-check and a
failed operation phase leave, and which accesses the port refuses. -/

namespace Sys2Proof.Machine

/-! ### a command is its pre-checks and its operation phase -/

/-- The pre-checks of a command, in the order of 60_exceptions.md R264. -/
def checksOf (i : Instr) (s : State) : List Check :=
  match i with
  | .build _ => [s.checkTextLen]
  | .flatten _ => [treeCheck s]
  | .unflatten _ => [s.checkShapeLen, s.checkLeavesLen]
  | .encode _ => [s.checkTextLen, treeCheck s]
  | .decode _ => [s.checkBitsLen, treeCheck s]
  | .compress _ => [s.checkTextLen]
  | .decompress _ => [s.checkShapeLen, s.checkLeavesLen, s.checkBitsLen]
  | .clear _ => []

/-- The operation phase of a command (60_exceptions.md R264). -/
def opOf (i : Instr) : State → OpEnd :=
  match i with
  | .build _ => buildOp
  | .flatten _ => flattenOp
  | .unflatten strict => unflattenOp strict
  | .encode _ => encodeOp
  | .decode strict => decodeOp strict
  | .compress _ => compressOp
  | .decompress strict => decompressOp strict
  | .clear _ => clearOp

theorem exec_eq_runCommand (i : Instr) (s : State) : exec i s = runCommand (checksOf i s) (opOf i) s := by
  cases i <;> rfl

theorem firstFailure_lenCheck (len : Half) (cap off : Nat) (cs : List Check) :
    firstFailure (lenCheck len cap off :: cs) = if cap < len.toNat then some (.lenRange, off) else firstFailure cs := by
  by_cases h : cap < len.toNat
  · rw [lenCheck_eq_some.mpr ⟨h, rfl⟩, firstFailure_some, if_pos h]
  · rw [lenCheck_eq_none.mpr (Nat.le_of_not_lt h), firstFailure_none, if_neg h]

theorem firstFailure_treeCheck (s : State) (cs : List Check) :
    firstFailure (treeCheck s :: cs) = if s.tree = none then some (.noTree, 0) else firstFailure cs := by
  cases h : s.tree with
  | none => simp [treeCheck, State.treeValid, h]
  | some slot => rw [treeCheck_pass h, firstFailure_none, if_neg (Option.some_ne_none slot)]

/-- The first of a command's pre-checks that fails is the one R266 names. -/
theorem firstFailure_checksOf (i : Instr) (s : State) : firstFailure (checksOf i s) = preCheckOf i s := by
  cases i with
  | build | compress => exact firstFailure_lenCheck ..
  | flatten => exact firstFailure_treeCheck ..
  | encode | decode => exact (firstFailure_lenCheck ..).trans (by rw [firstFailure_treeCheck]; rfl)
  | unflatten => exact (firstFailure_lenCheck ..).trans (by rw [State.checkLeavesLen, firstFailure_lenCheck]; rfl)
  | decompress =>
    refine (firstFailure_lenCheck ..).trans ?_
    rw [State.checkLeavesLen, firstFailure_lenCheck, State.checkBitsLen, firstFailure_lenCheck]
    rfl
  | clear => rfl

/-- A command that fails a pre-check completes with its code and position, from the state it was accepted in (R268). -/
theorem exec_of_preCheck_fails {i : Instr} {s : State} {c : ErrCode} {p : Nat} (h : preCheckOf i s = some (c, p)) :
    exec i s = .next (s.complete c p) := by
  rw [exec_eq_runCommand, runCommand_fail ((firstFailure_checksOf i s).trans h)]

/-- Everything a command can do: a pre-check fails, or the state its operation phase leaves is completed with the error
it raised or with OK at position 0. -/
theorem exec_next_complete {i : Instr} {s t : State} (h : exec i s = .next t) :
    ∃ c p, (preCheckOf i s = some (c, p) ∧ t = s.complete c p) ∨
      (preCheckOf i s = none ∧ t = (opOf i s).state.complete c p ∧
        ((opOf i s).stop = some (.raised c p) ∨ (opOf i s).stop = none ∧ c = .ok ∧ p = 0)) := by
  rw [exec_eq_runCommand] at h
  rw [← firstFailure_checksOf]
  exact runCommand_next_complete h

/-- A pre-check fails with LEN_RANGE or NO_TREE (R266), so never with OK. -/
theorem preCheckOf_ne_ok (i : Instr) (s : State) (p : Nat) : preCheckOf i s ≠ some (.ok, p) := by
  cases i with
  | build | flatten | compress => exact ite_ne_of_ne (by simp) (by simp)
  | unflatten | encode | decode => exact ite_ne_of_ne (by simp) (ite_ne_of_ne (by simp) (by simp))
  | decompress => exact ite_ne_of_ne (by simp) (ite_ne_of_ne (by simp) (ite_ne_of_ne (by simp) (by simp)))
  | clear => exact Option.some_ne_none _ |>.symm

/-! ### an operation phase never raises OK -/

/-- The stop is an error of R260 and not the code OK. -/
def Stop.IsError : Stop → Prop
  | .raised c _ => c ≠ .ok
  | .brokenTree => True

@[simp] theorem Stop.isError_raised (c : ErrCode) (p : Nat) : (Stop.raised c p).IsError ↔ c ≠ .ok := Iff.rfl

@[simp] theorem Stop.isError_brokenTree : Stop.brokenTree.IsError := trivial

/-- Where the phase stops, it stops with an error. -/
def OpEnd.StopsWithError (e : OpEnd) : Prop := ∀ st, e.stop = some st → st.IsError

theorem OpEnd.stopsWithError_of_none {e : OpEnd} (h : e.stop = none) : e.StopsWithError := by
  intro st hst
  rw [h] at hst
  cases hst

theorem OpEnd.stopsWithError_of_some {e : OpEnd} {st : Stop} (h : e.stop = some st) (herr : st.IsError) :
    e.StopsWithError := by
  intro st' hst
  rw [h] at hst
  cases hst
  exact herr

theorem OpEnd.StopsWithError.andThen {e : OpEnd} {f : State → OpEnd} (h : e.StopsWithError)
    (hf : (f e.state).StopsWithError) : (e.andThen f).StopsWithError := by
  cases hst : e.stop with
  | none => rwa [andThen_ok hst]
  | some st => rwa [andThen_stop hst]

theorem OpEnd.StopsWithError.thenRelease {e : OpEnd} (h : e.StopsWithError) : e.thenRelease.StopsWithError := h

theorem buildOp_stopsWithError (s : State) : (buildOp s).StopsWithError := by
  rcases Nat.lt_or_ge s.textSeq.toFinset.card 2 with hL | hL
  · rw [buildOp_small hL]
    exact OpEnd.stopsWithError_of_some rfl (by simp)
  · rw [buildOp_large hL]
    exact OpEnd.stopsWithError_of_none rfl

/-- FLATTEN has no error of its own (60_exceptions.md R265). -/
theorem flattenOp_stop (s : State) : (flattenOp s).stop = none ∨ (flattenOp s).stop = some .brokenTree := by
  unfold flattenOp
  split
  · exact .inr rfl
  · split
    · exact .inr rfl
    · exact .inl rfl

theorem flattenOp_stopsWithError (s : State) : (flattenOp s).StopsWithError := by
  rcases flattenOp_stop s with h | h
  · exact OpEnd.stopsWithError_of_none h
  · exact OpEnd.stopsWithError_of_some h trivial

theorem unflattenOp_stopsWithError (strict : Bool) (s : State) : (unflattenOp strict s).StopsWithError := by
  rcases unflattenOp_cases strict s with ⟨tr, rs, rl, hs, hl⟩ | ⟨hop, _⟩ | ⟨hop, _⟩
  · rw [unflattenOp_of_tree strict hs hl]
    split
    · exact OpEnd.stopsWithError_of_some rfl (by simp)
    · exact OpEnd.stopsWithError_of_none rfl
  · exact OpEnd.stopsWithError_of_some (congrArg OpEnd.stop hop) (by simp)
  · exact OpEnd.stopsWithError_of_some (congrArg OpEnd.stop hop) (by simp)

theorem encodeFrom_isError {code : Symbol → Option (List Bool)} {text : List Symbol} {st : Stop}
    (h : encodeFrom code text 0 0 = .error st) : st.IsError := by
  rcases encodeFrom_cases code text 0 0 (Nat.zero_le _) with ⟨hok, _⟩ | ⟨c, p, herr, hcode⟩
  · cases hok.symm.trans h
  · cases herr.symm.trans h
    rcases hcode with rfl | rfl <;> simp

theorem encodeOp_stopsWithError (s : State) : (encodeOp s).StopsWithError := by
  unfold encodeOp
  split
  · exact OpEnd.stopsWithError_of_some rfl trivial
  · split
    · exact OpEnd.stopsWithError_of_some rfl trivial
    · split
      next herr => exact OpEnd.stopsWithError_of_some rfl (encodeFrom_isError herr)
      next => exact OpEnd.stopsWithError_of_none rfl

theorem decodeFrom_isError {nodes : List Node} {root : Nat} {strict : Bool} {bits : List Bool} {i cur m start : Nat}
    {st : Stop} (h : decodeFrom nodes root strict bits i cur m start = .error st) : st.IsError := by
  induction bits generalizing i cur m start with
  | nil =>
    simp only [decodeFrom] at h
    split at h <;> cases h
    simp
  | cons bit bits ih =>
    simp only [decodeFrom] at h
    split at h
    · cases h
      simp
    split at h
    · cases h
      simp
    split at h
    · cases h
      simp
    split at h
    · split at h
      · cases h
        simp
      split at h
      next hrest =>
        cases h
        exact ih hrest
      next => cases h
    · exact ih h

theorem decodeOp_stopsWithError (strict : Bool) (s : State) : (decodeOp strict s).StopsWithError := by
  unfold decodeOp
  split
  · exact OpEnd.stopsWithError_of_some rfl trivial
  · split
    next herr => exact OpEnd.stopsWithError_of_some rfl (decodeFrom_isError herr)
    next => exact OpEnd.stopsWithError_of_none rfl

/-- No operation phase raises OK, whatever the state. -/
theorem opOf_stopsWithError (i : Instr) (s : State) : (opOf i s).StopsWithError := by
  cases i with
  | build => exact buildOp_stopsWithError s
  | flatten => exact flattenOp_stopsWithError s
  | unflatten strict => exact unflattenOp_stopsWithError strict s
  | encode => exact encodeOp_stopsWithError s
  | decode strict => exact decodeOp_stopsWithError strict s
  | compress =>
    exact (((buildOp_stopsWithError s).andThen (flattenOp_stopsWithError _)).andThen
      (encodeOp_stopsWithError _)).thenRelease
  | decompress strict =>
    exact ((unflattenOp_stopsWithError strict s).andThen (decodeOp_stopsWithError strict _)).thenRelease
  | clear => exact OpEnd.stopsWithError_of_none rfl

/-- A command that completes with OK reports position 0 (60_exceptions.md R261): it passed its pre-checks, and its
operation phase raised nothing. -/
theorem errPos_of_exec_ok {i : Instr} {s t : State} (h : exec i s = .next t) (hok : t.errCode = .ok) :
    t.errPos = 0#16 := by
  obtain ⟨c, p, ⟨hfail, rfl⟩ | ⟨_, rfl, hraised | ⟨_, _, rfl⟩⟩⟩ := exec_next_complete h
  · cases hok
    exact absurd hfail (preCheckOf_ne_ok i s p)
  · exact absurd hok (opOf_stopsWithError i s _ hraised)
  · rfl

/-! ### the tree slot after a failed operation phase -/

/-- A command that passed its pre-checks leaves the slot as its operation phase does. -/
theorem tree_of_exec {i : Instr} {s t : State} (h : exec i s = .next t) (hpass : preCheckOf i s = none) :
    t.tree = (opOf i s).state.tree := by
  obtain ⟨c, p, ⟨hfail, _⟩ | ⟨_, rfl, _⟩⟩ := exec_next_complete h
  · cases hfail.symm.trans hpass
  · rfl

/-- A command that passed its pre-checks and reports an error had it raised by its operation phase. -/
theorem opOf_raised {i : Instr} {s t : State} (h : exec i s = .next t) (hpass : preCheckOf i s = none)
    (herr : t.errCode ≠ .ok) : ∃ p, (opOf i s).stop = some (.raised t.errCode p) := by
  obtain ⟨c, p, ⟨hfail, _⟩ | ⟨_, rfl, hraised | ⟨_, rfl, _⟩⟩⟩ := exec_next_complete h
  · cases hfail.symm.trans hpass
  · exact ⟨p, hraised⟩
  · exact absurd rfl herr

/-- BUILD fails after its pre-check only by ALPHABET, with the text counted and the slot released (R269, R270). -/
theorem build_failure {b : Bool} {s t : State} (h : exec (.build b) s = .next t)
    (hpass : preCheckOf (.build b) s = none) (herr : t.errCode ≠ .ok) : t = s.counted.complete .alphabet s.alphabet := by
  have hlen : s.textLen.toNat ≤ 4096 := by simpa [preCheckOf] using hpass
  rcases Nat.lt_or_ge s.alphabet 2 with hL | hL
  · exact Host.Outcome.next.inj (h.symm.trans (exec_build_small b hlen hL))
  · cases h.symm.trans (exec_build_large b hlen hL)
    exact absurd rfl herr

/-- COMPRESS fails after its pre-check only as BUILD does: on a larger alphabet every stage succeeds
(43_top_level.md R243). -/
theorem compress_failure {b : Bool} {s t : State} (h : exec (.compress b) s = .next t)
    (hpass : preCheckOf (.compress b) s = none) (herr : t.errCode ≠ .ok) :
    t = s.counted.complete .alphabet s.alphabet := by
  have hlen : s.textLen.toNat ≤ 4096 := by simpa [preCheckOf] using hpass
  rcases Nat.lt_or_ge s.alphabet 2 with hL | hL
  · exact Host.Outcome.next.inj (h.symm.trans (exec_compress_small b hlen hL))
  · obtain ⟨tr, hbuilt, _⟩ := exists_holds_built hL
    cases h.symm.trans (exec_compress_large b hlen hL hbuilt)
    exact absurd rfl herr

end Sys2Proof.Machine

open Sys2Proof Sys2Proof.Machine

/-- Settles O9: the fields that completion sets and no command touches are `exec_next`, and position 0 after a success is
`errPos_of_exec_ok`. -/
theorem completionOfACommand : Obligations.CompletionOfACommand := by
  intro i s t h
  obtain ⟨hpending, hdone, hie, hlast, _, hrst, hreq, hresponse, hturns⟩ := exec_next h
  exact ⟨by rw [State.busy, hpending, Option.isSome_none], hdone, errPos_of_exec_ok h, hlast, hie, hrst, hreq, hresponse,
    hturns⟩

/-- Settles O11: `exec_of_preCheck_fails`, and `runPending_of_illegal` for the illegal words. -/
theorem preCheckFailureChangesNothingElse : Obligations.PreCheckFailureChangesNothingElse :=
  ⟨fun _ _ _ _ h => ⟨_, exec_of_preCheck_fails h, rfl⟩, fun _ s h => ⟨_, runPending_of_illegal h s, rfl⟩⟩

/-- Settles O14: BUILD and COMPRESS fail in one way (`build_failure`, `compress_failure`), the other commands leave the
slot as their operation phase does (`tree_of_exec`), and FLATTEN and CLEAR have no error to raise. -/
theorem treeSlotAfterAnError : Obligations.TreeSlotAfterAnError := by
  intro i s t h hpass
  cases i with
  | build b =>
    intro herr
    rw [build_failure h hpass herr]
    exact ⟨rfl, rfl, holdsCounts_counted s⟩
  | compress b =>
    intro herr
    rw [compress_failure h hpass herr]
    exact ⟨rfl, fun _ => holdsCounts_counted s⟩
  | unflatten strict =>
    intro herr
    obtain ⟨p, hraised⟩ := opOf_raised h hpass herr
    have hreleased : t.tree = none := (tree_of_exec h hpass).trans (by rw [opOf, unflattenOp_of_stop hraised]; rfl)
    exact t.treeValid_eq_false_iff.mpr hreleased
  | decompress strict =>
    intro _
    have hreleased : t.tree = none := (tree_of_exec h hpass).trans (by rw [opOf, decompressOp_frame])
    exact t.treeValid_eq_false_iff.mpr hreleased
  | encode => exact fun _ => (tree_of_exec h hpass).trans (by rw [opOf, encodeOp_frame])
  | decode => exact fun _ => (tree_of_exec h hpass).trans (by rw [opOf, decodeOp_frame])
  | flatten =>
    by_contra herr
    obtain ⟨p, hraised⟩ := opOf_raised h hpass herr
    rcases flattenOp_stop s with hstop | hstop <;> cases hstop.symm.trans hraised
  | clear =>
    cases h
    rfl

/-- Settles O46: R82 to R84 refuse the access before it is performed (`step_target_error`), and R93 refuses the write
while BUSY = 1 (`step_write_refused`). -/
theorem busErrorsChangeNothing : Obligations.BusErrorsChangeNothing := by
  rintro s r h (hunmapped | hsize | halign | ⟨hwrite, hbusy, hstatus, hirqEn⟩)
  · exact step_target_error h (.inl hunmapped)
  · exact step_target_error h (.inr (.inl hsize))
  · exact step_target_error h (.inr (.inr halign))
  · rw [hwrite, if_pos rfl]
    exact step_write_refused h hbusy hwrite hstatus hirqEn

/-- Settles O8: the write of CMD is performed (`step_writeReg`), and a write of CMD is `State.accept`. -/
theorem acceptanceOfACommand : Obligations.AcceptanceOfACommand := by
  intro s v hnext hidle
  exact ⟨_, step_writeReg (q := .cmd) hnext (.inl (by rw [State.busy, hidle, Option.isSome_none])), rfl, rfl, rfl, rfl⟩
end

section
/-! Proofs of the statements of 70_reset_and_hazards.md: the moves of a reset, and what the registers hold meanwhile. -/

namespace Sys2Proof.Machine

/-! ### the moves of a reset -/

/-- The first of the coming turns is the one taken. -/
theorem step_of_turns_cons {s : State} {t : Turn} {rest : List Turn} (hturns : s.turns = t :: rest) :
    step s = takeTurn t s.turnTaken := by
  rw [step_eq_takeTurn, nextTurn, hturns]

theorem turns_turnTaken_of_cons {s : State} {t : Turn} {rest : List Turn} (hturns : s.turns = t :: rest) :
    s.turnTaken.turns = rest := congrArg List.tail hturns

theorem step_of_turns_assertReset {s : State} {rest : List Turn} (hturns : s.turns = .assertReset :: rest) :
    step s = .next s.turnTaken.assertReset := step_of_turns_cons hturns

theorem step_of_turns_releaseReset {s : State} {rest : List Turn} (hturns : s.turns = .releaseReset :: rest) :
    step s = .next s.turnTaken.releaseReset := step_of_turns_cons hturns

/-- An access presented while reset is asserted waits (70_reset_and_hazards.md R290): the host's move only takes its
turn. -/
theorem step_of_turns_host_of_rst {s : State} {rest : List Turn} (hrst : s.rst = true)
    (hturns : s.turns = .host :: rest) : step s = .next s.turnTaken := by
  have hwaits : hostTurn s.turnTaken = s.turnTaken := if_pos hrst
  rw [step_of_turns_cons hturns, takeTurn, hwaits]

/-! ### the registers during a reset -/

theorem core_turnTaken (s : State) : s.turnTaken.core = s.core := rfl

theorem core_releaseReset (s : State) : s.releaseReset.core = s.core := rfl

theorem done_of_core_reset {s : State} (h : s.core = State.reset) : s.done = false := congrArg State.done h

/-- Registers at their reset values hold no command in flight (10_state.md R60). -/
theorem busy_of_core_reset {s : State} (h : s.core = State.reset) : s.busy = false := congrArg State.busy h

/-- Registers at their reset values raise no interrupt (10_state.md R63). -/
theorem irq_of_core_reset {s : State} (h : s.core = State.reset) : s.irq = false := congrArg State.irq h

end Sys2Proof.Machine

open Sys2Proof Sys2Proof.Machine

/-- Settles O3: the registers have their reset values when reset is asserted (`core_assertReset`), the host's turn is
spent waiting (`step_of_turns_host_of_rst`), and the release changes only the reset input (`core_releaseReset`). -/
theorem resetAbandonsTheCommand : Obligations.ResetAbandonsTheCommand := by
  intro s rest hturns
  have hhost : s.turnTaken.assertReset.turns = .host :: .releaseReset :: rest := turns_turnTaken_of_cons hturns
  have hrelease : s.turnTaken.assertReset.turnTaken.turns = .releaseReset :: rest := turns_turnTaken_of_cons hhost
  have hasserted : s.turnTaken.assertReset.core = State.reset := core_assertReset _
  have hreleased : s.turnTaken.assertReset.turnTaken.releaseReset.core = State.reset := by
    rw [core_releaseReset, core_turnTaken, hasserted]
  exact ⟨_, _, _,
    step_of_turns_assertReset hturns, assertReset_rst _, done_of_core_reset hasserted, irq_of_core_reset hasserted,
    busy_of_core_reset hasserted, hasserted,
    step_of_turns_host_of_rst (assertReset_rst _) hhost, core_turnTaken _, rfl, rfl, rfl,
    step_of_turns_releaseReset hrelease, releaseReset_rst _, busy_of_core_reset hreleased, hreleased⟩
end
